-- ==== Sys2Proof/Word.lean ====
section
/-! DEFINITION. The word types of the engine: 64-bit patterns and bytes (spec/00_scope.md R9, 20_memory.md R40). -/

namespace Sys2Proof

/-- A value or pattern: an unsigned 64-bit integer (R9). -/
abbrev U64 := BitVec 64

/-- One byte of a block buffer or of a bound source (R40, R46). -/
abbrev Byte := BitVec 8

end Sys2Proof
end

