-- ==== Sys2Proof/Config.lean ====
section
/-! DEFINITION. What an implementation fixes: the parameters of a unit (spec/00_scope.md R6; Machine/Tables.lean has the values
R6 gives them), and the free values of the model: constants with no body, of which nothing can be proved. -/

namespace Sys2Proof

/-- The two wire-format variants (R3). -/
inductive Variant where
  | chimp
  | elf
deriving DecidableEq, Repr, Inhabited

/-- The eight rounded leading-zero counts, the buckets of R61; the number in a name is the count. -/
inductive Bucket where
  | b0 | b8 | b12 | b16 | b18 | b20 | b22 | b24
deriving DecidableEq, Repr, Inhabited

/-- The leading-zero count a bucket stands for (R61). -/
def Machine.bucketCount : Bucket → Nat
  | .b0 => 0
  | .b8 => 8
  | .b12 => 12
  | .b16 => 16
  | .b18 => 18
  | .b20 => 20
  | .b22 => 22
  | .b24 => 24

/-- A table of 64 rows, none of which gives a bucket above its leading-zero count: `LR(n) <= n` (R61). -/
def Config.roundsDown (row : List Bucket) : Bool :=
  row.length == 64 && (List.range 64).all fun n => decide (Machine.bucketCount (row.getD n .b0) ≤ n)

/-- `LR`, the source's `leadingRound` (R6, R61): the bucket of each leading-zero count 0 .. 63, in order (log 12). -/
structure LeadingRound where
  row   : List Bucket
  legal : Config.roundsDown row = true
deriving DecidableEq, Repr

/-- A table of eight codes in which every 3-bit code stands exactly once: a bijection from the buckets (U10). -/
def Config.bijective (code : List (BitVec 3)) : Bool :=
  code.length == 8 && decide code.Nodup && (List.range 8).all fun n => code.contains (BitVec.ofNat 3 n)

/-- `LC`, the source's `leadingRepresentation` (R6, R62, U10): the 3-bit code of each bucket, in the order of the buckets
(log 12). -/
structure LeadingRepresentation where
  code  : List (BitVec 3)
  legal : Config.bijective code = true
deriving DecidableEq, Repr

/-- Which decimal exponent function `GetSP` a unit has (R6, R185). R185 gives all of them the same results on its operands,
the positive finite doubles; on other patterns each is free (log 9). -/
inductive GetSPChoice where
  | reference
  | other (k : Nat)
deriving DecidableEq, Repr, Inhabited

/-- Which power of ten function `P10` a unit has (R6, R186): a constant table, a computation, or another. R186 gives all of
them the same results on its operands, -323 .. 308; outside, where it leaves `P10` undefined, each is free (log 9). -/
inductive P10Choice where
  | reference
  | other (k : Nat)
deriving DecidableEq, Repr, Inhabited

/-- Which decimal rounding function a unit has (R187, U9): the reference definition of R188, or some other one that R189
admits. The number tells two other functions apart; of `other k` the model says what R189 says and no more (log 8). -/
inductive RoundDecChoice where
  | reference
  | other (k : Nat)
deriving DecidableEq, Repr, Inhabited

/-- Parameters of a compressor unit (R6). No command changes one. -/
structure CUConfig where
  variant     : Variant
  /-- `CAPACITY`, the expected values per block: it sizes the buffer and nothing else (R40, R229). -/
  capacity    : Nat
  /-- `BUF_BYTES`, the bytes of the block buffer (R40). -/
  bufBytes    : Nat
  /-- `END_SIGN`, the end-of-stream sentinel. -/
  endSign     : U64
  /-- `TZ_THRESHOLD`: CHIMP elides trailing zeros when there are more than this many. -/
  tzThreshold : Nat
  /-- `GUARD_BITS`: zero bits after the sentinel's code. -/
  guardBits   : Nat
  /-- `LR` (R61). -/
  leadRound   : LeadingRound
  /-- `LC` (R62). -/
  leadCode    : LeadingRepresentation
deriving DecidableEq, Repr

/-- Parameters of a decompressor unit (R6): those that a decode rule reads (log 2). -/
structure DUConfig where
  variant  : Variant
  /-- `END_SIGN`, the end-of-stream sentinel. -/
  endSign  : U64
  /-- `LC`, whose inverse is `LB` (R62). -/
  leadCode : LeadingRepresentation
  /-- `GetSP` (R185). -/
  getSP    : GetSPChoice
  /-- `P10` (R186). -/
  p10      : P10Choice
  /-- `RoundDec` (R187). -/
  roundDec : RoundDecChoice
deriving DecidableEq, Repr

/-- Default `CAPACITY` (R6). -/
def Config.defaultCapacity : Nat := 1000

/-- Default `END_SIGN` (R6, D7). -/
def Config.defaultEndSign : U64 := 0x7FF8000000000000#64

/-! Free values. R203: after a terminal fault these elements are unspecified until REFRESH. Each is drawn afresh at every
terminal fault: the argument is the number of faults taken before (log 7). -/

/-- FREE: `storedVal` after the k-th terminal fault (R203, log 7). -/
opaque Config.freeStoredVal : Nat → U64

/-- FREE: `storedLeadingZeros` after the k-th terminal fault (R203, log 7). -/
opaque Config.freeLead : Nat → Option Bucket

/-- FREE: `storedTrailingZeros` after the k-th terminal fault of an ELF unit (R203, log 7). -/
opaque Config.freeTrail : Nat → Option (Fin 64)

/-- FREE: `first` after the k-th terminal fault (R203, log 7). -/
opaque Config.freeFirst : Nat → Bool

/-- FREE: a cursor after the k-th terminal fault, before it is brought into the cursor's range (R203, log 7). -/
opaque Config.freeCursor : Nat → Nat

/-- FREE: the byte of `BUF` at an address after the k-th terminal fault (R203, log 7). -/
opaque Config.freeByte : Nat → Nat → Byte

/-- FREE: `ended` after the k-th terminal fault (R203, log 7). -/
opaque Config.freeEnded : Nat → Bool

/-- FREE: `SRC` after the k-th terminal fault; its length is `LEN` (R203, log 7). -/
opaque Config.freeSrc : Nat → List Byte

/-- FREE: what the decimal rounding function number k that is not the reference gives where R189 fixes nothing (R187, U9,
log 8). -/
opaque Config.otherRoundDec : Nat → U64 → Int → U64

/-- FREE: a `GetSP` on a pattern that is no positive finite double, no operand of R185 (log 9). -/
opaque Config.getSPOutside : GetSPChoice → U64 → Int

/-- FREE: a `P10` outside -323 .. 308, where R186 leaves it undefined (log 9). -/
opaque Config.p10Outside : P10Choice → Int → U64

end Sys2Proof
end

