-- ==== Sys2Proof/Machine/Tables.lean ====
section
/-! DEFINITION. Integer primitives on patterns (spec/00_scope.md R10), the lookup tables LR, LC, LB (30_encoding.md R61, R62)
and the values R6 gives the parameters of a unit, the buffer size among them (20_memory.md R40). -/

namespace Sys2Proof.Machine

/-- `clz64` (R10): zero bits from the most significant end; 64 at 0. -/
def clz64 (a : U64) : Nat :=
  if a = 0 then 64 else 63 - Nat.log2 a.toNat

/-- Zero bits from the least significant end, at most `k`. -/
def countTrailing : Nat → Nat → Nat
  | 0, _ => 0
  | k + 1, n => if n % 2 = 1 then 0 else countTrailing k (n / 2) + 1

/-- `ctz64` (R10): zero bits from the least significant end; 64 at 0. -/
def ctz64 (a : U64) : Nat :=
  countTrailing 64 a.toNat

/-! ### The lookup tables -/

/-- `LR(n)`, the bucket of a leading-zero count (R61); `LR(64)` is never needed. -/
def leadRound (t : LeadingRound) (n : Nat) : Bucket :=
  t.row.getD n .b0

/-- The place of a bucket in the order of R61. -/
def bucketIndex : Bucket → Nat
  | .b0 => 0
  | .b8 => 1
  | .b12 => 2
  | .b16 => 3
  | .b18 => 4
  | .b20 => 5
  | .b22 => 6
  | .b24 => 7

/-- The bucket at a place in the order of R61. -/
def bucketAt : Nat → Bucket
  | 0 => .b0
  | 1 => .b8
  | 2 => .b12
  | 3 => .b16
  | 4 => .b18
  | 5 => .b20
  | 6 => .b22
  | _ => .b24

/-- `LC(b)`, the 3-bit code of a bucket (R62). -/
def leadCode (t : LeadingRepresentation) (b : Bucket) : BitVec 3 :=
  t.code.getD (bucketIndex b) 0

/-- `LB(c)`, the bucket of a 3-bit code, the inverse of `LC` (R62). -/
def leadBucket (t : LeadingRepresentation) (c : BitVec 3) : Bucket :=
  bucketAt (t.code.idxOf c)

/-! ### The values of R6 -/

/-- The table of R61, row by row. -/
def tabledRounding : List Bucket :=
  List.replicate 8 .b0 ++ List.replicate 4 .b8 ++ List.replicate 4 .b12 ++ List.replicate 2 .b16 ++
    List.replicate 2 .b18 ++ List.replicate 2 .b20 ++ List.replicate 2 .b22 ++ List.replicate 40 .b24

/-- `BUF_BYTES` for a `CAPACITY` (R40): the ceiling of 6X/5, X = (CAPACITY + 1) * 8 + floor(CAPACITY / 8) + 1. -/
def bufBytes (capacity : Nat) : Nat :=
  (6 * ((capacity + 1) * 8 + capacity / 8 + 1) + 4) / 5

/-- `GUARD_BITS` of a variant (R6). -/
def guardBits : Variant → Nat
  | .chimp => 1
  | .elf => 0

/-- `TZ_THRESHOLD` (R6). -/
def tzThreshold : Nat := 6

end Sys2Proof.Machine

namespace Sys2Proof

open Sys2Proof.Machine

/-- `LR` with the contents of R61. -/
def LeadingRound.tabled : LeadingRound :=
  ⟨tabledRounding, by decide +kernel⟩

/-- `LC` with the codes in ascending order, the default (R62, D10, U10). -/
def LeadingRepresentation.ascending : LeadingRepresentation :=
  ⟨[0, 1, 2, 3, 4, 5, 6, 7], by decide +kernel⟩

/-- The parameters that R6 gives a compressor unit of a variant and a capacity. -/
def CUConfig.sized (vt : Variant) (capacity : Nat) : CUConfig :=
  { variant := vt
    capacity := capacity
    bufBytes := Machine.bufBytes capacity
    endSign := Config.defaultEndSign
    tzThreshold := Machine.tzThreshold
    guardBits := Machine.guardBits vt
    leadRound := .tabled
    leadCode := .ascending }

/-- A compressor unit's parameters at their defaults, in a given variant (R6). -/
def CUConfig.default (vt : Variant) : CUConfig :=
  .sized vt Config.defaultCapacity

/-- A decompressor unit's parameters at their defaults, in a given variant (R6). -/
def DUConfig.default (vt : Variant) : DUConfig :=
  { variant := vt
    endSign := Config.defaultEndSign
    leadCode := .ascending
    getSP := .reference
    p10 := .reference
    roundDec := .reference }

end Sys2Proof
end

