-- ==== Sys2Proof/Machine/Operands.lean ====
section
/-! DEFINITION. Field assembly (spec/30_encoding.md R75 to R79, R89): what the fields of a wire code stand for, the width of
each payload, and the pattern a payload stands for. -/

namespace Sys2Proof.Machine

/-- Centre bits of a `cb4` field: 0 stands for 16 (R77). -/
def centreOf4 (c : BitVec 4) : Nat :=
  if c.toNat = 0 then 16 else c.toNat

/-- Centre bits of a `cb6` field: 0 stands for 64 (R77). -/
def centreOf6 (c : BitVec 6) : Nat :=
  if c.toNat = 0 then 64 else c.toNat

/-- Payload width of CHIMP.REUSE and CHIMP.NEWLEAD: all bits below the bucket (R66, R67). -/
def belowLead (lz : Nat) : Nat :=
  64 - lz

/-- Payload width of ELF.REUSE: `centerBits` of the remembered window (R70). -/
def windowCentre (lead : Bucket) (trail : Fin 64) : Nat :=
  64 - bucketCount lead - trail.val

/-- The trailing-zero count that the fields of a code leave: `64 - lz - width` (R76, R77). -/
def trailOf (lz width : Nat) : Nat :=
  64 - lz - width

/-- The trailing-zero count as the register `storedTrailingZeros` holds it, 0 .. 63 (R24, R164, R165). -/
def trailReg (lz width : Nat) : Fin 64 :=
  Fin.ofNat 64 (trailOf lz width)

/-- The xor (or first value) a payload stands for: shifted left by the trailing-zero count (R89). -/
def placed (payload : U64) (tz : Nat) : U64 :=
  payload <<< tz

/-- A payload fits its field (R89: the stated shift is always less than 2^width). -/
def fits (payload : U64) (width : Nat) : Bool :=
  payload.toNat < 2 ^ width

end Sys2Proof.Machine
end

