-- ==== Sys2Proof/Syntax.lean ====
section
/-! DEFINITION. The instruction set (spec/00_scope.md R1, R14; spec/opcode_table.json): one constructor for each of the 26
rows, and a host command as it stands on a unit's port. -/

namespace Sys2Proof

/-- The two kinds of unit that take commands (R2). -/
inductive UnitKind where
  | cu
  | du
deriving DecidableEq, Repr

/-- One instruction: a wire code, a host command or an internal primitive. The operands of a wire code are its fields as
they stand in the stream (R63 to R74), the payload as the integer it carries; of the field `lzc` the operand is the bucket
that it stands for, `LB(lzc)` (R75). -/
inductive Instr where
  -- wire codes, CHIMP (R63 to R67)
  | chimpFirst (raw : U64)
  | chimpSame
  | chimpTrail (lz : Bucket) (sig : BitVec 6) (payload : U64)
  | chimpReuse (payload : U64)
  | chimpNewLead (lz : Bucket) (payload : U64)
  -- wire codes, ELF (R68 to R72)
  | elfFirst (tz7 : BitVec 7) (payload : U64)
  | elfSame
  | elfReuse (payload : U64)
  | elfNewShort (lz : Bucket) (cb4 : BitVec 4) (payload : U64)
  | elfNewLong (lz : Bucket) (cb6 : BitVec 6) (payload : U64)
  -- the orchestrator's mode marks in front of an XOR code (R73, R74)
  | orchRaw
  | orchDec (betaStar : BitVec 4)
  -- host commands of a compressor unit (R100 to R105)
  | addValue (v : U64)
  | close
  | refreshCU
  | putBitsCommand (v : U64) (n : BitVec 7)
  | getBuf
  -- host commands of a decompressor unit (R135 to R139, R170, R176)
  | setBytes (b : List Byte)
  | readValue
  | nextValue
  | decompX
  | decompE
  | refreshDU
  -- internal primitives (R90 to R92)
  | putBits (v : U64) (n : BitVec 7)
  | getBits (n : BitVec 7)
  | flush
deriving DecidableEq, Repr

/-- A host command as it stands on the port of a unit (R85): the 4-bit `cmd` and the operand fields, each present on the
port whether or not the command uses it (log 4). -/
structure Command where
  /-- The unit it is sent to, by its place in the engine's list of units (R209: units have no identifier register). -/
  unit : Nat
  /-- `cmd`, 4 bits. -/
  cmd  : BitVec 4
  /-- `v`, 64 bits: ADDVALUE, PUTBITS. -/
  v    : U64
  /-- `n`, 7 bits: PUTBITS. -/
  n    : BitVec 7
  /-- `b`, a list of bytes with its length: SETBYTES. -/
  b    : List Byte
deriving DecidableEq, Repr

end Sys2Proof
end

