-- ==== Sys2Proof/WellFormed.lean ====
section
/-! DEFINITION. Which instructions are well-formed: every field inside the range the format gives it (spec/30_encoding.md
R63 to R79, R82, R89, 40_bitstream.md R90, R91). -/

namespace Sys2Proof

open Sys2Proof.Machine

/-- Well-formed, as far as the instruction alone tells. Host commands are well-formed whatever their operands are: a bad
PUTBITS operand is a legal command that the unit refuses (R103). -/
def Instr.wellFormed : Instr → Bool
  | .chimpFirst _ => true
  | .chimpSame => true
  | .chimpTrail lz sig payload =>
      decide (sig.toNat ≠ 0) && decide (bucketCount lz + sig.toNat ≤ 64) && fits payload sig.toNat
  | .chimpReuse _ => true
  | .chimpNewLead lz payload => fits payload (belowLead (bucketCount lz))
  | .elfFirst tz7 payload => decide (tz7.toNat ≤ 64) && fits payload (64 - tz7.toNat)
  | .elfSame => true
  | .elfReuse _ => true
  | .elfNewShort _ cb4 payload => fits payload (centreOf4 cb4)
  | .elfNewLong lz cb6 payload => decide (bucketCount lz + centreOf6 cb6 ≤ 64) && fits payload (centreOf6 cb6)
  | .orchRaw => true
  | .orchDec _ => true
  | .addValue _ => true
  | .close => true
  | .refreshCU => true
  | .putBitsCommand _ _ => true
  | .getBuf => true
  | .setBytes _ => true
  | .readValue => true
  | .nextValue => true
  | .decompX => true
  | .decompE => true
  | .refreshDU => true
  | .putBits v n => decide (n.toNat ≤ 64) && fits v n.toNat
  | .getBits n => decide (n.toNat ≤ 64)
  | .flush => true

/-- Well-formed against the remembered zero-run window: the two reuse codes take their payload width from it, and need one
(R66, R70, R82). Every other instruction ignores the window. -/
def Instr.fitsWindow (lead : Option Bucket) (trail : Option (Fin 64)) : Instr → Bool
  | .chimpReuse payload =>
      match lead with
      | some b => fits payload (belowLead (bucketCount b))
      | none => false
  | .elfReuse payload =>
      match lead, trail with
      | some b, some t => fits payload (windowCentre b t)
      | _, _ => false
  | _ => true

end Sys2Proof
end

