-- ==== Sys2Proof/Decode.lean ====
section
/-! DEFINITION. Decoding (spec/30_encoding.md R60 to R85): from the bits of a stream to a wire code or to a mode mark, and
from the fields of a port to a host command; total, rejecting by name. After it the encoder: the fields and the bits of a
wire code, and the port fields of a host command. Fields are read and written most significant bit first (R42). The table
`LC` of the unit gives the field `lzc` its meaning (R62, R75). -/

namespace Sys2Proof

open Sys2Proof.Machine

/-! ### Bits of a stream -/

/-- The unsigned integer that bits stand for, first bit most significant (R42, the loop of R91). -/
def bitsToNat (bs : List Bool) : Nat :=
  bs.foldl (fun r b => 2 * r + b.toNat) 0

/-- The n bits of an unsigned integer, most significant first (R42). -/
def natBits : Nat → Nat → List Bool
  | 0, _ => []
  | n + 1, v => v.testBit n :: natBits n v

/-- The bits of one byte, bit 7 first (R41). -/
def byteBits (b : Byte) : List Bool :=
  natBits 8 b.toNat

/-- The bit sequence of a list of bytes (R41). -/
def bytesBits (bs : List Byte) : List Bool :=
  bs.flatMap byteBits

/-- Why bits or port fields are no instruction. -/
inductive DecodeError where
  /-- The stream ends inside the code (R196). -/
  | streamEnds
  /-- CHIMP `10` with no remembered bucket (R82). -/
  | chimpReuseNoWindow
  /-- CHIMP `01` with `sig` 0 (R82). -/
  | chimpTrailNoPayload
  /-- CHIMP `01` with `lz + sig > 64` (R82). -/
  | chimpTrailTooWide
  /-- ELF first code with `tz7 > 64` (R82). -/
  | elfFirstTooMany
  /-- ELF `00` with no remembered window (R82). -/
  | elfReuseNoWindow
  /-- ELF `11` with `lz + cb > 64` (R82). -/
  | elfNewLongTooWide
  /-- A `cmd` value that R85 does not list for the unit. -/
  | reservedCommand
deriving DecidableEq, Repr

/-- Read an n-bit field from the front of a stream (R91); nothing is read past its end. -/
def takeField (n : Nat) (bs : List Bool) : Except DecodeError (Nat × List Bool) :=
  if bs.length < n then .error .streamEnds else .ok (bitsToNat (bs.take n), bs.drop n)

/-! ### CHIMP codes (R150 to R155) -/

/-- CHIMP.FIRST (R150). -/
def decodeChimpFirst (bs : List Bool) : Except DecodeError (Instr × List Bool) := do
  let (raw, bs) ← takeField 64 bs
  .ok (.chimpFirst (BitVec.ofNat 64 raw), bs)

/-- CHIMP.TRAIL after its control code (R153): the check comes after the 6-bit field and before the payload. -/
def decodeChimpTrail (lc : LeadingRepresentation) (bs : List Bool) : Except DecodeError (Instr × List Bool) := do
  let (l, bs) ← takeField 3 bs
  let (sig, bs) ← takeField 6 bs
  if sig = 0 then .error .chimpTrailNoPayload
  else if 64 < bucketCount (leadBucket lc (BitVec.ofNat 3 l)) + sig then .error .chimpTrailTooWide
  else do
    let (pay, bs) ← takeField sig bs
    .ok (.chimpTrail (leadBucket lc (BitVec.ofNat 3 l)) (BitVec.ofNat 6 sig) (BitVec.ofNat 64 pay), bs)

/-- CHIMP.REUSE after its control code (R154). -/
def decodeChimpReuse (lead : Option Bucket) (bs : List Bool) : Except DecodeError (Instr × List Bool) :=
  match lead with
  | none => .error .chimpReuseNoWindow
  | some b => do
    let (pay, bs) ← takeField (belowLead (bucketCount b)) bs
    .ok (.chimpReuse (BitVec.ofNat 64 pay), bs)

/-- CHIMP.NEWLEAD after its control code (R155). -/
def decodeChimpNewLead (lc : LeadingRepresentation) (bs : List Bool) : Except DecodeError (Instr × List Bool) := do
  let (l, bs) ← takeField 3 bs
  let (pay, bs) ← takeField (belowLead (bucketCount (leadBucket lc (BitVec.ofNat 3 l)))) bs
  .ok (.chimpNewLead (leadBucket lc (BitVec.ofNat 3 l)) (BitVec.ofNat 64 pay), bs)

/-- Dispatch on the control code, CHIMP (R151). -/
def decodeChimpNext (lc : LeadingRepresentation) (lead : Option Bucket) (bs : List Bool) :
    Except DecodeError (Instr × List Bool) := do
  let (ctl, bs) ← takeField 2 bs
  if ctl = 0 then .ok (.chimpSame, bs)
  else if ctl = 1 then decodeChimpTrail lc bs
  else if ctl = 2 then decodeChimpReuse lead bs
  else decodeChimpNewLead lc bs

/-! ### ELF codes (R160 to R165) -/

/-- ELF.FIRST (R160). -/
def decodeElfFirst (bs : List Bool) : Except DecodeError (Instr × List Bool) := do
  let (tz, bs) ← takeField 7 bs
  if 64 < tz then .error .elfFirstTooMany
  else do
    let (pay, bs) ← takeField (64 - tz) bs
    .ok (.elfFirst (BitVec.ofNat 7 tz) (BitVec.ofNat 64 pay), bs)

/-- ELF.REUSE after its control code (R163). -/
def decodeElfReuse (lead : Option Bucket) (trail : Option (Fin 64)) (bs : List Bool) :
    Except DecodeError (Instr × List Bool) :=
  match lead, trail with
  | some b, some t => do
    let (pay, bs) ← takeField (windowCentre b t) bs
    .ok (.elfReuse (BitVec.ofNat 64 pay), bs)
  | _, _ => .error .elfReuseNoWindow

/-- ELF.NEWSHORT after its control code (R164). -/
def decodeElfNewShort (lc : LeadingRepresentation) (bs : List Bool) : Except DecodeError (Instr × List Bool) := do
  let (l, bs) ← takeField 3 bs
  let (c, bs) ← takeField 4 bs
  let (pay, bs) ← takeField (centreOf4 (BitVec.ofNat 4 c)) bs
  .ok (.elfNewShort (leadBucket lc (BitVec.ofNat 3 l)) (BitVec.ofNat 4 c) (BitVec.ofNat 64 pay), bs)

/-- ELF.NEWLONG after its control code (R165). -/
def decodeElfNewLong (lc : LeadingRepresentation) (bs : List Bool) : Except DecodeError (Instr × List Bool) := do
  let (l, bs) ← takeField 3 bs
  let (c, bs) ← takeField 6 bs
  if 64 < bucketCount (leadBucket lc (BitVec.ofNat 3 l)) + centreOf6 (BitVec.ofNat 6 c) then .error .elfNewLongTooWide
  else do
    let (pay, bs) ← takeField (centreOf6 (BitVec.ofNat 6 c)) bs
    .ok (.elfNewLong (leadBucket lc (BitVec.ofNat 3 l)) (BitVec.ofNat 6 c) (BitVec.ofNat 64 pay), bs)

/-- Dispatch on the control code, ELF (R161). -/
def decodeElfNext (lc : LeadingRepresentation) (lead : Option Bucket) (trail : Option (Fin 64)) (bs : List Bool) :
    Except DecodeError (Instr × List Bool) := do
  let (ctl, bs) ← takeField 2 bs
  if ctl = 0 then decodeElfReuse lead trail bs
  else if ctl = 1 then .ok (.elfSame, bs)
  else if ctl = 2 then decodeElfNewShort lc bs
  else decodeElfNewLong lc bs

/-! ### Streams and ports -/

/-- Decode one XOR code from the front of a stream (R80): the variant and `first` choose the format or the control table,
the remembered window gives the widths of the reuse codes, the unit's `LC` the buckets. Answers the code and the rest of the stream. -/
def decodeCode (lc : LeadingRepresentation) (vt : Variant) (first : Bool) (lead : Option Bucket) (trail : Option (Fin 64))
    (bs : List Bool) : Except DecodeError (Instr × List Bool) :=
  match vt, first with
  | .chimp, true => decodeChimpFirst bs
  | .chimp, false => decodeChimpNext lc lead bs
  | .elf, true => decodeElfFirst bs
  | .elf, false => decodeElfNext lc lead trail bs

/-- Decode the orchestrator's mode mark from the front of a stream (R73, R74, R170, R172). -/
def decodeMode (bs : List Bool) : Except DecodeError (Instr × List Bool) := do
  let (flag, bs) ← takeField 1 bs
  if flag = 0 then .ok (.orchRaw, bs)
  else do
    let (beta, bs) ← takeField 4 bs
    .ok (.orchDec (BitVec.ofNat 4 beta), bs)

/-- Decode a host command on the port of a unit of the given kind (R85). -/
def decodeCommand (k : UnitKind) (c : Command) : Except DecodeError Instr :=
  match k, c.cmd.toNat with
  | .cu, 1 => .ok (.addValue c.v)
  | .cu, 2 => .ok .close
  | .cu, 3 => .ok .refreshCU
  | .cu, 4 => .ok (.putBitsCommand c.v c.n)
  | .cu, 5 => .ok .getBuf
  | .du, 3 => .ok .refreshDU
  | .du, 8 => .ok (.setBytes c.b)
  | .du, 9 => .ok .readValue
  | .du, 10 => .ok .nextValue
  | .du, 11 => .ok .decompX
  | .du, 12 => .ok .decompE
  | _, _ => .error .reservedCommand

/-- The kind of unit a `cmd` value is listed for first in R85: compressor up to 7, decompressor from 8. -/
def commandKind (cmd : BitVec 4) : UnitKind :=
  if cmd.toNat < 8 then .cu else .du

/-- The port fields of a row of the opcode table: the row's bits are the 4-bit `cmd`; the operand fields have no bits in
the table and are zero (log 4). -/
def tableCommand (unit w : Nat) : Command :=
  { unit := unit, cmd := BitVec.ofNat 4 w, v := 0, n := 0, b := [] }

/-- The instruction the decoder reads from the bits of a row of the opcode table. Only the host commands have numbered bits
there; the code 3 is REFRESH of either kind of unit and is read as a compressor's (log 4). -/
def decodeTableWord (nbits w : Nat) : Option Instr :=
  if nbits < 4 then none
  else (decodeCommand (commandKind (BitVec.ofNat 4 w)) (tableCommand 0 w)).toOption

/-! ### The encoder -/

/-- One access to a stream: an unsigned integer and its width in bits (R90). -/
structure Field where
  value : Nat
  width : Nat
deriving DecidableEq, Repr

/-- The fields of a wire code in stream order, one for each access the encode rule makes (R115, R117 to R120, R125, R127,
R128, R130, R131; R73, R74). The unit's `LC` gives the field `lzc` (R75); the reuse codes take their payload width from the
remembered window; ELF.REUSE is one fused access when `2 + cb` fits in 64 bits and two accesses otherwise (R128). Other
instructions have none. -/
def codeFields (lc : LeadingRepresentation) (lead : Option Bucket) (trail : Option (Fin 64)) : Instr → List Field
  | .chimpFirst raw => [⟨raw.toNat, 64⟩]
  | .chimpSame => [⟨0, 2⟩]
  | .chimpTrail lz sig payload => [⟨1, 2⟩, ⟨(leadCode lc lz).toNat, 3⟩, ⟨sig.toNat, 6⟩, ⟨payload.toNat, sig.toNat⟩]
  | .chimpReuse payload =>
      match lead with
      | some b => [⟨2, 2⟩, ⟨payload.toNat, belowLead (bucketCount b)⟩]
      | none => []
  | .chimpNewLead lz payload =>
      [⟨3, 2⟩, ⟨(leadCode lc lz).toNat, 3⟩, ⟨payload.toNat, belowLead (bucketCount lz)⟩]
  | .elfFirst tz7 payload => [⟨tz7.toNat, 7⟩, ⟨payload.toNat, 64 - tz7.toNat⟩]
  | .elfSame => [⟨1, 2⟩]
  | .elfReuse payload =>
      match lead, trail with
      | some b, some t =>
          if 2 + windowCentre b t ≤ 64 then [⟨payload.toNat, 2 + windowCentre b t⟩]
          else [⟨0, 2⟩, ⟨payload.toNat, windowCentre b t⟩]
      | _, _ => []
  | .elfNewShort lz cb4 payload =>
      [⟨2 * 2 ^ 7 + (leadCode lc lz).toNat * 2 ^ 4 + cb4.toNat, 9⟩, ⟨payload.toNat, centreOf4 cb4⟩]
  | .elfNewLong lz cb6 payload =>
      [⟨3 * 2 ^ 9 + (leadCode lc lz).toNat * 2 ^ 6 + cb6.toNat, 11⟩, ⟨payload.toNat, centreOf6 cb6⟩]
  | .orchRaw => [⟨0, 1⟩]
  | .orchDec beta => [⟨16 + beta.toNat, 5⟩]
  | .addValue _ | .close | .refreshCU | .putBitsCommand _ _ | .getBuf => []
  | .setBytes _ | .readValue | .nextValue | .decompX | .decompE | .refreshDU => []
  | .putBits _ _ | .getBits _ | .flush => []

/-- The bits of fields, in stream order (R42). -/
def fieldBits (fs : List Field) : List Bool :=
  fs.flatMap fun f => natBits f.width f.value

/-- The length of fields in bits (R80, R104). -/
def fieldLength (fs : List Field) : Nat :=
  (fs.map Field.width).sum

/-- The bits of a wire code (R63 to R74). -/
def codeBits (lc : LeadingRepresentation) (lead : Option Bucket) (trail : Option (Fin 64)) (i : Instr) : List Bool :=
  fieldBits (codeFields lc lead trail i)

/-- The length of a wire code in bits (R80). -/
def codeLength (lc : LeadingRepresentation) (lead : Option Bucket) (trail : Option (Fin 64)) (i : Instr) : Nat :=
  fieldLength (codeFields lc lead trail i)

/-- The port fields of a host command, sent to a unit (R85); none for a wire code or a primitive. -/
def encodeCommand (unit : Nat) : Instr → Option Command
  | .addValue v => some { unit := unit, cmd := 1, v := v, n := 0, b := [] }
  | .close => some { unit := unit, cmd := 2, v := 0, n := 0, b := [] }
  | .refreshCU => some { unit := unit, cmd := 3, v := 0, n := 0, b := [] }
  | .putBitsCommand v n => some { unit := unit, cmd := 4, v := v, n := n, b := [] }
  | .getBuf => some { unit := unit, cmd := 5, v := 0, n := 0, b := [] }
  | .setBytes b => some { unit := unit, cmd := 8, v := 0, n := 0, b := b }
  | .readValue => some { unit := unit, cmd := 9, v := 0, n := 0, b := [] }
  | .nextValue => some { unit := unit, cmd := 10, v := 0, n := 0, b := [] }
  | .decompX => some { unit := unit, cmd := 11, v := 0, n := 0, b := [] }
  | .decompE => some { unit := unit, cmd := 12, v := 0, n := 0, b := [] }
  | .refreshDU => some { unit := unit, cmd := 3, v := 0, n := 0, b := [] }
  | .chimpFirst _ | .chimpSame | .chimpTrail _ _ _ | .chimpReuse _ | .chimpNewLead _ _ => none
  | .elfFirst _ _ | .elfSame | .elfReuse _ | .elfNewShort _ _ _ | .elfNewLong _ _ _ => none
  | .orchRaw | .orchDec _ => none
  | .putBits _ _ | .getBits _ | .flush => none

/-- The kind of unit a host command is for (R14, R85); none for a wire code or a primitive. -/
def Instr.commandUnit : Instr → Option UnitKind
  | .addValue _ | .close | .refreshCU | .putBitsCommand _ _ | .getBuf => some .cu
  | .setBytes _ | .readValue | .nextValue | .decompX | .decompE | .refreshDU => some .du
  | .chimpFirst _ | .chimpSame | .chimpTrail _ _ _ | .chimpReuse _ | .chimpNewLead _ _ => none
  | .elfFirst _ _ | .elfSame | .elfReuse _ | .elfNewShort _ _ _ | .elfNewLong _ _ _ => none
  | .orchRaw | .orchDec _ => none
  | .putBits _ _ | .getBits _ | .flush => none

/-- The place of an XOR wire code: its variant, and whether it is the variant's FIRST format (R80); none for any other
instruction. -/
def Instr.codePlace : Instr → Option (Variant × Bool)
  | .chimpFirst _ => some (.chimp, true)
  | .chimpSame | .chimpTrail _ _ _ | .chimpReuse _ | .chimpNewLead _ _ => some (.chimp, false)
  | .elfFirst _ _ => some (.elf, true)
  | .elfSame | .elfReuse _ | .elfNewShort _ _ _ | .elfNewLong _ _ _ => some (.elf, false)
  | .orchRaw | .orchDec _ => none
  | .addValue _ | .close | .refreshCU | .putBitsCommand _ _ | .getBuf => none
  | .setBytes _ | .readValue | .nextValue | .decompX | .decompE | .refreshDU => none
  | .putBits _ _ | .getBits _ | .flush => none

/-- How an instruction is encoded: as bits of a stream, as the fields of a port, or not at all (R85; the primitives are not
host-visible). -/
inductive Encoding where
  | stream (bits : List Bool)
  | port (c : Command)
  | internal
deriving DecidableEq, Repr

/-- The encoding of an instruction: a host command for the given unit, a wire code under the given `LC` in the given
window. -/
def encode (unit : Nat) (lc : LeadingRepresentation) (lead : Option Bucket) (trail : Option (Fin 64)) (i : Instr) : Encoding :=
  match encodeCommand unit i with
  | some c => .port c
  | none =>
    match codeFields lc lead trail i with
    | [] => .internal
    | fs => .stream (fieldBits fs)

end Sys2Proof
end

