-- ==== Sys2Proof/Machine/State.lean ====
section
/-! DEFINITION. The state of the engine as plain data (spec/10_state.md R20 to R38), the reasons a step can stop, and the
state after reset (70_reset_and_hazards.md R220, R221). -/

namespace Sys2Proof.Machine

/-- A terminal fault (R195). PROTOCOL_FAULT is a refusal and never stored, so it is not among them. -/
inductive TerminalFault where
  | streamError
  | bufferOverflow
  | malformedCode
  | reconDomain
deriving DecidableEq, Repr

/-- The phase of a compressor unit (R21, R34): OPEN, CLOSED, FAULT. -/
inductive Phase where
  | opened
  | closed
  | faulted
deriving DecidableEq, Repr

/-- The session registers (R23 to R26), the same in a CU and a DU. -/
structure Session where
  /-- `storedVal`, the XOR base (R23). -/
  storedVal : U64
  /-- `storedLeadingZeros`: NONE or a bucket (R24). -/
  lead      : Option Bucket
  /-- `storedTrailingZeros`: NONE or a count 0 .. 63 (R24). A CHIMP unit has no such register and holds NONE (log 17). -/
  trail     : Option (Fin 64)
  /-- `first`: the next value is the block's first (R25). -/
  first     : Bool
deriving DecidableEq, Repr

/-- A block buffer as a list of (address, byte) cells; an address that is not listed reads 0, the byte that reset and
REFRESH leave everywhere (R21, R46; log 13). -/
abbrev Memory := List Host.Cell

/-- The state of one compressor unit (R21), with its parameters (R6). -/
structure CU where
  cfg       : CUConfig
  session   : Session
  phase     : Phase
  /-- `faultCode`; none is 0 (R21). -/
  faultCode : Option TerminalFault
  /-- `wpos`, the write bit cursor (R33). -/
  wpos      : Nat
  /-- `BUF` (R40). -/
  buf       : Memory
deriving DecidableEq, Repr

/-- The state of one decompressor unit (R22), with its parameters (R6). `LEN` is the length of `src`. -/
structure DU where
  cfg       : DUConfig
  session   : Session
  /-- `SRC`, the bound source (R22, R50). -/
  src       : List Byte
  /-- `rpos`, the read bit cursor (R33). -/
  rpos      : Nat
  bound     : Bool
  ended     : Bool
  faulted   : Bool
  /-- `faultCode`; none is 0 (R22). -/
  faultCode : Option TerminalFault
deriving DecidableEq, Repr

/-- One unit of the engine (R2, R20). -/
inductive CodecUnit where
  | cu (c : CU)
  | du (d : DU)
deriving DecidableEq, Repr

/-- Response status (R86). -/
inductive Status where
  | ok
  | eos
  | refused
  | fault
deriving DecidableEq, Repr

/-- The results of a command (R86); `none` where the status makes them not valid, or the command has none. -/
inductive Result where
  | none
  | bits (n : Nat)
  | value (v : U64)
  | values (vs : List U64)
  | bytes (bs : List Byte)
deriving DecidableEq, Repr

/-- One response: the unit that answers, the status, the unit's status word and the results (R86). -/
structure Response where
  unit   : Nat
  status : Status
  stat   : BitVec 8
  result : Result
deriving DecidableEq, Repr

/-- What the host does to the engine: it sends a command (R8, R85), or resets a unit (R220). -/
inductive HostEvent where
  | command (c : Command)
  | reset (unit : Nat)
deriving DecidableEq, Repr

/-- The whole engine. -/
structure State where
  /-- The units, the disjoint union of their states (R20, R209). -/
  units   : List CodecUnit
  /-- What the host has issued and the engine has not taken yet, in order (R48; log 3). -/
  pending : List HostEvent
  /-- The model's own: the unit on whose port the running command stands (log 3). -/
  sel     : Nat
  /-- The responses given so far, the latest first (R86; log 5). -/
  out     : List Response
  /-- The model's own: how many terminal faults have been taken, the index of the free values (R203; log 7). -/
  draws   : Nat
deriving DecidableEq, Repr

/-- The reasons a step stops with a fault. Both are SAFE: the model stops where the spec has no machine. -/
inductive Fault where
  /-- Raised by a command, or a reset, for a unit that the engine does not have: the spec gives no such agent (R209; log 15). -/
  | noSuchUnit
  /-- Raised by GETBUF for an address outside `BUF`, which no run reaches (R40, R45; log 14). -/
  | outsideBuffer
deriving DecidableEq, Repr

/-- The reasons an instruction has no meaning where it stands. All are SAFE, and no command of the host leads to one. -/
inductive Refusal where
  /-- Raised by exec for an instruction with no meaning yet. -/
  | notModelled (mnemonic : String)
  /-- Raised by a wire code, a mode mark or a primitive run on a unit that does not take it there: wrong kind, variant,
  place in the block, or phase (R80, R90, R91; log 10, log 11). -/
  | outOfPlace
  /-- Raised by a wire code or PutBits whose operand does not fit its width (R90: such a call has no meaning; log 10, log 11). -/
  | operandTooWide
  /-- Raised by a reserved encoding run on a compressor unit, which never emits one (R82; log 10). -/
  | reservedCode
deriving DecidableEq, Repr

/-- The session registers after reset and REFRESH (R21, R22, R102, R139). -/
def Session.reset : Session :=
  { storedVal := 0, lead := none, trail := none, first := true }

/-- A compressor unit after reset (R21, R220, R221). -/
def CU.reset (cfg : CUConfig) : CU :=
  { cfg := cfg, session := .reset, phase := .opened, faultCode := none, wpos := 0, buf := [] }

/-- A decompressor unit after reset (R22, R220, R221). -/
def DU.reset (cfg : DUConfig) : DU :=
  { cfg := cfg, session := .reset, src := [], rpos := 0, bound := false, ended := false, faulted := false, faultCode := none }

/-- The engine after reset. The spec lets any number of units exist (R209); the model has one of each kind and variant,
with the default parameters (log 1, DESIGN CHOICE). The host has issued nothing and nothing has been answered. -/
def State.reset : State :=
  { units :=
      [.cu (.reset (.default .chimp)), .du (.reset (.default .chimp)), .cu (.reset (.default .elf)),
        .du (.reset (.default .elf))]
    pending := []
    sel := 0
    out := []
    draws := 0 }

end Sys2Proof.Machine
end

