-- ==== Sys2Proof/Machine/Flags.lean ====
section
/-! DEFINITION. Flags and status words (spec/10_state.md R34, R35; 60_exceptions.md R195, R197): the code of a fault, the
read-only words CUSTAT and DUSTAT, and the tests the commands make before they run. -/

namespace Sys2Proof.Machine

/-- The code of a terminal fault (R195). -/
def TerminalFault.code : TerminalFault → BitVec 4
  | .streamError => 1
  | .bufferOverflow => 3
  | .malformedCode => 4
  | .reconDomain => 5

/-- `faultCode` as the status words hold it: 0 or a terminal code (R35, R195). -/
def faultField : Option TerminalFault → BitVec 4
  | none => 0
  | some f => f.code

/-- `phase` as CUSTAT holds it (R35). -/
def Phase.field : Phase → BitVec 2
  | .opened => 0
  | .closed => 1
  | .faulted => 2

/-- CUSTAT (R35): faultCode in 7:4, bit 3 zero, `first` in 2, phase in 1:0. -/
def CU.statusWord (c : CU) : BitVec 8 :=
  faultField c.faultCode ++ 0#1 ++ BitVec.ofBool c.session.first ++ c.phase.field

/-- DUSTAT (R35): faultCode in 7:4, `first` in 3, `faulted` in 2, `ended` in 1, `bound` in 0. -/
def DU.statusWord (d : DU) : BitVec 8 :=
  faultField d.faultCode ++ BitVec.ofBool d.session.first ++ BitVec.ofBool d.faulted ++ BitVec.ofBool d.ended
    ++ BitVec.ofBool d.bound

/-- The status word that goes with every response of a unit (R35, R86). -/
def CodecUnit.statusWord : CodecUnit → BitVec 8
  | .cu c => c.statusWord
  | .du d => d.statusWord

/-- The kind of a unit (R2). -/
def CodecUnit.kind : CodecUnit → UnitKind
  | .cu _ => .cu
  | .du _ => .du

/-- The value-producing commands are accepted: a source is bound, the sentinel has not been decoded, no fault stands
(R136, R197). -/
def DU.ready (d : DU) : Bool :=
  !d.faulted && d.bound && !d.ended

/-- The code response status has on the port (R86). -/
def Status.code : Status → BitVec 2
  | .ok => 0
  | .eos => 1
  | .refused => 2
  | .fault => 3

end Sys2Proof.Machine
end

