-- ==== Sys2Proof/Machine/Ops.lean ====
section
/-! DEFINITION. The named operations: the block buffer, the BitStream primitives (spec/40_bitstream.md R90 to R94), answering
a command (30_encoding.md R86), refusing one (60_exceptions.md R204), taking a terminal fault (R203) and the return from one,
REFRESH (R205, 41_compressor_contract.md R102, 44_decompressor_contract.md R139), and hardware reset (70_reset_and_hazards.md R220). -/

namespace Sys2Proof.Machine

/-! ### The block buffer -/

/-- The byte at an address of a block buffer: 0 where nothing is listed (R21, R46). -/
def Memory.read : Memory → Nat → Byte
  | [], _ => 0
  | (x, y) :: m, a => if x = a then y else Memory.read m a

/-- Write one byte, keeping the canonical form: addresses rise, no listed byte is 0. -/
def Memory.write : Memory → Nat → Byte → Memory
  | [], a, b => if b = 0 then [] else [(a, b)]
  | (x, y) :: m, a, b =>
      if a < x then (if b = 0 then (x, y) :: m else (a, b) :: (x, y) :: m)
      else if a = x then (if b = 0 then m else (a, b) :: m)
      else (x, y) :: Memory.write m a b

/-- The canonical form of a block buffer: addresses strictly rise and no listed byte is what an unlisted one reads as. -/
abbrev Memory.WF (m : Memory) : Prop :=
  m.Pairwise (fun x y => x.1 < y.1) ∧ ∀ c ∈ m, c.2 ≠ 0

/-- `BUF_BYTES` of a compressor unit (R6, R40). -/
def CU.bufBytes (c : CU) : Nat :=
  c.cfg.bufBytes

/-- `MemRead(addr, n)` on the block buffer (R12): the n bytes from an address on, lowest address first; none where the
range leaves the address space (R40). -/
def CU.memRead (c : CU) (addr n : Nat) : Option (List Byte) :=
  if addr + n ≤ c.bufBytes then some ((List.range n).map fun i => c.buf.read (addr + i)) else none

/-! ### Bits of a buffer -/

/-- A byte with bit k set to `b` (R90). -/
def setByteBit (y : Byte) (k : Nat) (b : Bool) : Byte :=
  if b then y ||| (1#8 <<< k) else y &&& ~~~(1#8 <<< k)

/-- Stream bit p of a block buffer: bit `7 - (p mod 8)` of byte `floor(p / 8)` (R41). -/
def Memory.bit (m : Memory) (p : Nat) : Bool :=
  (m.read (p / 8)).getLsbD (7 - p % 8)

/-- Set stream bit p of a block buffer (R41, R90). -/
def Memory.setBit (m : Memory) (p : Nat) (b : Bool) : Memory :=
  m.write (p / 8) (setByteBit (m.read (p / 8)) (7 - p % 8) b)

/-- The loop of PutBits (R90): the n bits of v, most significant first, at stream position p on. -/
def Memory.writeField (m : Memory) (p v : Nat) : Nat → Memory
  | 0 => m
  | n + 1 => Memory.writeField (m.setBit p (v.testBit n)) (p + 1) v n

/-! ### BitStream primitives -/

/-- `PutBits(v, n)` (R90): checked before anything is written (R45); a 0-bit access that fits writes nothing (R93). -/
def CU.putBits (c : CU) (v n : Nat) : Except TerminalFault CU :=
  if 8 * c.bufBytes < c.wpos + n then .error .bufferOverflow
  else .ok { c with buf := c.buf.writeField c.wpos v n, wpos := c.wpos + n }

/-- PutBits for fields one after another; the first that does not fit raises (R48, R90, R202). -/
def CU.putFields (c : CU) : List Field → Except TerminalFault CU
  | [] => .ok c
  | f :: fs =>
      match c.putBits f.value f.width with
      | .error e => .error e
      | .ok c' => CU.putFields c' fs

/-- The pad bits that Flush adds at a cursor (R92). -/
def padBits (wpos : Nat) : Nat :=
  (8 - wpos % 8) % 8

/-- `Flush()` (R92): the skipped bits are already 0. -/
def CU.flush (c : CU) : CU :=
  { c with wpos := c.wpos + padBits c.wpos }

/-- `LEN`, the number of bytes of the bound source (R22). -/
def DU.len (d : DU) : Nat :=
  d.src.length

/-- The bits from the cursor to the end of the source (R41, R45, R46). -/
def DU.stream (d : DU) : List Bool :=
  (bytesBits d.src).drop d.rpos

/-- Move the read cursor on (R33). -/
def DU.advance (d : DU) (n : Nat) : DU :=
  { d with rpos := d.rpos + n }

/-- `GetBits(n)` (R91): past the end of the source it reads nothing and raises STREAM_ERROR (R45). -/
def DU.getBits (d : DU) (n : Nat) : Except TerminalFault (Nat × DU) :=
  if 8 * d.len < d.rpos + n then .error .streamError
  else .ok (bitsToNat (d.stream.take n), d.advance n)

/-! ### Answers -/

/-- The outcome of a step. -/
abbrev StepResult := Host.Outcome State Fault Refusal

/-- The unit that the running command is addressed to. -/
def State.unit? (s : State) : Option CodecUnit :=
  s.units[s.sel]?

/-- Answer the running command: the unit's new state, the status, and the results (R86). The status word is the new one. -/
def State.answer (s : State) (u : CodecUnit) (st : Status) (r : Result) : State :=
  { s with
    units := s.units.set s.sel u
    out := { unit := s.sel, status := st, stat := u.statusWord, result := r } :: s.out }

/-- Refuse the running command with PROTOCOL_FAULT (R204): the response says so and nothing else changes. -/
def State.refuse (s : State) (u : CodecUnit) : State :=
  { s with out := { unit := s.sel, status := .refused, stat := u.statusWord, result := .none } :: s.out }

/-! ### Taking a terminal fault -/

/-- The session registers after a terminal fault: unspecified (R203). A CHIMP unit still has no trailing register. -/
def freeSession (k : Nat) (vt : Variant) : Session :=
  { storedVal := Config.freeStoredVal k
    lead := Config.freeLead k
    trail := match vt with
      | .chimp => none
      | .elf => Config.freeTrail k
    first := Config.freeFirst k }

/-- A buffer of n unspecified bytes (R203), in canonical form. -/
def freeBuffer (k n : Nat) : Memory :=
  (List.range n).filterMap fun a => if Config.freeByte k a = 0 then none else some (a, Config.freeByte k a)

/-- Entry of a compressor unit into a terminal fault (R203): `phase` and `faultCode` are defined, `storedVal`, the window,
`first`, `wpos` and `BUF` are unspecified, each inside its type (log 7). -/
def CU.enterFault (c : CU) (k : Nat) (f : TerminalFault) : CU :=
  { cfg := c.cfg
    session := freeSession k c.cfg.variant
    phase := .faulted
    faultCode := some f
    wpos := Config.freeCursor k % (8 * c.bufBytes + 1)
    buf := freeBuffer k c.bufBytes }

/-- Entry of a decompressor unit into a terminal fault (R203): `faulted`, `faultCode` and `bound` are defined, `storedVal`,
the window, `first`, `ended`, `rpos`, `SRC` and `LEN` are unspecified, each inside its type (log 7). -/
def DU.enterFault (d : DU) (k : Nat) (f : TerminalFault) : DU :=
  { cfg := d.cfg
    session := freeSession k d.cfg.variant
    src := Config.freeSrc k
    rpos := Config.freeCursor k % (8 * (Config.freeSrc k).length + 1)
    bound := false
    ended := Config.freeEnded k
    faulted := true
    faultCode := some f }

/-- Entry of either kind of unit (R203). -/
def CodecUnit.enterFault (u : CodecUnit) (k : Nat) (f : TerminalFault) : CodecUnit :=
  match u with
  | .cu c => .cu (c.enterFault k f)
  | .du d => .du (d.enterFault k f)

/-- Taking a terminal fault, `raise F` (R203): the unit enters the fault state, the response status is FAULT, no result is
given, and the free values of this fault are used up. -/
def State.raise (s : State) (u : CodecUnit) (f : TerminalFault) : State :=
  { s.answer (u.enterFault s.draws f) .fault .none with draws := s.draws + 1 }

/-! ### The return from a terminal fault, and reset -/

/-- REFRESH of a compressor unit (R102): every element at its reset value. -/
def CU.refresh (c : CU) : CU :=
  { cfg := c.cfg, session := .reset, phase := .opened, faultCode := none, wpos := 0, buf := [] }

/-- REFRESH of a decompressor unit (R139): the session registers, `ended`, `faulted`, `faultCode`; not `SRC`, `LEN`, `rpos`
or `bound`. -/
def DU.refresh (d : DU) : DU :=
  { d with session := .reset, ended := false, faulted := false, faultCode := none }

/-- Hardware reset of a unit (R220, R221): its parameters stay. -/
def CodecUnit.hardReset : CodecUnit → CodecUnit
  | .cu c => .cu (.reset c.cfg)
  | .du d => .du (.reset d.cfg)

/-! ### Running a command on its unit -/

/-- Run a compressor command on the addressed unit. A decompressor unit refuses it (R85, R197). -/
def State.onCU (s : State) (f : CU → StepResult) : StepResult :=
  match s.unit? with
  | some (.cu c) => f c
  | some (.du d) => .next (s.refuse (.du d))
  | none => .fault .noSuchUnit

/-- Run a decompressor command on the addressed unit. A compressor unit refuses it (R85, R197). -/
def State.onDU (s : State) (f : DU → StepResult) : StepResult :=
  match s.unit? with
  | some (.du d) => f d
  | some (.cu c) => .next (s.refuse (.cu c))
  | none => .fault .noSuchUnit

/-- What one decode answers: a value, or the end of the stream (R86, R136). -/
inductive Decoded where
  | value (v : U64)
  | eos
deriving DecidableEq, Repr

/-- Answer a compressor command with the number of bits it wrote, or take its fault (R100, R104, R203). -/
def State.finishBits (s : State) (c : CU) (r : Except TerminalFault (CU × Nat)) : StepResult :=
  match r with
  | .ok (c', n) => .next (s.answer (.cu c') .ok (.bits n))
  | .error f => .next (s.raise (.cu c) f)

/-- Answer a decode command with its value or END, or take its fault (R86, R136, R203). -/
def State.finishDecoded (s : State) (d : DU) (r : Except TerminalFault (Decoded × DU)) : StepResult :=
  match r with
  | .ok (.value v, d') => .next (s.answer (.du d') .ok (.value v))
  | .ok (.eos, d') => .next (s.answer (.du d') .eos .none)
  | .error f => .next (s.raise (.du d) f)

/-- Answer a bulk decode command with its values, or take its fault (R138, R176, R203). -/
def State.finishValues (s : State) (d : DU) (r : Except TerminalFault (List U64 × DU)) : StepResult :=
  match r with
  | .ok (vs, d') => .next (s.answer (.du d') .ok (.values vs))
  | .error f => .next (s.raise (.du d) f)

/-- Repeat a decode until END, collecting the values (R138, R176). The fuel bounds the number of decodes; the commands give
`4 * LEN + 1`, which R138 proves enough, so the first arm is never reached from them (log 16). -/
def decompLoop (decode : DU → Except TerminalFault (Decoded × DU)) : Nat → DU → Except TerminalFault (List U64 × DU)
  | 0, _ => .error .streamError
  | k + 1, d =>
      match decode d with
      | .error f => .error f
      | .ok (.eos, d') => .ok ([], d')
      | .ok (.value v, d') =>
          match decompLoop decode k d' with
          | .error f => .error f
          | .ok (vs, d'') => .ok (v :: vs, d'')

/-- The number of decodes a bulk command may make (R138). -/
def DU.decodeBound (d : DU) : Nat :=
  4 * d.len + 1

end Sys2Proof.Machine
end

