-- ==== Sys2Proof/Machine/Chimp.lean ====
section
/-! DEFINITION. The CHIMP codes (spec/42_chimp_compress.md R115 to R121, 45_chimp_decompress.md R150 to R155): which code a
value takes, which field values are reserved, and what each code does to the session registers of the unit that emits or
executes it (R137: the same in both). -/

namespace Sys2Proof.Machine

/-- Why a wire code is not one that a unit emits or executes in its present session. -/
inductive CodeReject where
  /-- A reserved encoding (R82); the decoder finds out after this many bits. -/
  | reserved (header : Nat)
  /-- The payload does not fit its field: no such bits exist (R89). -/
  | tooWide
  /-- Not an XOR wire code. -/
  | notACode
deriving DecidableEq, Repr

/-- The session after a code that stands for a value: `first` is false, `storedVal` the value (R100, R136). -/
def Session.took (x : Session) (v : U64) : Session :=
  { x with first := false, storedVal := v }

/-- The session after CHIMP.FIRST (R115, R150): the window is not written. -/
def chimpFirstNext (raw : U64) (x : Session) : Session :=
  x.took raw

/-- The session after CHIMP.SAME (R117, R152): the bucket is forgotten. -/
def chimpSameNext (x : Session) : Session :=
  { x.took x.storedVal with lead := none }

/-- The reserved field values of CHIMP.TRAIL (R82, R153), and the payload's range. -/
def chimpTrailCheck (lz : Bucket) (sig : BitVec 6) (payload : U64) : Option CodeReject :=
  if sig.toNat = 0 then some (.reserved 11)
  else if 64 < bucketCount lz + sig.toNat then some (.reserved 11)
  else if fits payload sig.toNat then none
  else some .tooWide

/-- The session after CHIMP.TRAIL (R118, R153): the bucket is forgotten. -/
def chimpTrailNext (lz : Bucket) (sig : BitVec 6) (payload : U64) (x : Session) : Session :=
  { x.took (x.storedVal ^^^ placed payload (trailOf (bucketCount lz) sig.toNat)) with lead := none }

/-- CHIMP.REUSE needs a remembered bucket (R82, R154), which gives the payload's width. -/
def chimpReuseCheck (payload : U64) (x : Session) : Option CodeReject :=
  match x.lead with
  | none => some (.reserved 2)
  | some b => if fits payload (belowLead (bucketCount b)) then none else some .tooWide

/-- The session after CHIMP.REUSE (R119, R154): the bucket stays. -/
def chimpReuseNext (payload : U64) (x : Session) : Session :=
  x.took (x.storedVal ^^^ payload)

/-- The payload's range in CHIMP.NEWLEAD (R67). -/
def chimpNewLeadCheck (lz : Bucket) (payload : U64) : Option CodeReject :=
  if fits payload (belowLead (bucketCount lz)) then none else some .tooWide

/-- The session after CHIMP.NEWLEAD (R120, R155): the bucket is the new one. -/
def chimpNewLeadNext (lz : Bucket) (payload : U64) (x : Session) : Session :=
  { x.took (x.storedVal ^^^ payload) with lead := some lz }

/-- The code CHIMP takes for a value (R115, R116): the conditions in the order of the rule, with the
unit's `LR` and `TZ_THRESHOLD`. -/
def chimpSelect (g : CUConfig) (x : Session) (v : U64) : Instr :=
  if x.first then .chimpFirst v
  else
    let xor := x.storedVal ^^^ v
    if xor = 0 then .chimpSame
    else
      let lz := leadRound g.leadRound (clz64 xor)
      let tz := ctz64 xor
      if g.tzThreshold < tz then
        .chimpTrail lz (BitVec.ofNat 6 (64 - bucketCount lz - tz)) (xor >>> tz)
      else if x.lead = some lz then .chimpReuse xor
      else .chimpNewLead lz xor

end Sys2Proof.Machine
end

