-- ==== Sys2Proof/Machine/Elf.lean ====
section
/-! DEFINITION. The ELF codes (spec/43_elf_compress.md R125 to R132, 46_elf_decompress.md R160 to R165): which code a value
takes, which field values are reserved, and what each code does to the session registers (R137: the same on both sides). -/

namespace Sys2Proof.Machine

/-- The reserved field values of ELF.FIRST (R82, R160), and the payload's range. -/
def elfFirstCheck (tz7 : BitVec 7) (payload : U64) : Option CodeReject :=
  if 64 < tz7.toNat then some (.reserved 7)
  else if fits payload (64 - tz7.toNat) then none
  else some .tooWide

/-- The session after ELF.FIRST (R125, R160): the window is not written. -/
def elfFirstNext (tz7 : BitVec 7) (payload : U64) (x : Session) : Session :=
  x.took (placed payload tz7.toNat)

/-- The session after ELF.SAME (R127, R162): the window stays. -/
def elfSameNext (x : Session) : Session :=
  x.took x.storedVal

/-- ELF.REUSE needs a remembered window (R82, R163), which gives the payload's width. -/
def elfReuseCheck (payload : U64) (x : Session) : Option CodeReject :=
  match x.lead, x.trail with
  | some b, some t => if fits payload (windowCentre b t) then none else some .tooWide
  | _, _ => some (.reserved 2)

/-- The session after ELF.REUSE (R128, R163): the window stays. -/
def elfReuseNext (payload : U64) (x : Session) : Session :=
  match x.trail with
  | some t => x.took (x.storedVal ^^^ placed payload t.val)
  | none => x

/-- The session after a code that opens a window (R129, R164, R165): both registers are the header's. -/
def elfWindowNext (lz : Bucket) (cb : Nat) (payload : U64) (x : Session) : Session :=
  { x.took (x.storedVal ^^^ placed payload (trailOf (bucketCount lz) cb)) with
    lead := some lz, trail := some (trailReg (bucketCount lz) cb) }

/-- The payload's range in ELF.NEWSHORT (R71); no field value is reserved (R164). -/
def elfNewShortCheck (cb4 : BitVec 4) (payload : U64) : Option CodeReject :=
  if fits payload (centreOf4 cb4) then none else some .tooWide

/-- The session after ELF.NEWSHORT (R130, R164). -/
def elfNewShortNext (lz : Bucket) (cb4 : BitVec 4) (payload : U64) (x : Session) : Session :=
  elfWindowNext lz (centreOf4 cb4) payload x

/-- The reserved field values of ELF.NEWLONG (R82, R165), and the payload's range. -/
def elfNewLongCheck (lz : Bucket) (cb6 : BitVec 6) (payload : U64) : Option CodeReject :=
  if 64 < bucketCount lz + centreOf6 cb6 then some (.reserved 11)
  else if fits payload (centreOf6 cb6) then none
  else some .tooWide

/-- The session after ELF.NEWLONG (R131, R165). -/
def elfNewLongNext (lz : Bucket) (cb6 : BitVec 6) (payload : U64) (x : Session) : Session :=
  elfWindowNext lz (centreOf6 cb6) payload x

/-- The remembered window takes a xor with this rounded leading count and this trailing count (R126): both comparisons are
false when a register holds NONE (R11). -/
def windowTakes (x : Session) (lz : Bucket) (tz : Nat) : Bool :=
  match x.lead, x.trail with
  | some b, some t => decide (lz = b) && decide (t.val ≤ tz)
  | _, _ => false

/-- The code ELF takes for a value (R125, R126, R129 to R131), with the unit's `LR`. -/
def elfSelect (g : CUConfig) (x : Session) (v : U64) : Instr :=
  if x.first then .elfFirst (BitVec.ofNat 7 (ctz64 v)) (v >>> ctz64 v)
  else
    let xor := x.storedVal ^^^ v
    if xor = 0 then .elfSame
    else
      let lz := leadRound g.leadRound (clz64 xor)
      let tz := ctz64 xor
      if windowTakes x lz tz then .elfReuse (xor >>> (x.trail.elim 0 Fin.val))
      else
        let cb := 64 - bucketCount lz - tz
        if cb ≤ 16 then .elfNewShort lz (BitVec.ofNat 4 cb) (xor >>> tz)
        else .elfNewLong lz (BitVec.ofNat 6 cb) (xor >>> tz)

end Sys2Proof.Machine
end

