-- ==== Sys2Proof/Machine/Codes.lean ====
section
/-! DEFINITION. The XOR wire codes as instructions (spec/30_encoding.md R63 to R72, R80 to R84): a compressor unit emits a
code, a decompressor unit executes it, and both keep the same session registers (44_decompressor_contract.md R137). The
shared parts of ADDVALUE and CLOSE (41_compressor_contract.md R100) and of the decode commands (R136) stand here too. -/

namespace Sys2Proof.Machine

/-- Why an instruction is no XOR code that a unit with these session registers emits or executes; none if it is one. -/
def codeCheck (i : Instr) (x : Session) : Option CodeReject :=
  match i with
  | .chimpFirst _ => none
  | .chimpSame => none
  | .chimpTrail lz sig payload => chimpTrailCheck lz sig payload
  | .chimpReuse payload => chimpReuseCheck payload x
  | .chimpNewLead lz payload => chimpNewLeadCheck lz payload
  | .elfFirst tz7 payload => elfFirstCheck tz7 payload
  | .elfSame => none
  | .elfReuse payload => elfReuseCheck payload x
  | .elfNewShort _ cb4 payload => elfNewShortCheck cb4 payload
  | .elfNewLong lz cb6 payload => elfNewLongCheck lz cb6 payload
  | .orchRaw | .orchDec _ => some .notACode
  | .addValue _ | .close | .refreshCU | .putBitsCommand _ _ | .getBuf => some .notACode
  | .setBytes _ | .readValue | .nextValue | .decompX | .decompE | .refreshDU => some .notACode
  | .putBits _ _ | .getBits _ | .flush => some .notACode

/-- The session registers after an XOR code (R137); unchanged by any other instruction. -/
def codeNext (i : Instr) (x : Session) : Session :=
  match i with
  | .chimpFirst raw => chimpFirstNext raw x
  | .chimpSame => chimpSameNext x
  | .chimpTrail lz sig payload => chimpTrailNext lz sig payload x
  | .chimpReuse payload => chimpReuseNext payload x
  | .chimpNewLead lz payload => chimpNewLeadNext lz payload x
  | .elfFirst tz7 payload => elfFirstNext tz7 payload x
  | .elfSame => elfSameNext x
  | .elfReuse payload => elfReuseNext payload x
  | .elfNewShort lz cb4 payload => elfNewShortNext lz cb4 payload x
  | .elfNewLong lz cb6 payload => elfNewLongNext lz cb6 payload x
  | .orchRaw | .orchDec _ => x
  | .addValue _ | .close | .refreshCU | .putBitsCommand _ _ | .getBuf => x
  | .setBytes _ | .readValue | .nextValue | .decompX | .decompE | .refreshDU => x
  | .putBits _ _ | .getBits _ | .flush => x

/-- The code a compressor with these parameters chooses for a value (R81): one, by its variant (R116, R126). -/
def selectCode (g : CUConfig) (x : Session) (v : U64) : Instr :=
  match g.variant with
  | .chimp => chimpSelect g x v
  | .elf => elfSelect g x v

/-- The code a compressor unit chooses for a value now (R81). -/
def CU.chosen (c : CU) (v : U64) : Instr :=
  selectCode c.cfg c.session v

/-- The bits of a code on a compressor unit: under its `LC`, in its remembered window (R63 to R72). -/
def CU.bitsOf (c : CU) (i : Instr) : List Bool :=
  codeBits c.cfg.leadCode c.session.lead c.session.trail i

/-- The length in bits of a code on a compressor unit (R80, R104). -/
def CU.lengthOf (c : CU) (i : Instr) : Nat :=
  codeLength c.cfg.leadCode c.session.lead c.session.trail i

/-- The length in bits of a code on a decompressor unit (R80). -/
def DU.lengthOf (d : DU) (i : Instr) : Nat :=
  codeLength d.cfg.leadCode d.session.lead d.session.trail i

/-- Emit a code: its fields in order, then the session registers (R100, R115 to R131). Answers the bits written (R104). -/
def CU.emit (c : CU) (i : Instr) : Except TerminalFault (CU × Nat) :=
  match c.putFields (codeFields c.cfg.leadCode c.session.lead c.session.trail i) with
  | .error f => .error f
  | .ok c' => .ok ({ c' with session := codeNext i c.session }, c'.wpos - c.wpos)

/-- `Append(v)` (R100): emit the code chosen for a value; `storedVal` is that value on every path. -/
def CU.append (c : CU) (v : U64) : Except TerminalFault (CU × Nat) :=
  match c.emit (c.chosen v) with
  | .error f => .error f
  | .ok (c', n) => .ok ({ c' with session := { c'.session with storedVal := v } }, n)

/-- Execute a code of the given length (R136): the cursor moves past it, the session registers take its effect, and the
value is tested for END_SIGN. A code that does not stand whole in the source raises STREAM_ERROR (R91). -/
def DU.execute (d : DU) (i : Instr) : Except TerminalFault (Decoded × DU) :=
  let n := d.lengthOf i
  if 8 * d.len < d.rpos + n then .error .streamError
  else
    let x := codeNext i d.session
    let d' := { d.advance n with session := x }
    if x.storedVal = d.cfg.endSign then .ok (.eos, { d' with ended := true }) else .ok (.value x.storedVal, d')

/-- The terminal fault that a decode error is on a decompressor unit (R196, R199). -/
def decodeFault : DecodeError → TerminalFault
  | .streamEnds => .streamError
  | .chimpReuseNoWindow | .chimpTrailNoPayload | .chimpTrailTooWide => .malformedCode
  | .elfFirstTooMany | .elfReuseNoWindow | .elfNewLongTooWide => .malformedCode
  | .reservedCommand => .malformedCode

/-- The code at the read cursor of a decompressor unit (R80, R151, R161). -/
def DU.fetchCode (d : DU) : Except DecodeError Instr :=
  match decodeCode d.cfg.leadCode d.cfg.variant d.session.first d.session.lead d.session.trail d.stream with
  | .error e => .error e
  | .ok (i, _) => .ok i

/-- `XorDecode()` (R136): execute the code at the read cursor. -/
def DU.xorDecode (d : DU) : Except TerminalFault (Decoded × DU) :=
  match d.fetchCode with
  | .error e => .error (decodeFault e)
  | .ok i => d.execute i

/-- Run an XOR code as an instruction on the addressed unit: a compressor unit in phase OPEN emits it, a decompressor unit
with a stream to decode executes it. The unit must be of the code's variant and at the code's place in the block (R80). -/
def runCode (i : Instr) (s : State) : StepResult :=
  match s.unit? with
  | none => .fault .noSuchUnit
  | some (.cu c) =>
      if c.phase = .opened ∧ i.codePlace = some (c.cfg.variant, c.session.first) then
        match codeCheck i c.session with
        | some (.reserved _) => .refused .reservedCode
        | some .tooWide => .refused .operandTooWide
        | some .notACode => .refused .outOfPlace
        | none => s.finishBits c (c.emit i)
      else .refused .outOfPlace
  | some (.du d) =>
      if d.ready = true ∧ i.codePlace = some (d.cfg.variant, d.session.first) then
        match codeCheck i d.session with
        | some (.reserved n) =>
            if 8 * d.len < d.rpos + n then .next (s.raise (.du d) .streamError)
            else .next (s.raise (.du d) .malformedCode)
        | some .tooWide => .refused .operandTooWide
        | some .notACode => .refused .outOfPlace
        | none => s.finishDecoded d (d.execute i)
      else .refused .outOfPlace

/-! ### One meaning for each code -/

/-- CHIMP.FIRST: emitted R115, executed R150. -/
def execChimpFirst (raw : U64) (s : State) : StepResult :=
  runCode (.chimpFirst raw) s

/-- CHIMP.SAME: emitted R117, executed R152. -/
def execChimpSame (s : State) : StepResult :=
  runCode .chimpSame s

/-- CHIMP.TRAIL: emitted R118, executed R153. -/
def execChimpTrail (lz : Bucket) (sig : BitVec 6) (payload : U64) (s : State) : StepResult :=
  runCode (.chimpTrail lz sig payload) s

/-- CHIMP.REUSE: emitted R119, executed R154. -/
def execChimpReuse (payload : U64) (s : State) : StepResult :=
  runCode (.chimpReuse payload) s

/-- CHIMP.NEWLEAD: emitted R120, executed R155. -/
def execChimpNewLead (lz : Bucket) (payload : U64) (s : State) : StepResult :=
  runCode (.chimpNewLead lz payload) s

/-- ELF.FIRST: emitted R125, executed R160. -/
def execElfFirst (tz7 : BitVec 7) (payload : U64) (s : State) : StepResult :=
  runCode (.elfFirst tz7 payload) s

/-- ELF.SAME: emitted R127, executed R162. -/
def execElfSame (s : State) : StepResult :=
  runCode .elfSame s

/-- ELF.REUSE: emitted R128, executed R163. -/
def execElfReuse (payload : U64) (s : State) : StepResult :=
  runCode (.elfReuse payload) s

/-- ELF.NEWSHORT: emitted R130, executed R164. -/
def execElfNewShort (lz : Bucket) (cb4 : BitVec 4) (payload : U64) (s : State) : StepResult :=
  runCode (.elfNewShort lz cb4 payload) s

/-- ELF.NEWLONG: emitted R131, executed R165. -/
def execElfNewLong (lz : Bucket) (cb6 : BitVec 6) (payload : U64) (s : State) : StepResult :=
  runCode (.elfNewLong lz cb6 payload) s

end Sys2Proof.Machine
end

