-- ==== Sys2Proof/Machine/Compressor.lean ====
section
/-! DEFINITION. The commands of a compressor unit (spec/41_compressor_contract.md R100 to R105). -/

namespace Sys2Proof.Machine

/-- ADDVALUE v (R100). -/
def execAddValue (v : U64) (s : State) : StepResult :=
  s.onCU fun c => if c.phase = .opened then s.finishBits c (c.append v) else .next (s.refuse (.cu c))

/-- The effect of CLOSE on an open unit (R101): the sentinel, the guard bits, the pad, phase CLOSED. The count leaves the
pad out (R104). -/
def CU.closeBlock (c : CU) : Except TerminalFault (CU × Nat) :=
  match c.append c.cfg.endSign with
  | .error f => .error f
  | .ok (c1, n) =>
      match c1.putBits 0 (c.cfg.guardBits) with
      | .error f => .error f
      | .ok c2 => .ok ({ c2.flush with phase := .closed }, n + c.cfg.guardBits)

/-- CLOSE (R101). -/
def execClose (s : State) : StepResult :=
  s.onCU fun c => if c.phase = .opened then s.finishBits c c.closeBlock else .next (s.refuse (.cu c))

/-- REFRESH of a compressor unit (R102), accepted in every phase. -/
def execRefreshCU (s : State) : StepResult :=
  s.onCU fun c => .next (s.answer (.cu c.refresh) .ok .none)

/-- PUTBITS on a compressor unit (R103): the phase check, then the operand check (R202), then the bits. -/
def State.putBitsOn (s : State) (c : CU) (v n : Nat) : StepResult :=
  if c.phase = .opened then
    if n ≤ 64 ∧ v < 2 ^ n then
      match c.putBits v n with
      | .ok c' => .next (s.answer (.cu c') .ok .none)
      | .error f => .next (s.raise (.cu c) f)
    else .next (s.refuse (.cu c))
  else .next (s.refuse (.cu c))

/-- PUTBITS v, n (R103). -/
def execPutBitsCommand (v : U64) (n : BitVec 7) (s : State) : StepResult :=
  s.onCU fun c => s.putBitsOn c v.toNat n.toNat

/-- GETBUF (R105). -/
def execGetBuf (s : State) : StepResult :=
  s.onCU fun c =>
    if c.phase = .closed then
      match c.memRead 0 (c.wpos / 8) with
      | some bs => .next (s.answer (.cu c) .ok (.bytes bs))
      | none => .fault .outsideBuffer
    else .next (s.refuse (.cu c))

end Sys2Proof.Machine
end

