-- ==== Sys2Proof/Machine/Decimal.lean ====
section
/-! DEFINITION. The decimal functions of the reconstruction pipeline (spec/48_decimal_numerics.md R185 to R191): binary64
patterns as exact rationals, rounding to the nearest double, GetSP, P10 and RoundDec; then the pipeline itself
(47_elf_orchestrator.md R172 to R174, R178, R179). Exact arithmetic on naturals throughout. -/

namespace Sys2Proof.Machine

/-- A non-negative rational as a pair of naturals, the denominator not 0 where the functions below make one. -/
structure Ratio where
  num : Nat
  den : Nat
deriving DecidableEq, Repr

/-- `a <= b`, exactly. -/
def Ratio.le (a b : Ratio) : Bool :=
  a.num * b.den ≤ b.num * a.den

/-- `a < b`, exactly. -/
def Ratio.lt (a b : Ratio) : Bool :=
  a.num * b.den < b.num * a.den

/-- The exact product. -/
def Ratio.mul (a b : Ratio) : Ratio :=
  ⟨a.num * b.num, a.den * b.den⟩

/-- The exact quotient. -/
def Ratio.div (a b : Ratio) : Ratio :=
  ⟨a.num * b.den, a.den * b.num⟩

/-- `base ^ e` for an integer exponent. -/
def Ratio.pow (base : Nat) (e : Int) : Ratio :=
  match e with
  | .ofNat n => ⟨base ^ n, 1⟩
  | .negSucc n => ⟨1, base ^ (n + 1)⟩

/-- The least integer not below a rational. -/
def Ratio.ceil (a : Ratio) : Nat :=
  (a.num + a.den - 1) / a.den

/-- The integer nearest to a rational, ties to even. -/
def Ratio.roundEven (a : Ratio) : Nat :=
  let q := a.num / a.den
  let r := a.num % a.den
  if a.den < 2 * r then q + 1
  else if 2 * r = a.den then (if q % 2 = 1 then q + 1 else q)
  else q

/-! ### binary64 patterns (R13) -/

/-- The sign bit. -/
def signBit (p : U64) : Bool :=
  p.getLsbD 63

/-- The biased exponent, bits 62:52. -/
def expField (p : U64) : Nat :=
  (p.toNat / 2 ^ 52) % 2 ^ 11

/-- The fraction, bits 51:0. -/
def fracField (p : U64) : Nat :=
  p.toNat % 2 ^ 52

/-- A finite number other than zero of either sign: the proxies that the reconstruction takes (R179). -/
def regular (p : U64) : Bool :=
  decide (expField p ≠ 2047) && decide (p.toNat % 2 ^ 63 ≠ 0)

/-- The significand as an integer: the implicit bit is there unless the exponent field is 0. -/
def significand (p : U64) : Nat :=
  if expField p = 0 then fracField p else 2 ^ 52 + fracField p

/-- The exact magnitude of a finite pattern: significand times 2 to the biased exponent (1 for a subnormal) less 1075. -/
def magnitude (p : U64) : Ratio :=
  let e := max 1 (expField p)
  if 1075 ≤ e then ⟨significand p * 2 ^ (e - 1075), 1⟩ else ⟨significand p, 2 ^ (1075 - e)⟩

/-- The pattern of positive infinity. -/
def infinity : U64 :=
  0x7FF0000000000000#64

/-- The pattern of a magnitude with a sign. -/
def withSign (neg : Bool) (p : U64) : U64 :=
  if neg then p ||| 0x8000000000000000#64 else p

/-- The negative of a pattern, its sign bit flipped, or the pattern itself (R189, property 2). -/
def negateIf (neg : Bool) (p : U64) : U64 :=
  if neg then p ^^^ 0x8000000000000000#64 else p

/-- The pattern without its sign. -/
def absPattern (p : U64) : U64 :=
  p &&& 0x7FFFFFFFFFFFFFFF#64

/-- The integer k with `2^k <= a < 2^(k+1)`, for a > 0. -/
def floorLog2 (a : Ratio) : Int :=
  let k : Int := (Nat.log2 a.num : Int) - (Nat.log2 a.den : Int)
  if a.lt (.pow 2 k) then k - 1 else k

/-- `fl` of a non-negative rational (R190): the nearest double, ties to even, subnormals included; infinity from the point
where rounding leaves the finite range. -/
def nearestDouble (a : Ratio) : U64 :=
  if a.num = 0 then 0
  else
    let e : Int := max (floorLog2 a - 52) (-1074)
    let q := (a.div (.pow 2 e)).roundEven
    let pattern := (e + 1074).toNat * 2 ^ 52 + q
    if infinity.toNat ≤ pattern then infinity else BitVec.ofNat 64 pattern

/-! ### GetSP, P10, RoundDec -/

/-- `while a >= 10^(s+1): s = s + 1` (R185), at most k rounds. -/
def raiseExponent (a : Ratio) : Nat → Int → Int
  | 0, s => s
  | k + 1, s => if (Ratio.pow 10 (s + 1)).le a then raiseExponent a k (s + 1) else s

/-- `while a < 10^s: s = s - 1` (R185), at most k rounds. -/
def lowerExponent (a : Ratio) : Nat → Int → Int
  | 0, s => s
  | k + 1, s => if a.lt (Ratio.pow 10 s) then lowerExponent a k (s - 1) else s

/-- The executable definition of `GetSP` (R185) on the exact value of a double. The result of a double is in -324 .. 308, so
400 rounds of each loop are enough (log 16). -/
def decimalExponent (a : Ratio) : Int :=
  lowerExponent a 400 (raiseExponent a 400 0)

/-- `GetSP(a)`, the unit's configuration function (R6, R185): the decimal exponent of a positive finite double; a pattern that is
none is no operand of it, and a free value (log 9). -/
def getSP (c : GetSPChoice) (a : U64) : Int :=
  if regular a && !signBit a then decimalExponent (magnitude a) else Config.getSPOutside c a

/-- The exponents for which P10 is a finite nonzero double (R179, R186). -/
def inP10Range (n : Int) : Bool :=
  decide (-323 ≤ n) && decide (n ≤ 308)

/-- `P10(n)`, the unit's configuration function (R6, R186): the double nearest to 10^n; outside the range R186 leaves it
undefined, a free value (log 9). -/
def p10 (c : P10Choice) (n : Int) : U64 :=
  if inP10Range n then nearestDouble (.pow 10 n) else Config.p10Outside c n

/-- RoundDec, the reference definition (R188): away from zero, in binary64 arithmetic, with the unit's `P10`. -/
def roundDecReference (c : P10Choice) (x : U64) (alpha : Int) : U64 :=
  if 0 ≤ alpha then
    let scale := magnitude (p10 c alpha)
    let t := nearestDouble ((magnitude x).mul scale)
    if t = infinity then x
    else withSign (signBit x) (nearestDouble (Ratio.div ⟨(magnitude t).ceil, 1⟩ scale))
  else
    let scale := magnitude (p10 c (-alpha))
    let t := nearestDouble ((magnitude x).div scale)
    withSign (signBit x) (nearestDouble (Ratio.mul ⟨(magnitude t).ceil, 1⟩ scale))

/-- A grid value that scales back exactly (R189, property 3), of a pattern without its sign: `fl(x * P10(alpha))` is an
integer m below 2^53, and x is `fl(m / P10(alpha))`. -/
def onGrid (c : P10Choice) (x : U64) (alpha : Int) : Bool :=
  let scale := magnitude (p10 c alpha)
  let t := magnitude (nearestDouble ((magnitude x).mul scale))
  let m := t.num / t.den
  t.num % t.den == 0 && decide (m < 2 ^ 53) && decide (nearestDouble (Ratio.div ⟨m, 1⟩ scale) = x)

/-- A decimal rounding function that R189 admits and that is not the reference: of a negative operand it gives the negative of
what it gives of the positive one (property 2); a grid value is kept (property 3), the source's example has its value
(property 4), and the result for any other magnitude is free (log 8). -/
def roundDecOther (c : P10Choice) (k : Nat) (x : U64) (alpha : Int) : U64 :=
  let a := absPattern x
  negateIf (signBit x)
    (if onGrid c a alpha then a
     else if a = 0x4037733000000000#64 ∧ alpha = 2 then 0x4037733333333333#64
     else Config.otherRoundDec k a alpha)

/-- `RoundDec(x, alpha)`, the unit's configuration function (R187, U9, log 8). -/
def roundDec (g : DUConfig) (x : U64) (alpha : Int) : U64 :=
  match g.roundDec with
  | .reference => roundDecReference g.p10 x alpha
  | .other k => roundDecOther g.p10 k x alpha

/-! ### The pipeline (R178): a pure function of betaStar and the proxy, under the unit's parameters -/

/-- betaStar 0: the value is a power of ten with the proxy's sign (R173); none is RECON_DOMAIN (R179). -/
def reconPowerOfTen (g : DUConfig) (vPrime : U64) (sp : Int) : Option U64 :=
  if inP10Range (-sp - 1) then some (withSign (signBit vPrime) (p10 g.p10 (-sp - 1))) else none

/-- betaStar 1 to 15: the value is the proxy rounded to alpha decimal places (R174); none is RECON_DOMAIN (R179). -/
def reconRound (g : DUConfig) (vPrime : U64) (sp : Int) (betaStar : BitVec 4) : Option U64 :=
  let alpha : Int := (betaStar.toNat : Int) - sp - 1
  if inP10Range alpha then some (roundDec g vPrime alpha) else none

/-- The decimal-proxy reconstruction (R172, R178) with the unit's numeric functions; none is RECON_DOMAIN (R179, R200). -/
def reconstruct (g : DUConfig) (betaStar : BitVec 4) (vPrime : U64) : Option U64 :=
  if regular vPrime then
    let sp := getSP g.getSP (absPattern vPrime)
    if betaStar = 0 then reconPowerOfTen g vPrime sp else reconRound g vPrime sp betaStar
  else none

end Sys2Proof.Machine
end

