-- ==== Sys2Proof/Machine/Decompressor.lean ====
section
/-! DEFINITION. The commands of a decompressor unit at the XOR level (spec/44_decompressor_contract.md R135 to R139). -/

namespace Sys2Proof.Machine

/-- The effect of SETBYTES (R135): the source is copied and bound, the cursor goes to its start. -/
def DU.bind (d : DU) (b : List Byte) : DU :=
  { d with src := b, rpos := 0, bound := true }

/-- SETBYTES b (R135): refused only in the faulted state. -/
def execSetBytes (b : List Byte) (s : State) : StepResult :=
  s.onDU fun d => if d.faulted then .next (s.refuse (.du d)) else .next (s.answer (.du (d.bind b)) .ok .none)

/-- READVALUE (R136). -/
def execReadValue (s : State) : StepResult :=
  s.onDU fun d => if d.ready then s.finishDecoded d d.xorDecode else .next (s.refuse (.du d))

/-- DECOMPX (R138). -/
def execDecompX (s : State) : StepResult :=
  s.onDU fun d =>
    if d.ready then s.finishValues d (decompLoop DU.xorDecode d.decodeBound d) else .next (s.refuse (.du d))

/-- REFRESH of a decompressor unit (R139), accepted in every state. -/
def execRefreshDU (s : State) : StepResult :=
  s.onDU fun d => .next (s.answer (.du d.refresh) .ok .none)

end Sys2Proof.Machine
end

