-- ==== Sys2Proof/Machine/Orchestrator.lean ====
section
/-! DEFINITION. The orchestrator layer of a decompressor unit (spec/47_elf_orchestrator.md R170 to R177): NEXTVALUE, DECOMPE
and the two mode marks ORCH.RAW and ORCH.DEC, which a host writes with PUTBITS (30_encoding.md R73, R74, R88). -/

namespace Sys2Proof.Machine

/-- `DecodeRawMode()` after the flag (R171): the XOR layer's answer as it is. -/
def DU.rawMode (d : DU) : Except TerminalFault (Decoded × DU) :=
  d.xorDecode

/-- `DecodeDecimalMode()` after flag and betaStar (R172): the sentinel ends the stream whatever the mode (R175), any other
pattern is a proxy and is reconstructed, or raises RECON_DOMAIN (R179). `storedVal` keeps the proxy (R23). -/
def DU.decimalMode (d : DU) (betaStar : BitVec 4) : Except TerminalFault (Decoded × DU) :=
  match d.xorDecode with
  | .error f => .error f
  | .ok (.eos, d') => .ok (.eos, d')
  | .ok (.value p, d') =>
      match reconstruct d.cfg betaStar p with
      | some v => .ok (.value v, d')
      | none => .error .reconDomain

/-- The meaning of a mode mark that stands at the read cursor: past the mark, then the mode (R170). A mark that does not
stand whole in the source raises STREAM_ERROR (R91, R196). -/
def DU.runMode (d : DU) (i : Instr) : Except TerminalFault (Decoded × DU) :=
  let n := d.lengthOf i
  if 8 * d.len < d.rpos + n then .error .streamError
  else
    match i with
    | .orchDec betaStar => (d.advance n).decimalMode betaStar
    | _ => (d.advance n).rawMode

/-- `OrchDecode()` (R170): execute the mode mark at the read cursor and the XOR code after it. -/
def DU.orchDecode (d : DU) : Except TerminalFault (Decoded × DU) :=
  match decodeMode d.stream with
  | .error e => .error (decodeFault e)
  | .ok (i, _) => d.runMode i

/-- Run a mode mark as an instruction: a compressor unit writes it as PUTBITS does (R88, R103), a decompressor unit with a
stream to decode executes it and the XOR code after it (R170). -/
def runMark (i : Instr) (v n : Nat) (s : State) : StepResult :=
  match s.unit? with
  | none => .fault .noSuchUnit
  | some (.cu c) => s.putBitsOn c v n
  | some (.du d) => if d.ready then s.finishDecoded d (d.runMode i) else .refused .outOfPlace

/-- ORCH.RAW: written as PUTBITS 0, 1 (R73, R88), executed R171. -/
def execOrchRaw (s : State) : StepResult :=
  runMark .orchRaw 0 1 s

/-- ORCH.DEC: written as PUTBITS 16 + betaStar, 5 (R74, R88), executed R172. -/
def execOrchDec (betaStar : BitVec 4) (s : State) : StepResult :=
  runMark (.orchDec betaStar) (16 + betaStar.toNat) 5 s

/-- NEXTVALUE (R170). -/
def execNextValue (s : State) : StepResult :=
  s.onDU fun d => if d.ready then s.finishDecoded d d.orchDecode else .next (s.refuse (.du d))

/-- DECOMPE (R176). -/
def execDecompE (s : State) : StepResult :=
  s.onDU fun d =>
    if d.ready then s.finishValues d (decompLoop DU.orchDecode d.decodeBound d) else .next (s.refuse (.du d))

end Sys2Proof.Machine
end

