-- ==== Sys2Proof/Machine/Primitives.lean ====
section
/-! DEFINITION. The BitStream primitives as instructions of their own (spec/40_bitstream.md R90 to R93). No command of the
host names one: the commands call the operations of Machine/Ops.lean. Run here, each acts on the addressed unit and answers
with what it returns (log 11). -/

namespace Sys2Proof.Machine

/-- PutBits(v, n) (R90). A call with `v >= 2^n` or n above 64 has no meaning and is refused; so is one on a unit that is
appending nothing. -/
def execPutBits (v : U64) (n : BitVec 7) (s : State) : StepResult :=
  match s.unit? with
  | none => .fault .noSuchUnit
  | some (.du _) => .refused .outOfPlace
  | some (.cu c) =>
      if c.phase = .opened then
        if n.toNat ≤ 64 ∧ v.toNat < 2 ^ n.toNat then
          match c.putBits v.toNat n.toNat with
          | .ok c' => .next (s.answer (.cu c') .ok .none)
          | .error f => .next (s.raise (.cu c) f)
        else .refused .operandTooWide
      else .refused .outOfPlace

/-- GetBits(n) (R91). A decompressor unit with nothing bound never reaches it. -/
def execGetBits (n : BitVec 7) (s : State) : StepResult :=
  match s.unit? with
  | none => .fault .noSuchUnit
  | some (.cu _) => .refused .outOfPlace
  | some (.du d) =>
      if d.ready then
        if n.toNat ≤ 64 then
          match d.getBits n.toNat with
          | .ok (r, d') => .next (s.answer (.du d') .ok (.value (BitVec.ofNat 64 r)))
          | .error f => .next (s.raise (.du d) f)
        else .refused .operandTooWide
      else .refused .outOfPlace

/-- Flush() (R92): answers the number of pad bits. -/
def execFlush (s : State) : StepResult :=
  match s.unit? with
  | none => .fault .noSuchUnit
  | some (.du _) => .refused .outOfPlace
  | some (.cu c) =>
      if c.phase = .opened then .next (s.answer (.cu c.flush) .ok (.bits (padBits c.wpos)))
      else .refused .outOfPlace

end Sys2Proof.Machine
end

