-- ==== Sys2Proof/Machine/Dispatch.lean ====
section
/-! DEFINITION. The meaning of every instruction: one arm for each row of spec/opcode_table.json, one call of its meaning. -/

namespace Sys2Proof.Machine

def exec (i : Instr) (s : State) : Host.Outcome State Fault Refusal :=
  match i with
  -- wire codes, CHIMP
  | .chimpFirst raw => Sys2Proof.Machine.execChimpFirst raw s
  | .chimpSame => Sys2Proof.Machine.execChimpSame s
  | .chimpTrail lz sig payload => Sys2Proof.Machine.execChimpTrail lz sig payload s
  | .chimpReuse payload => Sys2Proof.Machine.execChimpReuse payload s
  | .chimpNewLead lz payload => Sys2Proof.Machine.execChimpNewLead lz payload s
  -- wire codes, ELF
  | .elfFirst tz payload => Sys2Proof.Machine.execElfFirst tz payload s
  | .elfSame => Sys2Proof.Machine.execElfSame s
  | .elfReuse payload => Sys2Proof.Machine.execElfReuse payload s
  | .elfNewShort lz cb payload => Sys2Proof.Machine.execElfNewShort lz cb payload s
  | .elfNewLong lz cb payload => Sys2Proof.Machine.execElfNewLong lz cb payload s
  -- mode marks
  | .orchRaw => Sys2Proof.Machine.execOrchRaw s
  | .orchDec betaStar => Sys2Proof.Machine.execOrchDec betaStar s
  -- commands of a compressor unit
  | .addValue v => Sys2Proof.Machine.execAddValue v s
  | .close => Sys2Proof.Machine.execClose s
  | .refreshCU => Sys2Proof.Machine.execRefreshCU s
  | .putBitsCommand v n => Sys2Proof.Machine.execPutBitsCommand v n s
  | .getBuf => Sys2Proof.Machine.execGetBuf s
  -- commands of a decompressor unit
  | .setBytes b => Sys2Proof.Machine.execSetBytes b s
  | .readValue => Sys2Proof.Machine.execReadValue s
  | .nextValue => Sys2Proof.Machine.execNextValue s
  | .decompX => Sys2Proof.Machine.execDecompX s
  | .decompE => Sys2Proof.Machine.execDecompE s
  | .refreshDU => Sys2Proof.Machine.execRefreshDU s
  -- primitives
  | .putBits v n => Sys2Proof.Machine.execPutBits v n s
  | .getBits n => Sys2Proof.Machine.execGetBits n s
  | .flush => Sys2Proof.Machine.execFlush s

end Sys2Proof.Machine
end

