-- ==== Sys2Proof/Machine/Fetch.lean ====
section
/-! DEFINITION. How the engine takes what the host has issued (spec/20_memory.md R48, 30_encoding.md R85, 60_exceptions.md
R202, 70_reset_and_hazards.md R220): the parts of one step. -/

namespace Sys2Proof.Machine

/-- Put a command on the port of its unit: it leaves the queue. -/
def State.take (s : State) (unit : Nat) (rest : List HostEvent) : State :=
  { s with pending := rest, sel := unit }

/-- Run a command that stands on the port of the addressed unit. A code that R85 does not list for that unit is refused
before anything else is looked at (R202). -/
def State.runCommand (s : State) (c : Command) : StepResult :=
  match s.unit? with
  | none => .fault .noSuchUnit
  | some u =>
      match decodeCommand u.kind c with
      | .ok i => exec i s
      | .error _ => .next (s.refuse u)

/-- Reset the addressed unit (R220, R221). A reset is no command and has no response (log 21). -/
def State.runReset (s : State) : StepResult :=
  match s.unit? with
  | none => .fault .noSuchUnit
  | some u => .next { s with units := s.units.set s.sel u.hardReset }

/-- The first unit of a kind, where the table's rows are sent (log 4); the end of the list where there is none. -/
def State.firstUnit (s : State) (k : UnitKind) : Nat :=
  s.units.findIdx fun u => u.kind == k

end Sys2Proof.Machine
end

