-- ==== Sys2Proof/Machine/Step.lean ====
section
/-! DEFINITION. One step of the engine: the complete execution of the next thing the host has issued (spec/00_scope.md R8). -/

namespace Sys2Proof.Machine

/-- One step. With nothing issued the engine waits and nothing changes (log 3). -/
def step (s : State) : Host.Outcome State Fault Refusal :=
  match s.pending with
  | [] => .next s
  | .command c :: rest => (s.take c.unit rest).runCommand c
  | .reset unit :: rest => (s.take unit rest).runReset

/-- A row of the opcode table issued as the next command, to the first unit of the kind it is listed for (log 3, log 4). -/
def State.withFetchWord (s : State) (nbits w : Nat) : State :=
  if nbits < 4 then s
  else { s with pending := .command (tableCommand (s.firstUnit (commandKind (BitVec.ofNat 4 w))) w) :: s.pending }

end Sys2Proof.Machine
end

