-- ==== Sys2Proof/Laws/Bits.lean ====
section
/-! SUPPORT. Fields and bits: writing a field and reading it back (spec/20_memory.md R42, 40_bitstream.md R90 to R94), and
the counts and tables of the codes (00_scope.md R10, 30_encoding.md R61, R62, R89). -/

namespace Sys2Proof

open Sys2Proof.Machine

/-! ### Fields -/

@[simp] theorem natBits_length : ∀ (n v : Nat), (natBits n v).length = n
  | 0, _ => rfl
  | n + 1, v => by simp [natBits, natBits_length n v]

theorem natBits_getElem? : ∀ (n v i : Nat), i < n → (natBits n v)[i]? = some (v.testBit (n - 1 - i))
  | 0, _, _, h => by omega
  | n + 1, v, 0, _ => by simp [natBits]
  | n + 1, v, i + 1, h => by
      simp only [natBits, List.getElem?_cons_succ]
      rw [natBits_getElem? n v i (by omega)]
      congr 2; omega

theorem bitsToNat_foldl : ∀ (bs : List Bool) (r : Nat),
    bs.foldl (fun r b => 2 * r + b.toNat) r = r * 2 ^ bs.length + bitsToNat bs
  | [], r => by simp [bitsToNat]
  | b :: bs, r => by
      have h1 := bitsToNat_foldl bs (2 * r + b.toNat)
      have h2 := bitsToNat_foldl bs (2 * 0 + b.toNat)
      simp only [List.foldl_cons, bitsToNat, List.length_cons] at *
      rw [h1, h2]
      ring

theorem bitsToNat_cons (b : Bool) (bs : List Bool) :
    bitsToNat (b :: bs) = b.toNat * 2 ^ bs.length + bitsToNat bs := by
  have := bitsToNat_foldl bs (2 * 0 + b.toNat)
  simpa [bitsToNat] using this

@[simp] theorem bitsToNat_nil : bitsToNat [] = 0 := rfl

theorem bitsToNat_append (xs ys : List Bool) :
    bitsToNat (xs ++ ys) = bitsToNat xs * 2 ^ ys.length + bitsToNat ys := by
  induction xs with
  | nil => simp
  | cons b xs ih => simp only [List.cons_append, bitsToNat_cons, ih, List.length_append]; ring

theorem bitsToNat_lt (bs : List Bool) : bitsToNat bs < 2 ^ bs.length := by
  induction bs with
  | nil => simp
  | cons b bs ih =>
      rw [bitsToNat_cons, List.length_cons, pow_succ]
      cases b <;> simp <;> omega

/-- Reading back the bits of a field. -/
theorem bitsToNat_natBits : ∀ (n v : Nat), bitsToNat (natBits n v) = v % 2 ^ n
  | 0, v => by simp [natBits, Nat.mod_one]
  | n + 1, v => by
      rw [natBits, bitsToNat_cons, natBits_length, bitsToNat_natBits n v, Nat.mod_pow_succ, Nat.toNat_testBit]
      ring

theorem bitsToNat_natBits_lt {n v : Nat} (h : v < 2 ^ n) : bitsToNat (natBits n v) = v := by
  rw [bitsToNat_natBits, Nat.mod_eq_of_lt h]

theorem natBits_mod : ∀ (n v : Nat) (k : Nat), n ≤ k → natBits n (v % 2 ^ k) = natBits n v
  | 0, _, _, _ => rfl
  | n + 1, v, k, h => by
      rw [natBits, natBits, natBits_mod n v k (by omega), Nat.testBit_mod_two_pow]
      simp [show n < k by omega]

/-- The bits of the number that bits stand for are those bits. -/
theorem natBits_bitsToNat : ∀ (bs : List Bool), natBits bs.length (bitsToNat bs) = bs
  | [] => rfl
  | b :: bs => by
      have hlt := bitsToNat_lt bs
      rw [List.length_cons, natBits, bitsToNat_cons]
      congr 1
      · rw [Nat.testBit_eq_decide_div_mod_eq, Nat.mul_comm, Nat.mul_add_div (Nat.two_pow_pos _),
          Nat.div_eq_of_lt hlt]
        cases b <;> simp
      · rw [← natBits_mod _ (b.toNat * 2 ^ bs.length + bitsToNat bs) bs.length (le_refl _),
          Nat.mul_comm, Nat.mul_add_mod, Nat.mod_eq_of_lt hlt]
        exact natBits_bitsToNat bs

/-- A fused field is the two fields one after the other (R94). -/
theorem natBits_fused : ∀ (m n a b : Nat), b < 2 ^ n → natBits (m + n) (a * 2 ^ n + b) = natBits m a ++ natBits n b
  | 0, n, a, b, h => by
      rw [Nat.zero_add, natBits, List.nil_append, ← natBits_mod n (a * 2 ^ n + b) n (le_refl _),
        Nat.mul_comm, Nat.mul_add_mod, Nat.mod_eq_of_lt h]
  | m + 1, n, a, b, h => by
      rw [show m + 1 + n = (m + n) + 1 by omega, natBits, natBits, natBits_fused m n a b h, List.cons_append]
      congr 1
      rw [Nat.testBit_add, Nat.mul_comm, Nat.mul_add_div (Nat.two_pow_pos _), Nat.div_eq_of_lt h,
        Nat.add_zero]

/-- Everything takeField can answer. -/
theorem takeField_ok_iff {n : Nat} {bs rest : List Bool} {r : Nat} :
    takeField n bs = .ok (r, rest) ↔ ∃ xs, bs = xs ++ rest ∧ xs.length = n ∧ r = bitsToNat xs := by
  unfold takeField
  constructor
  · intro h
    split at h
    · cases h
    · rename_i hlen
      cases h
      exact ⟨bs.take n, (List.take_append_drop n bs).symm, by simp; omega, rfl⟩
  · rintro ⟨xs, rfl, hx, rfl⟩
    rw [if_neg (by simp; omega)]
    subst hx
    simp

/-- Taking a field that stands at the front. -/
theorem takeField_natBits (n v : Nat) (rest : List Bool) :
    takeField n (natBits n v ++ rest) = .ok (v % 2 ^ n, rest) :=
  takeField_ok_iff.mpr ⟨natBits n v, rfl, natBits_length n v, (bitsToNat_natBits n v).symm⟩

theorem takeField_natBits_lt {n v : Nat} (h : v < 2 ^ n) (rest : List Bool) :
    takeField n (natBits n v ++ rest) = .ok (v, rest) := by
  rw [takeField_natBits, Nat.mod_eq_of_lt h]

/-- Taking a field from a stream that is too short (R91, R196). -/
theorem takeField_short {n : Nat} {bs : List Bool} (h : bs.length < n) : takeField n bs = .error .streamEnds := by
  simp [takeField, h]

@[simp] theorem fieldBits_nil : fieldBits [] = [] := rfl

@[simp] theorem fieldBits_cons (f : Field) (fs : List Field) :
    fieldBits (f :: fs) = natBits f.width f.value ++ fieldBits fs := by simp [fieldBits]

@[simp] theorem fieldLength_nil : fieldLength [] = 0 := rfl

@[simp] theorem fieldLength_cons (f : Field) (fs : List Field) : fieldLength (f :: fs) = f.width + fieldLength fs := by
  simp [fieldLength]

@[simp] theorem fieldBits_length : ∀ fs : List Field, (fieldBits fs).length = fieldLength fs
  | [] => rfl
  | f :: fs => by simp [fieldBits_length fs]

@[simp] theorem codeBits_length (lc : LeadingRepresentation) (lead : Option Bucket) (trail : Option (Fin 64)) (i : Instr) :
    (codeBits lc lead trail i).length = codeLength lc lead trail i := by simp [codeBits, codeLength]

/-- ELF.REUSE has the same length fused or split (R70, R128). -/
@[simp] theorem codeLength_elfReuse (lc : LeadingRepresentation) (b : Bucket) (t : Fin 64) (payload : U64) :
    codeLength lc (some b) (some t) (.elfReuse payload) = 2 + windowCentre b t := by
  by_cases h : 2 + windowCentre b t ≤ 64
  · simp [codeLength, codeFields, h]
  · simp [codeLength, codeFields, h]

/-- ELF.REUSE has the same bits fused or split: the control code `00`, then the payload (R70, R94, R128). -/
theorem codeBits_elfReuse {lc : LeadingRepresentation} {b : Bucket} {t : Fin 64} {payload : U64}
    (hp : payload.toNat < 2 ^ windowCentre b t) :
    codeBits lc (some b) (some t) (.elfReuse payload) = natBits 2 0 ++ natBits (windowCentre b t) payload.toNat := by
  by_cases h : 2 + windowCentre b t ≤ 64
  · have := natBits_fused 2 (windowCentre b t) 0 payload.toNat hp
    simp only [Nat.zero_mul, Nat.zero_add] at this
    simp [codeBits, codeFields, h, this]
  · simp [codeBits, codeFields, h]

@[simp] theorem byteBits_length (b : Byte) : (byteBits b).length = 8 := by simp [byteBits]

@[simp] theorem bytesBits_length (bs : List Byte) : (bytesBits bs).length = 8 * bs.length := by
  induction bs with
  | nil => rfl
  | cons b bs ih => simp only [bytesBits, List.flatMap_cons, List.length_append, List.length_cons] at *; simp; omega

@[simp] theorem stream_length (d : DU) : d.stream.length = 8 * d.len - d.rpos := by simp [DU.stream, DU.len]

@[simp] theorem fits_iff (payload : U64) (width : Nat) : fits payload width = true ↔ payload.toNat < 2 ^ width := by
  simp [fits]

end Sys2Proof

namespace Sys2Proof.Machine

/-! ### Tables -/

@[simp] theorem bucketAt_bucketIndex (b : Bucket) : bucketAt (bucketIndex b) = b := by cases b <;> rfl

theorem bucketIndex_bucketAt : ∀ n, n < 8 → bucketIndex (bucketAt n) = n := by decide

theorem bucketIndex_lt (b : Bucket) : bucketIndex b < 8 := by cases b <;> decide

theorem code_length (t : LeadingRepresentation) : t.code.length = 8 := by
  have h := t.legal
  simp only [Config.bijective, Bool.and_eq_true, beq_iff_eq] at h
  exact h.1.1

theorem code_nodup (t : LeadingRepresentation) : t.code.Nodup := by
  have h := t.legal
  simp only [Config.bijective, Bool.and_eq_true, decide_eq_true_eq] at h
  exact h.1.2

theorem mem_code (t : LeadingRepresentation) (c : BitVec 3) : c ∈ t.code := by
  have h := t.legal
  simp only [Config.bijective, Bool.and_eq_true, List.all_eq_true, List.mem_range, List.contains_iff_mem] at h
  simpa using h.2 c.toNat c.isLt

/-- `LB` undoes `LC`, whatever bijection `LC` is (R62, U10). -/
@[simp] theorem leadBucket_leadCode (t : LeadingRepresentation) (b : Bucket) : leadBucket t (leadCode t b) = b := by
  have hb : bucketIndex b < t.code.length := by rw [code_length]; exact bucketIndex_lt b
  rw [leadBucket, leadCode, List.getD_eq_getElem _ _ hb, (code_nodup t).idxOf_getElem _ hb, bucketAt_bucketIndex]

/-- `LC` undoes `LB`: every 3-bit value is a legal code (R62). -/
@[simp] theorem leadCode_leadBucket (t : LeadingRepresentation) (c : BitVec 3) : leadCode t (leadBucket t c) = c := by
  have hc : t.code.idxOf c < t.code.length := List.idxOf_lt_length_of_mem (mem_code t c)
  rw [leadCode, leadBucket, bucketIndex_bucketAt _ (by rwa [code_length] at hc), List.getD_eq_getElem _ _ hc,
    List.getElem_idxOf]

theorem bucketCount_le (b : Bucket) : bucketCount b ≤ 24 := by cases b <;> decide

theorem bucketCount_injective {b b' : Bucket} (h : bucketCount b = bucketCount b') : b = b' := by
  cases b <;> cases b' <;> first | rfl | (revert h; decide)

/-- `LR(n) <= n`, whatever table `LR` is (R61). -/
theorem leadRound_le (t : LeadingRound) (n : Nat) : bucketCount (leadRound t n) ≤ n := by
  have h := t.legal
  simp only [Config.roundsDown, Bool.and_eq_true, beq_iff_eq, List.all_eq_true, List.mem_range, decide_eq_true_eq] at h
  by_cases hn : n < 64
  · exact h.2 n hn
  · rw [leadRound, List.getD_eq_default _ _ (by omega)]
    exact Nat.zero_le n

/-- With the contents of R61, `LR(n)` is the greatest bucket not above n. -/
theorem le_leadRound (n : Nat) (hn : n ≤ 63) (b : Bucket) (h : bucketCount b ≤ n) :
    bucketCount b ≤ bucketCount (leadRound .tabled n) := by
  have key : ∀ n : Fin 64, ∀ b ∈ [Bucket.b0, .b8, .b12, .b16, .b18, .b20, .b22, .b24],
      bucketCount b ≤ n.val → bucketCount b ≤ bucketCount (leadRound .tabled n.val) := by decide +kernel
  exact key ⟨n, by omega⟩ b (by cases b <;> decide) h

theorem centreOf4_range (c : BitVec 4) : 1 ≤ centreOf4 c ∧ centreOf4 c ≤ 16 := by
  have := c.isLt
  unfold centreOf4; split <;> omega

theorem centreOf6_range (c : BitVec 6) : 1 ≤ centreOf6 c ∧ centreOf6 c ≤ 64 := by
  have := c.isLt
  unfold centreOf6; split <;> omega

/-! ### Counts (R10) -/

@[simp] theorem clz64_zero : clz64 0 = 64 := by simp [clz64]

theorem clz64_le (a : U64) (h : a ≠ 0) : clz64 a ≤ 63 := by
  rw [clz64, if_neg h]; omega

/-- Every bit above the leading zeros is zero. -/
theorem toNat_lt_clz64 (a : U64) : a.toNat < 2 ^ (64 - clz64 a) := by
  by_cases h : a = 0
  · subst h; simp
  · have h0 : a.toNat ≠ 0 := by simpa [← BitVec.toNat_inj] using h
    have hlog : Nat.log2 a.toNat < 64 := (Nat.log2_lt h0).mpr a.isLt
    have hlt : a.toNat < 2 ^ (Nat.log2 a.toNat + 1) := Nat.lt_log2_self
    rw [clz64, if_neg h]
    rwa [show 64 - (63 - Nat.log2 a.toNat) = Nat.log2 a.toNat + 1 by omega]

/-- The bit below the leading zeros is set. -/
theorem le_toNat_clz64 (a : U64) (h : a ≠ 0) : 2 ^ (63 - clz64 a) ≤ a.toNat := by
  have h0 : a.toNat ≠ 0 := by simpa [← BitVec.toNat_inj] using h
  have hlog : Nat.log2 a.toNat < 64 := (Nat.log2_lt h0).mpr a.isLt
  rw [clz64, if_neg h, show 63 - (63 - Nat.log2 a.toNat) = Nat.log2 a.toNat by omega]
  exact Nat.log2_self_le h0

/-- A xor is below the bits its bucket leaves (R61). -/
theorem toNat_lt_leadRound (t : LeadingRound) (a : U64) : a.toNat < 2 ^ (64 - bucketCount (leadRound t (clz64 a))) :=
  Nat.lt_of_lt_of_le (toNat_lt_clz64 a) (Nat.pow_le_pow_right (by omega) (by have := leadRound_le t (clz64 a); omega))

theorem countTrailing_le : ∀ k n, countTrailing k n ≤ k
  | 0, _ => le_refl _
  | k + 1, n => by
      unfold countTrailing
      split
      · omega
      · have := countTrailing_le k (n / 2); omega

theorem countTrailing_dvd : ∀ k n, 2 ^ countTrailing k n ∣ n
  | 0, n => by simp [countTrailing]
  | k + 1, n => by
      unfold countTrailing
      split
      · simp
      · obtain ⟨m, hm⟩ := countTrailing_dvd k (n / 2)
        refine ⟨m, ?_⟩
        rw [pow_succ, Nat.mul_assoc, Nat.mul_comm 2 m, ← Nat.mul_assoc, ← hm]; omega

theorem countTrailing_lt : ∀ k n, n ≠ 0 → n < 2 ^ k → countTrailing k n < k ∧ n.testBit (countTrailing k n) = true
  | 0, n, h, hk => by simp at hk; omega
  | k + 1, n, h, hk => by
      unfold countTrailing
      split
      · rename_i h1; exact ⟨by omega, by simp [Nat.testBit_zero, h1]⟩
      · have h2 : n / 2 ≠ 0 := by omega
        have h3 := countTrailing_lt k (n / 2) h2 (by rw [pow_succ] at hk; omega)
        exact ⟨by omega, by rw [Nat.testBit_succ]; exact h3.2⟩

theorem ctz64_le (a : U64) : ctz64 a ≤ 64 := countTrailing_le 64 a.toNat

@[simp] theorem ctz64_zero : ctz64 0 = 64 := by decide

theorem ctz64_lt (a : U64) (h : a ≠ 0) : ctz64 a < 64 :=
  (countTrailing_lt 64 a.toNat (by simpa [← BitVec.toNat_inj] using h) a.isLt).1

/-- The trailing zeros of a pattern divide it. -/
theorem ctz64_dvd (a : U64) : 2 ^ ctz64 a ∣ a.toNat := countTrailing_dvd 64 a.toNat

/-- The bit above the trailing zeros is set. -/
theorem testBit_ctz64 (a : U64) (h : a ≠ 0) : a.toNat.testBit (ctz64 a) = true :=
  (countTrailing_lt 64 a.toNat (by simpa [← BitVec.toNat_inj] using h) a.isLt).2

/-- Shifting trailing zeros out and in again loses nothing (R89). -/
theorem placed_shift (a : U64) (t : Nat) (h : t ≤ ctz64 a) : placed (a >>> t) t = a := by
  apply BitVec.eq_of_toNat_eq
  have hd : 2 ^ t ∣ a.toNat := dvd_trans (pow_dvd_pow 2 h) (ctz64_dvd a)
  rw [placed, BitVec.toNat_shiftLeft, BitVec.toNat_ushiftRight, Nat.shiftLeft_eq, Nat.shiftRight_eq_div_pow,
    Nat.div_mul_cancel hd, Nat.mod_eq_of_lt a.isLt]

/-- The centre of a nonzero xor fits what its bucket and its trailing zeros leave (R118, R128, R130, R131). -/
theorem shift_fits (r : LeadingRound) (a : U64) (t : Nat) : (a >>> t).toNat < 2 ^ (64 - bucketCount (leadRound r (clz64 a)) - t) := by
  rw [BitVec.toNat_ushiftRight, Nat.shiftRight_eq_div_pow]
  have h := toNat_lt_leadRound r a
  by_cases ht : t ≤ 64 - bucketCount (leadRound r (clz64 a))
  · rw [Nat.div_lt_iff_lt_mul (Nat.two_pow_pos _), ← pow_add]
    rwa [Nat.sub_add_cancel ht]
  · have : a.toNat < 2 ^ t := Nat.lt_of_lt_of_le h (Nat.pow_le_pow_right (by omega) (by omega))
    rw [Nat.div_eq_of_lt this]
    exact Nat.two_pow_pos _

/-- A nonzero xor has a set bit between its bucket and its trailing zeros: at least one centre bit (R118, R129). -/
theorem lead_trail_lt (t : LeadingRound) (a : U64) (h : a ≠ 0) : bucketCount (leadRound t (clz64 a)) + ctz64 a < 64 := by
  have h1 := toNat_lt_leadRound t a
  have h2 : 2 ^ ctz64 a ≤ a.toNat := Nat.ge_two_pow_of_testBit (testBit_ctz64 a h)
  have h3 : 2 ^ ctz64 a < 2 ^ (64 - bucketCount (leadRound t (clz64 a))) := Nat.lt_of_le_of_lt h2 h1
  have := (Nat.pow_lt_pow_iff_right (a := 2) (by omega)).mp h3
  omega

end Sys2Proof.Machine
end

