-- ==== Sys2Proof/Laws/PerInstr.lean ====
section
/-! SUPPORT. Statements about every instruction as syntax, one lemma for each constructor. Family CodeLength: the length of a
well-formed wire code lies in the range of its format (spec/30_encoding.md R80); what is no wire code has no bits. -/

namespace Sys2Proof.Laws

open Sys2Proof.Machine

/-- The least and the greatest decodable length of a format, in bits (the table of R80); 0 for what is no wire code. -/
def lengthRange : Instr → Nat × Nat
  | .chimpFirst _ => (64, 64)
  | .chimpSame => (2, 2)
  | .chimpTrail _ _ _ => (12, 74)
  | .chimpReuse _ => (42, 66)
  | .chimpNewLead _ _ => (45, 69)
  | .elfFirst _ _ => (7, 71)
  | .elfSame => (2, 2)
  | .elfReuse _ => (3, 66)
  | .elfNewShort _ _ _ => (10, 25)
  | .elfNewLong _ _ _ => (12, 75)
  | .orchRaw => (1, 1)
  | .orchDec _ => (5, 5)
  | .addValue _ | .close | .refreshCU | .putBitsCommand _ _ | .getBuf => (0, 0)
  | .setBytes _ | .readValue | .nextValue | .decompX | .decompE | .refreshDU => (0, 0)
  | .putBits _ _ | .getBits _ | .flush => (0, 0)

/-- A well-formed instruction, in a legal window (R24) that it fits, has a length in its format's range (R80). -/
def CodeLength.Statement (i : Instr) : Prop :=
  ∀ (lc : LeadingRepresentation) (lead : Option Bucket) (trail : Option (Fin 64)), i.wellFormed = true →
    i.fitsWindow lead trail = true →
    (∀ b t, lead = some b → trail = some t → bucketCount b + t.val ≤ 63) →
      (lengthRange i).1 ≤ codeLength lc lead trail i ∧ codeLength lc lead trail i ≤ (lengthRange i).2

/-- What has no fields has no bits. -/
theorem CodeLength.noCode {i : Instr} (h : ∀ lc lead trail, codeFields lc lead trail i = []) (h2 : lengthRange i = (0, 0)) :
    CodeLength.Statement i := by
  intro lc lead trail _ _ _
  simp [codeLength, h lc lead trail, h2]

theorem CodeLength.chimpFirst (raw : U64) : CodeLength.Statement (.chimpFirst raw) := by
  intro lc lead trail _ _ _; simp [codeLength, codeFields, lengthRange]

theorem CodeLength.chimpSame : CodeLength.Statement .chimpSame := by
  intro lc lead trail _ _ _; simp [codeLength, codeFields, lengthRange]

theorem CodeLength.chimpTrail (lz : Bucket) (sig : BitVec 6) (payload : U64) :
    CodeLength.Statement (.chimpTrail lz sig payload) := by
  intro lc lead trail h _ _
  have h1 : sig.toNat ≠ 0 := by
    simp only [Instr.wellFormed, Bool.and_eq_true, decide_eq_true_eq] at h
    exact h.1.1
  have := sig.isLt
  simp only [codeLength, codeFields, lengthRange, fieldLength_cons, fieldLength_nil]
  omega

theorem CodeLength.chimpReuse (payload : U64) : CodeLength.Statement (.chimpReuse payload) := by
  intro lc lead trail _ h _
  rcases lead with _ | b
  · simp [Instr.fitsWindow] at h
  · have := bucketCount_le b
    simp only [codeLength, codeFields, lengthRange, fieldLength_cons, fieldLength_nil, belowLead]
    omega

theorem CodeLength.chimpNewLead (lz : Bucket) (payload : U64) :
    CodeLength.Statement (.chimpNewLead lz payload) := by
  intro lc lead trail _ _ _
  have := bucketCount_le lz
  simp only [codeLength, codeFields, lengthRange, fieldLength_cons, fieldLength_nil, belowLead]
  omega

theorem CodeLength.elfFirst (tz7 : BitVec 7) (payload : U64) : CodeLength.Statement (.elfFirst tz7 payload) := by
  intro lc lead trail _ _ _
  simp only [codeLength, codeFields, lengthRange, fieldLength_cons, fieldLength_nil]
  omega

theorem CodeLength.elfSame : CodeLength.Statement .elfSame := by
  intro lc lead trail _ _ _; simp [codeLength, codeFields, lengthRange]

theorem CodeLength.elfReuse (payload : U64) : CodeLength.Statement (.elfReuse payload) := by
  intro lc lead trail _ h hw
  rcases lead with _ | b
  · simp [Instr.fitsWindow] at h
  · rcases trail with _ | t
    · simp [Instr.fitsWindow] at h
    · have := hw b t rfl rfl
      simp only [codeLength_elfReuse, lengthRange, windowCentre]
      omega

theorem CodeLength.elfNewShort (lz : Bucket) (cb4 : BitVec 4) (payload : U64) :
    CodeLength.Statement (.elfNewShort lz cb4 payload) := by
  intro lc lead trail _ _ _
  have := centreOf4_range cb4
  simp only [codeLength, codeFields, lengthRange, fieldLength_cons, fieldLength_nil]
  omega

theorem CodeLength.elfNewLong (lz : Bucket) (cb6 : BitVec 6) (payload : U64) :
    CodeLength.Statement (.elfNewLong lz cb6 payload) := by
  intro lc lead trail _ _ _
  have := centreOf6_range cb6
  simp only [codeLength, codeFields, lengthRange, fieldLength_cons, fieldLength_nil]
  omega

theorem CodeLength.orchRaw : CodeLength.Statement .orchRaw := by
  intro lc lead trail _ _ _; simp [codeLength, codeFields, lengthRange]

theorem CodeLength.orchDec (betaStar : BitVec 4) : CodeLength.Statement (.orchDec betaStar) := by
  intro lc lead trail _ _ _; simp [codeLength, codeFields, lengthRange]

theorem CodeLength.addValue (v : U64) : CodeLength.Statement (.addValue v) := noCode (fun _ _ _ => rfl) rfl
theorem CodeLength.close : CodeLength.Statement .close := noCode (fun _ _ _ => rfl) rfl
theorem CodeLength.refreshCU : CodeLength.Statement .refreshCU := noCode (fun _ _ _ => rfl) rfl
theorem CodeLength.putBitsCommand (v : U64) (n : BitVec 7) : CodeLength.Statement (.putBitsCommand v n) :=
  noCode (fun _ _ _ => rfl) rfl
theorem CodeLength.getBuf : CodeLength.Statement .getBuf := noCode (fun _ _ _ => rfl) rfl
theorem CodeLength.setBytes (b : List Byte) : CodeLength.Statement (.setBytes b) := noCode (fun _ _ _ => rfl) rfl
theorem CodeLength.readValue : CodeLength.Statement .readValue := noCode (fun _ _ _ => rfl) rfl
theorem CodeLength.nextValue : CodeLength.Statement .nextValue := noCode (fun _ _ _ => rfl) rfl
theorem CodeLength.decompX : CodeLength.Statement .decompX := noCode (fun _ _ _ => rfl) rfl
theorem CodeLength.decompE : CodeLength.Statement .decompE := noCode (fun _ _ _ => rfl) rfl
theorem CodeLength.refreshDU : CodeLength.Statement .refreshDU := noCode (fun _ _ _ => rfl) rfl
theorem CodeLength.putBits (v : U64) (n : BitVec 7) : CodeLength.Statement (.putBits v n) := noCode (fun _ _ _ => rfl) rfl
theorem CodeLength.getBits (n : BitVec 7) : CodeLength.Statement (.getBits n) := noCode (fun _ _ _ => rfl) rfl
theorem CodeLength.flush : CodeLength.Statement .flush := noCode (fun _ _ _ => rfl) rfl

end Sys2Proof.Laws
end

