-- ==== Sys2Proof/Safety.lean ====
section
/-! DEFINITION. The terms the claims use: what a well-kept unit is, what a command may not change, what it means to append
bits to a stream, to decode a list of values, and to run a script of host commands. -/

namespace Sys2Proof

open Sys2Proof.Machine

/-- The list of causes of a refusal (R197), for a command that R85 lists for the unit's kind; a command of the other kind is
refused always. False for what is no command. -/
def Instr.refusedOn (i : Instr) (u : CodecUnit) : Bool :=
  match u with
  | .cu c =>
      match i with
      | .addValue _ | .close => decide (c.phase ≠ .opened)
      | .putBitsCommand v n => decide (c.phase ≠ .opened) || decide (64 < n.toNat) || decide (2 ^ n.toNat ≤ v.toNat)
      | .getBuf => decide (c.phase ≠ .closed)
      | .refreshCU => false
      | .setBytes _ | .readValue | .nextValue | .decompX | .decompE | .refreshDU => true
      | .chimpFirst _ | .chimpSame | .chimpTrail _ _ _ | .chimpReuse _ | .chimpNewLead _ _ => false
      | .elfFirst _ _ | .elfSame | .elfReuse _ | .elfNewShort _ _ _ | .elfNewLong _ _ _ => false
      | .orchRaw | .orchDec _ | .putBits _ _ | .getBits _ | .flush => false
  | .du d =>
      match i with
      | .setBytes _ => d.faulted
      | .readValue | .nextValue | .decompX | .decompE => d.faulted || !d.bound || d.ended
      | .refreshDU => false
      | .addValue _ | .close | .refreshCU | .putBitsCommand _ _ | .getBuf => true
      | .chimpFirst _ | .chimpSame | .chimpTrail _ _ _ | .chimpReuse _ | .chimpNewLead _ _ => false
      | .elfFirst _ _ | .elfSame | .elfReuse _ | .elfNewShort _ _ _ | .elfNewLong _ _ _ => false
      | .orchRaw | .orchDec _ | .putBits _ _ | .getBits _ | .flush => false

/-- The six reserved encodings (R82), as fields of a code in a remembered window. -/
def Instr.reservedIn (lead : Option Bucket) (trail : Option (Fin 64)) : Instr → Bool
  | .chimpTrail lz sig _ => decide (sig.toNat = 0) || decide (64 < bucketCount lz + sig.toNat)
  | .chimpReuse _ => lead.isNone
  | .elfFirst tz7 _ => decide (64 < tz7.toNat)
  | .elfReuse _ => lead.isNone || trail.isNone
  | .elfNewLong lz cb6 _ => decide (64 < bucketCount lz + centreOf6 cb6)
  | .chimpFirst _ | .chimpSame | .chimpNewLead _ _ | .elfSame | .elfNewShort _ _ _ => false
  | .orchRaw | .orchDec _ => false
  | .addValue _ | .close | .refreshCU | .putBitsCommand _ _ | .getBuf => false
  | .setBytes _ | .readValue | .nextValue | .decompX | .decompE | .refreshDU => false
  | .putBits _ _ | .getBits _ | .flush => false

end Sys2Proof

namespace Sys2Proof.Machine

/-! ### The invariant -/

/-- The window registers of an ELF unit (R24): both hold NONE or neither does, and a window leaves 1 to 64 centre bits. -/
def Session.WindowInv (x : Session) : Prop :=
  (x.lead = none ↔ x.trail = none) ∧
    ∀ b t, x.lead = some b → x.trail = some t → bucketCount b + t.val ≤ 63

/-- The session registers of a unit of the given variant that is in no fault (R24, R25, R102, R115): a CHIMP unit has no
trailing register, an ELF window is legal, and a session that has taken no value is as REFRESH leaves it. -/
def Session.Inv (vt : Variant) (x : Session) : Prop :=
  (vt = .elf → x.WindowInv) ∧ (x.first = true → x = .reset)

/-- What holds of a compressor unit after every command: the cursor is inside the buffer (R33), the buffer is canonical and
inside its address space (R40), it is zero from the cursor on unless a fault stands (R46, R90), a CLOSED block is whole
bytes (R46, R101), a fault code stands exactly in phase FAULT and is BUFFER_OVERFLOW (R195, R203). -/
structure CU.Inv (c : CU) : Prop where
  cursor  : c.wpos ≤ 8 * c.bufBytes
  buffer  : c.buf.WF
  inside  : ∀ x ∈ c.buf, x.1 < c.bufBytes
  clear   : c.phase ≠ .faulted → ∀ p, c.wpos ≤ p → c.buf.bit p = false
  whole   : c.phase = .closed → c.wpos % 8 = 0
  fault   : c.phase = .faulted ↔ c.faultCode = some .bufferOverflow
  noFault : c.phase ≠ .faulted → c.faultCode = none
  trail   : c.cfg.variant = .chimp → c.session.trail = none
  session : c.phase ≠ .faulted → c.session.Inv c.cfg.variant
  taken   : c.phase = .closed → c.session.first = false

/-- What holds of a decompressor unit after every command: the cursor is inside the source (R33), a fault code stands exactly
in the fault state, is never BUFFER_OVERFLOW (R195, R203), and nothing is bound then (R203), and `ended` means that the
sentinel was the last value (R136). -/
structure DU.Inv (d : DU) : Prop where
  cursor  : d.rpos ≤ 8 * d.len
  fault   : d.faulted = true ↔ d.faultCode ≠ none
  code    : d.faultCode ≠ some .bufferOverflow
  unbound : d.faulted = true → d.bound = false
  trail   : d.cfg.variant = .chimp → d.session.trail = none
  session : d.faulted = false → d.session.Inv d.cfg.variant
  atEnd   : d.faulted = false → d.ended = true → d.session.first = false ∧ d.session.storedVal = d.cfg.endSign

/-- The invariant of a unit. -/
def CodecUnit.Inv : CodecUnit → Prop
  | .cu c => c.Inv
  | .du d => d.Inv

/-- The invariant of the engine: every unit is well kept. -/
def State.Inv (s : State) : Prop :=
  ∀ u ∈ s.units, u.Inv

/-! ### What a command may not change -/

/-- Two units of one kind with the same parameters (R3, R6: no command changes a parameter). -/
def CodecUnit.sameUnit : CodecUnit → CodecUnit → Prop
  | .cu c, .cu c' => c'.cfg = c.cfg
  | .du d, .du d' => d'.cfg = d.cfg
  | _, _ => False

/-! ### Streams -/

/-- `c'` is `c` with exactly these bits appended at its write cursor: the bits stand there in order, every other bit of the
buffer and every byte that holds none of them reads as before, and the cursor is past them (R90, R41). -/
structure CU.Appended (c c' : CU) (bits : List Bool) : Prop where
  cursor : c'.wpos = c.wpos + bits.length
  inside : ∀ p, c.wpos ≤ p → p < c.wpos + bits.length → bits[p - c.wpos]? = some (c'.buf.bit p)
  outside : ∀ p, p < c.wpos ∨ c.wpos + bits.length ≤ p → c'.buf.bit p = c.buf.bit p
  bytes  : ∀ a, 8 * a + 8 ≤ c.wpos ∨ c.wpos + bits.length ≤ 8 * a → c'.buf.read a = c.buf.read a

/-- The state in which a decompressor unit has executed a code of n bits that leaves these session registers: END if the
value is the sentinel, the value otherwise (R136). -/
def State.delivered (s : State) (d : DU) (n : Nat) (x : Session) : State :=
  if x.storedVal = d.cfg.endSign then
    s.answer (.du { d with session := x, rpos := d.rpos + n, ended := true }) .eos .none
  else s.answer (.du { d with session := x, rpos := d.rpos + n }) .ok (.value x.storedVal)

/-- Decoding over and over from `d` gives these values, then END, and leaves `d'` (R138, R176). -/
inductive DecodesTo (decode : DU → Except TerminalFault (Decoded × DU)) : DU → List U64 → DU → Prop where
  | eos {d d' : DU} : decode d = .ok (.eos, d') → DecodesTo decode d [] d'
  | value {d d1 d' : DU} {v : U64} {vs : List U64} :
      decode d = .ok (.value v, d1) → DecodesTo decode d1 vs d' → DecodesTo decode d (v :: vs) d'

/-- Decoding over and over from `d` raises this fault before it meets END (R138, R176). -/
inductive DecodesInto (decode : DU → Except TerminalFault (Decoded × DU)) : DU → TerminalFault → Prop where
  | now {d : DU} {f : TerminalFault} : decode d = .error f → DecodesInto decode d f
  | later {d d1 : DU} {v : U64} {f : TerminalFault} :
      decode d = .ok (.value v, d1) → DecodesInto decode d1 f → DecodesInto decode d f

/-- The six reserved encodings (R82), as what stands at the read cursor of a decompressor unit. ELF `00` is reserved when no
window is remembered; both window registers hold NONE then (R24). -/
def DU.ReservedAhead (d : DU) : Prop :=
  (d.cfg.variant = .chimp ∧ d.session.first = false ∧ d.session.lead = none ∧
      ∃ rest, d.stream = natBits 2 2 ++ rest) ∨
    (d.cfg.variant = .chimp ∧ d.session.first = false ∧
      ∃ lz : Bucket, ∃ rest,
        d.stream = natBits 2 1 ++ natBits 3 (leadCode d.cfg.leadCode lz).toNat ++ natBits 6 0 ++ rest) ∨
    (d.cfg.variant = .chimp ∧ d.session.first = false ∧
      ∃ (lz : Bucket) (sig : BitVec 6), 64 < bucketCount lz + sig.toNat ∧
        ∃ rest, d.stream = natBits 2 1 ++ natBits 3 (leadCode d.cfg.leadCode lz).toNat ++ natBits 6 sig.toNat ++ rest) ∨
    (d.cfg.variant = .elf ∧ d.session.first = true ∧
      ∃ tz7 : BitVec 7, 64 < tz7.toNat ∧ ∃ rest, d.stream = natBits 7 tz7.toNat ++ rest) ∨
    (d.cfg.variant = .elf ∧ d.session.first = false ∧ (d.session.lead = none ∨ d.session.trail = none) ∧
      ∃ rest, d.stream = natBits 2 0 ++ rest) ∨
    (d.cfg.variant = .elf ∧ d.session.first = false ∧
      ∃ (lz : Bucket) (cb6 : BitVec 6), 64 < bucketCount lz + centreOf6 cb6 ∧
        ∃ rest, d.stream = natBits 2 3 ++ natBits 3 (leadCode d.cfg.leadCode lz).toNat ++ natBits 6 cb6.toNat ++ rest)

/-- A unit stands in the fault state (R203). -/
def CodecUnit.isFaulted : CodecUnit → Bool
  | .cu c => decide (c.phase = .faulted)
  | .du d => d.faulted

/-- REFRESH of either kind of unit (R102, R139). -/
def CodecUnit.refreshed : CodecUnit → CodecUnit
  | .cu c => .cu c.refresh
  | .du d => .du d.refresh

/-! ### Numbers -/

/-- The exact value of a rational. -/
def Ratio.toRat (a : Ratio) : ℚ :=
  (a.num : ℚ) / (a.den : ℚ)

/-- A finite pattern without a sign. -/
def finitePositive (p : U64) : Prop :=
  p.toNat < infinity.toNat

/-- `p` is the finite double nearest to `q`, ties to the even fraction (R190, spec/48_decimal_numerics.md). -/
def NearestTo (p : U64) (q : ℚ) : Prop :=
  finitePositive p ∧
    ∀ r : U64, finitePositive r → r ≠ p →
      |(magnitude p).toRat - q| < |(magnitude r).toRat - q| ∨
        (|(magnitude p).toRat - q| = |(magnitude r).toRat - q| ∧ p.toNat % 2 = 0)

/-! ### Scripts of host commands (R87, R88) -/

/-- An instruction as the command the host issues for it to a unit; nothing for what is no command. -/
def hostCommand (unit : Nat) (i : Instr) : List HostEvent :=
  match encodeCommand unit i with
  | some c => [.command c]
  | none => []

/-- A script of commands to one unit. -/
def script (unit : Nat) (is : List Instr) : List HostEvent :=
  is.flatMap (hostCommand unit)

/-- `COMPRESS [v0, ..., v(n-1)]` (R88). -/
def compressScript (unit : Nat) (vs : List U64) : List HostEvent :=
  script unit ([.refreshCU] ++ vs.map .addValue ++ [.close, .getBuf])

/-- `DECOMPRESS b` (R88). -/
def decompressScript (unit : Nat) (b : List Byte) : List HostEvent :=
  script unit [.refreshDU, .setBytes b, .decompX]

/-- Run a script: the host issues these events and nothing else, and the engine takes them all. -/
def State.runScript (s : State) (es : List HostEvent) : StepResult :=
  Host.Core.run Sys2Proof.core es.length { s with pending := es }

/-- The responses of a script, the latest first, without the status words. -/
def State.answers (s : State) (n : Nat) : List (Nat × Status × Result) :=
  (s.out.take n).map fun r => (r.unit, r.status, r.result)

end Sys2Proof.Machine
end

