-- ==== Sys2Proof/Certificates/Slice0/Obligations.lean ====
section
/-! DEFINITION. The statements for the provers, each with the rules of spec/ it formalises. Statements about a command name the
unit it is addressed to (`s.unit?`); `s.answer u st r` is the state in which that unit is `u`, one response has been given and
nothing else has changed. -/

open Sys2Proof Sys2Proof.Machine

/-! ### Reset and the step -/

/-- R221: the reset and REFRESH values of every state element of both kinds of unit. -/
def Obligations.ResetAndRefreshLeaveTheTabledValues : Prop :=
  (∀ g : CUConfig,
      (CU.reset g).cfg = g ∧ (CU.reset g).session.storedVal = 0 ∧ (CU.reset g).session.lead = none ∧
        (CU.reset g).session.trail = none ∧ (CU.reset g).session.first = true ∧ (CU.reset g).phase = .opened ∧
        (CU.reset g).faultCode = none ∧ (CU.reset g).wpos = 0 ∧ (∀ a, (CU.reset g).buf.read a = 0) ∧
        (CU.reset g).statusWord = 0b00000100#8) ∧
  (∀ c : CU, CodecUnit.hardReset (.cu c) = .cu (CU.reset c.cfg) ∧ c.refresh = CU.reset c.cfg) ∧
  (∀ g : DUConfig,
      (DU.reset g).cfg = g ∧ (DU.reset g).session.storedVal = 0 ∧ (DU.reset g).session.lead = none ∧
        (DU.reset g).session.trail = none ∧ (DU.reset g).session.first = true ∧ (DU.reset g).ended = false ∧
        (DU.reset g).faulted = false ∧ (DU.reset g).faultCode = none ∧ (DU.reset g).src = [] ∧ (DU.reset g).len = 0 ∧
        (DU.reset g).rpos = 0 ∧ (DU.reset g).bound = false ∧ (DU.reset g).statusWord = 0b00001000#8) ∧
  (∀ d : DU,
      CodecUnit.hardReset (.du d) = .du (DU.reset d.cfg) ∧ d.refresh.session.storedVal = 0 ∧
        d.refresh.session.lead = none ∧ d.refresh.session.trail = none ∧ d.refresh.session.first = true ∧
        d.refresh.ended = false ∧ d.refresh.faulted = false ∧ d.refresh.faultCode = none ∧ d.refresh.src = d.src ∧
        d.refresh.len = d.len ∧ d.refresh.rpos = d.rpos ∧ d.refresh.bound = d.bound ∧
        d.refresh.statusWord = 0b00001000#8 ||| (if d.bound then 1#8 else 0#8))

/-- The model's reset engine (log 1, DESIGN CHOICE: one unit of each kind and variant) meets the invariant. -/
def Obligations.ResetEngineMeetsTheInvariant : Prop :=
  State.reset.Inv

/-- R8, R85: a step with a command issued runs the instruction that the command decodes to on the unit it is sent to, in
the state in which the command has left the queue and stands on that unit's port. -/
def Obligations.StepRunsTheDecodedCommand : Prop :=
  ∀ (s : State) (c : Command) (rest : List HostEvent) (u : CodecUnit) (i : Instr),
    s.pending = .command c :: rest → s.units[c.unit]? = some u → decodeCommand u.kind c = .ok i →
      step s = exec i { s with pending := rest, sel := c.unit }

/-- R85: the command codes of each kind of unit with their operands; every other code, and a code of the other kind, is
refused by a step and changes nothing but the response and the queue (R204). -/
def Obligations.CommandCodesAreTheTabledOnes : Prop :=
  (∀ c : Command, decodeCommand .cu c =
      if c.cmd = 0x1 then .ok (.addValue c.v) else if c.cmd = 0x2 then .ok .close
      else if c.cmd = 0x3 then .ok .refreshCU else if c.cmd = 0x4 then .ok (.putBitsCommand c.v c.n)
      else if c.cmd = 0x5 then .ok .getBuf else .error .reservedCommand) ∧
  (∀ c : Command, decodeCommand .du c =
      if c.cmd = 0x3 then .ok .refreshDU else if c.cmd = 0x8 then .ok (.setBytes c.b)
      else if c.cmd = 0x9 then .ok .readValue else if c.cmd = 0xA then .ok .nextValue
      else if c.cmd = 0xB then .ok .decompX else if c.cmd = 0xC then .ok .decompE else .error .reservedCommand) ∧
  (∀ (s : State) (c : Command) (rest : List HostEvent) (u : CodecUnit),
      s.pending = .command c :: rest → s.units[c.unit]? = some u → decodeCommand u.kind c = .error .reservedCommand →
        step s = .next { s with
          pending := rest
          sel := c.unit
          out := ⟨c.unit, .refused, u.statusWord, .none⟩ :: s.out })

/-- The model's choices of log 3 and log 21: with nothing issued the engine waits; a hardware reset resets its unit (R220)
and gives no response. -/
def Obligations.StepWaitsOrResets : Prop :=
  (∀ s : State, s.pending = [] → step s = .next s) ∧
  (∀ (s : State) (k : Nat) (rest : List HostEvent) (u : CodecUnit),
      s.pending = .reset k :: rest → s.units[k]? = some u →
        step s = .next { s with pending := rest, sel := k, units := s.units.set k u.hardReset })

/-- R3, R8, R20, R86, R209: a step that runs a command changes the addressed unit only, keeps its kind and its parameters,
and gives exactly one response, with that unit's status word. -/
def Obligations.CommandChangesOneUnitAndGivesOneResponse : Prop :=
  ∀ (s t : State) (c : Command) (rest : List HostEvent),
    s.pending = .command c :: rest → step s = .next t →
      t.pending = rest ∧ t.units.length = s.units.length ∧ (∀ j, j ≠ c.unit → t.units[j]? = s.units[j]?) ∧
        (s.draws ≤ t.draws ∧ t.draws ≤ s.draws + 1) ∧
        ∃ u w st r, s.units[c.unit]? = some u ∧ t.units[c.unit]? = some w ∧ u.sameUnit w ∧
          t.out = ⟨c.unit, st, w.statusWord, r⟩ :: s.out

/-- R20, R106, R209: what an instruction does to the addressed unit and what it answers depend on that unit alone (and on
the free values, that is, on how many faults came before): whatever the other units hold. -/
def Obligations.AnswersDependOnTheAddressedUnitAlone : Prop :=
  ∀ (i : Instr) (s t s' : State), s.unit? = t.unit? → s.sel = t.sel → s.draws = t.draws → exec i s = .next s' →
    ∃ t', exec i t = .next t' ∧ t'.unit? = s'.unit? ∧ t'.out.head? = s'.out.head? ∧ t'.draws = s'.draws

/-! ### Encodings -/

/-- R63 to R72, R80: every well-formed wire code, in a window that it fits, decodes to itself, whatever follows it and
whatever bijection `LC` is (U10). -/
def Obligations.WireCodesDecodeToThemselves : Prop :=
  ∀ (lc : LeadingRepresentation) (vt : Variant) (first : Bool) (lead : Option Bucket) (trail : Option (Fin 64)) (i : Instr)
    (rest : List Bool),
    i.codePlace = some (vt, first) → i.wellFormed = true → i.fitsWindow lead trail = true →
      decodeCode lc vt first lead trail (codeBits lc lead trail i ++ rest) = .ok (i, rest)

/-- R63 to R72, R80, R89: what decodes as a wire code is that code's bits and nothing else, and is well-formed, whatever
bijection `LC` is (U10): no two codes share bits and no bit of a code is dropped. -/
def Obligations.DecodedCodesEncodeBack : Prop :=
  ∀ (lc : LeadingRepresentation) (vt : Variant) (first : Bool) (lead : Option Bucket) (trail : Option (Fin 64))
    (bs rest : List Bool) (i : Instr),
    decodeCode lc vt first lead trail bs = .ok (i, rest) →
      bs = codeBits lc lead trail i ++ rest ∧ i.codePlace = some (vt, first) ∧ i.wellFormed = true ∧
        i.fitsWindow lead trail = true

/-- R73, R74, R79: the two mode marks decode to themselves, with every betaStar. -/
def Obligations.ModeMarksDecodeToThemselves : Prop :=
  ∀ (lc : LeadingRepresentation) (lead : Option Bucket) (trail : Option (Fin 64)) (betaStar : BitVec 4) (rest : List Bool),
    decodeMode (codeBits lc lead trail .orchRaw ++ rest) = .ok (.orchRaw, rest) ∧
      decodeMode (codeBits lc lead trail (.orchDec betaStar) ++ rest) = .ok (.orchDec betaStar, rest)

/-- R85: every host command decodes to itself on a unit of its kind. -/
def Obligations.HostCommandsDecodeToThemselves : Prop :=
  ∀ (unit : Nat) (i : Instr) (k : UnitKind), i.commandUnit = some k →
    ∃ c, encodeCommand unit i = some c ∧ c.unit = unit ∧ decodeCommand k c = .ok i

/-- R63 to R74: words written out from the spec's encodings decode to what they stand for (spec/95_test_vectors.md X8, P2),
with `LC` ascending, the default (R62, log 12). -/
def Obligations.WrittenWordsDecodeAsTheSpecSays : Prop :=
  decodeCode .ascending .chimp false none none [false, false] = .ok (.chimpSame, []) ∧
  decodeCode .ascending .chimp false none none
      [false, true, false, false, false, false, false, true, true, false, false,
        false, true, true, true, true, true, true, true, true, true, true, true]
    = .ok (.chimpTrail .b0 12 0x7FF, []) ∧
  decodeCode .ascending .elf false none none [false, true] = .ok (.elfSame, []) ∧
  decodeCode .ascending .elf false none none [true, false, true, true, false, false, false, true, false, false, true]
    = .ok (.elfNewShort .b22 2 1, []) ∧
  decodeMode [true, false, true, false, false] = .ok (.orchDec 4, [])

/-- R80: the length of every well-formed wire code lies in its format's range. -/
def Obligations.EveryCodeLengthIsInItsRange : Prop :=
  ∀ i : Instr, Sys2Proof.Laws.CodeLength.Statement i

/-- R82, R199: READVALUE raises MALFORMED_CODE exactly when one of the six reserved encodings stands at the cursor. -/
def Obligations.MalformedExactlyOnReservedEncodings : Prop :=
  ∀ (s : State) (d : DU), s.unit? = some (.du d) → d.ready = true →
    (exec .readValue s = .next (s.raise (.du d) .malformedCode) ↔ d.ReservedAhead)

/-! ### Tables, counts, status words -/

/-- R10: clz64 and ctz64 are 64 at 0, and otherwise found at the highest and the lowest set bit. -/
def Obligations.ZeroCountsStandAtTheOutermostSetBits : Prop :=
  clz64 0 = 64 ∧ ctz64 0 = 64 ∧
  ∀ a : U64, a ≠ 0 →
    clz64 a ≤ 63 ∧ a.getLsbD (63 - clz64 a) = true ∧ (∀ i, 63 - clz64 a < i → a.getLsbD i = false) ∧
      ctz64 a ≤ 63 ∧ a.getLsbD (ctz64 a) = true ∧ (∀ i, i < ctz64 a → a.getLsbD i = false)

/-- The lookup tables are parameters of a unit (R6). The tabled LR gives the greatest bucket not above a count of 0 to 63
(R61); the default LC numbers the buckets in ascending order, which is the spec's own choice (R62, D10), a parameter for U10
and for this model (log 12, DESIGN CHOICE); the defaults are what a unit of R6 has. Whatever bijection LC is, LB is its
inverse; whatever legal table LR is, a nonzero pattern is below 2^(64 - LR of its leading zeros). -/
def Obligations.LeadTablesAreTheTabledOnes : Prop :=
  (∀ n, n ≤ 63 → bucketCount (leadRound .tabled n) ≤ n ∧
    ∀ b : Bucket, bucketCount b ≤ n → bucketCount b ≤ bucketCount (leadRound .tabled n)) ∧
  ([Bucket.b0, .b8, .b12, .b16, .b18, .b20, .b22, .b24].map fun b => (bucketCount b, (leadCode .ascending b).toNat)) =
    [(0, 0), (8, 1), (12, 2), (16, 3), (18, 4), (20, 5), (22, 6), (24, 7)] ∧
  (∀ vt : Variant, (CUConfig.default vt).leadRound = .tabled ∧ (CUConfig.default vt).leadCode = .ascending ∧
    (DUConfig.default vt).leadCode = .ascending) ∧
  (∀ (t : LeadingRepresentation) (b : Bucket), leadBucket t (leadCode t b) = b) ∧
  (∀ (t : LeadingRepresentation) (l : BitVec 3), leadCode t (leadBucket t l) = l) ∧
  ∀ (t : LeadingRound) (a : U64), a ≠ 0 → a.toNat < 2 ^ (64 - bucketCount (leadRound t (clz64 a)))

/-- R35, R195: the fields of the status words, the fault codes in them, and their values at reset. -/
def Obligations.StatusWordsShowTheFlags : Prop :=
  (∀ c : CU, (c.statusWord.extractLsb' 4 4 = faultField c.faultCode ∧ c.statusWord.getLsbD 3 = false ∧
      c.statusWord.getLsbD 2 = c.session.first ∧
      (c.statusWord.extractLsb' 0 2).toNat = (match c.phase with | .opened => 0 | .closed => 1 | .faulted => 2))) ∧
  (∀ d : DU, (d.statusWord.extractLsb' 4 4 = faultField d.faultCode ∧ d.statusWord.getLsbD 3 = d.session.first ∧
      d.statusWord.getLsbD 2 = d.faulted ∧ d.statusWord.getLsbD 1 = d.ended ∧ d.statusWord.getLsbD 0 = d.bound)) ∧
  faultField none = 0 ∧ faultField (some .streamError) = 1 ∧ faultField (some .bufferOverflow) = 3 ∧
  faultField (some .malformedCode) = 4 ∧ faultField (some .reconDomain) = 5 ∧
  (∀ g : CUConfig, (CU.reset g).statusWord = 0b00000100#8) ∧ ∀ g : DUConfig, (DU.reset g).statusWord = 0b00001000#8

/-! ### BitStream primitives -/

/-- R90, R41, R42, R45, R103, R198: PutBits and PUTBITS on an open unit append the n bits of v, most significant first, when
they fit: no other bit and no other byte of the buffer changes, and of the unit only the buffer and the cursor. When they do
not fit, both raise BUFFER_OVERFLOW. That PutBits runs as an instruction of its own is the model's choice (log 11). -/
def Obligations.PutBitsAppendsItsFieldOrOverflows : Prop :=
  ∀ (s : State) (c : CU) (v : U64) (n : BitVec 7), s.unit? = some (.cu c) → c.phase = .opened →
    n.toNat ≤ 64 → v.toNat < 2 ^ n.toNat →
      (c.buf.WF → c.wpos + n.toNat ≤ 8 * c.bufBytes →
        ∃ c', exec (.putBits v n) s = .next (s.answer (.cu c') .ok .none) ∧
          exec (.putBitsCommand v n) s = .next (s.answer (.cu c') .ok .none) ∧
          c' = { c with wpos := c.wpos + n.toNat, buf := c'.buf } ∧ c.Appended c' (natBits n.toNat v.toNat) ∧
          c'.buf.WF) ∧
      (8 * c.bufBytes < c.wpos + n.toNat →
        exec (.putBits v n) s = .next (s.raise (.cu c) .bufferOverflow) ∧
          exec (.putBitsCommand v n) s = .next (s.raise (.cu c) .bufferOverflow))

/-- R94: split and fused accesses are the same stream: the same buffer and cursor when both fit, and both overflow when they
do not; two reads return the halves of the one read. -/
def Obligations.SplitAndFusedAccessesAreOneStream : Prop :=
  (∀ (c : CU) (a b m n : Nat), m + n ≤ 64 → a < 2 ^ m → b < 2 ^ n →
      c.putFields [⟨a, m⟩, ⟨b, n⟩] = c.putBits (a * 2 ^ n + b) (m + n)) ∧
  (∀ (d d' : DU) (m n r : Nat), m + n ≤ 64 → d.getBits (m + n) = .ok (r, d') →
      ∃ a b d1, d.getBits m = .ok (a, d1) ∧ d1.getBits n = .ok (b, d') ∧ r = a * 2 ^ n + b ∧ b < 2 ^ n)

/-- R91, R41, R42, R45, R196: GetBits answers the n bits at the cursor, each from its byte of SRC, and moves the cursor past
them; past the end of the source it raises STREAM_ERROR. That it runs as an instruction of its own is the model's choice
(log 11). -/
def Obligations.GetBitsReadsTheSourceBitsOrFaults : Prop :=
  ∀ (s : State) (d : DU) (n : BitVec 7), s.unit? = some (.du d) → d.ready = true → n.toNat ≤ 64 →
    (d.rpos + n.toNat ≤ 8 * d.len →
      ∃ r, exec (.getBits n) s =
          .next (s.answer (.du { d with rpos := d.rpos + n.toNat }) .ok (.value (BitVec.ofNat 64 r))) ∧
        r < 2 ^ n.toNat ∧
        ∀ i, i < n.toNat →
          (d.src[(d.rpos + i) / 8]?).map (fun b => b.getLsbD (7 - (d.rpos + i) % 8)) =
            some (r.testBit (n.toNat - 1 - i))) ∧
    (8 * d.len < d.rpos + n.toNat → exec (.getBits n) s = .next (s.raise (.du d) .streamError))

/-- R92: Flush moves the cursor to the next whole byte, inside the buffer, and touches nothing else. That it runs as an
instruction of its own is the model's choice (log 11). -/
def Obligations.FlushPadsToAWholeByte : Prop :=
  ∀ (s : State) (c : CU), s.unit? = some (.cu c) → c.phase = .opened →
    ∃ p, p = (8 - c.wpos % 8) % 8 ∧
      exec .flush s = .next (s.answer (.cu { c with wpos := c.wpos + p }) .ok (.bits p)) ∧ (c.wpos + p) % 8 = 0 ∧
        p < 8 ∧ (c.wpos ≤ 8 * c.bufBytes → c.wpos + p ≤ 8 * c.bufBytes)

/-! ### The compressor unit -/

/-- R100, R104: ADDVALUE on an open unit appends the chosen code's bits when they fit, and no other; answers their number;
`storedVal` is the value, the window and `first` are as the code leaves them. -/
def Obligations.AddValueAppendsTheChosenCode : Prop :=
  ∀ (s : State) (c : CU) (v : U64) (i : Instr), s.unit? = some (.cu c) → c.phase = .opened → c.buf.WF →
    i = c.chosen v →
    c.wpos + c.lengthOf i ≤ 8 * c.bufBytes →
      ∃ c', exec (.addValue v) s =
          .next (s.answer (.cu c') .ok (.bits (c.lengthOf i))) ∧
        c' = { c with
          session := { codeNext i c.session with storedVal := v }, wpos := c'.wpos, buf := c'.buf } ∧
        c.Appended c' (c.bitsOf i) ∧ c'.buf.WF

/-- R81, R100: ADDVALUE on an open unit does what running the code it chooses does. That a code runs as an instruction of its
own is the model's choice (log 10). -/
def Obligations.AddValueRunsTheChosenCode : Prop :=
  ∀ (s : State) (c : CU) (v : U64), s.unit? = some (.cu c) → c.phase = .opened →
    exec (.addValue v) s = exec (c.chosen v) s

/-- R115 to R120: the CHIMP code of a value and the session it leaves, case by case in the order of the table, for every legal
`LR` and every `TZ_THRESHOLD` (R6 gives it 6, and so a unit has at its defaults); the payload fits its field in every case. -/
def Obligations.ChimpChoosesByTheTable : Prop :=
  (∀ vt : Variant, (CUConfig.default vt).tzThreshold = 6) ∧
  ∀ (g : CUConfig) (x : Session) (v : U64), g.variant = .chimp →
    let xor := x.storedVal ^^^ v
    let lz := leadRound g.leadRound (clz64 xor)
    let tz := ctz64 xor
    (x.first = true → selectCode g x v = .chimpFirst v ∧
        codeNext (.chimpFirst v) x = { x with storedVal := v, first := false }) ∧
    (x.first = false → xor = 0 → selectCode g x v = .chimpSame ∧
        codeNext .chimpSame x = { x with storedVal := v, lead := none, first := false }) ∧
    (x.first = false → xor ≠ 0 → g.tzThreshold < tz →
        ∃ sig : BitVec 6, sig.toNat = 64 - bucketCount lz - tz ∧ 1 ≤ sig.toNat ∧ sig.toNat ≤ 63 - g.tzThreshold ∧
          (xor >>> tz).toNat < 2 ^ sig.toNat ∧
          selectCode g x v = .chimpTrail lz sig (xor >>> tz) ∧
          codeNext (.chimpTrail lz sig (xor >>> tz)) x =
            { x with storedVal := v, lead := none, first := false }) ∧
    (x.first = false → xor ≠ 0 → tz ≤ g.tzThreshold → x.lead = some lz →
        xor.toNat < 2 ^ (64 - bucketCount lz) ∧ selectCode g x v = .chimpReuse xor ∧
          codeNext (.chimpReuse xor) x = { x with storedVal := v, first := false }) ∧
    (x.first = false → xor ≠ 0 → tz ≤ g.tzThreshold → x.lead ≠ some lz →
        xor.toNat < 2 ^ (64 - bucketCount lz) ∧ selectCode g x v = .chimpNewLead lz xor ∧
          codeNext (.chimpNewLead lz xor) x = { x with storedVal := v, lead := some lz, first := false })

/-- R125 to R131: the ELF code of a value and the session it leaves, case by case, for every legal `LR`; the payload fits its
field in every case, and a count of 16 or 64 centre bits is written as 0 (R77). -/
def Obligations.ElfChoosesByTheRules : Prop :=
  ∀ (g : CUConfig) (x : Session) (v : U64), g.variant = .elf →
    let xor := x.storedVal ^^^ v
    let lz := leadRound g.leadRound (clz64 xor)
    let tz := ctz64 xor
    let cb := 64 - bucketCount lz - tz
    (x.first = true →
        ∃ tz7 : BitVec 7, tz7.toNat = ctz64 v ∧ (v >>> ctz64 v).toNat < 2 ^ (64 - ctz64 v) ∧
          selectCode g x v = .elfFirst tz7 (v >>> ctz64 v) ∧
          codeNext (.elfFirst tz7 (v >>> ctz64 v)) x = { x with storedVal := v, first := false }) ∧
    (x.first = false → xor = 0 → selectCode g x v = .elfSame ∧
        codeNext .elfSame x = { x with storedVal := v, first := false }) ∧
    (∀ t : Fin 64, x.first = false → xor ≠ 0 → x.lead = some lz → x.trail = some t → t.val ≤ tz →
        (xor >>> t.val).toNat < 2 ^ (64 - bucketCount lz - t.val) ∧ selectCode g x v = .elfReuse (xor >>> t.val) ∧
          codeNext (.elfReuse (xor >>> t.val)) x = { x with storedVal := v, first := false }) ∧
    (x.first = false → xor ≠ 0 → ¬ (x.lead = some lz ∧ ∃ t : Fin 64, x.trail = some t ∧ t.val ≤ tz) →
        1 ≤ cb ∧ cb ≤ 64 ∧ (xor >>> tz).toNat < 2 ^ cb ∧
        (cb ≤ 16 →
          ∃ cb4 : BitVec 4, cb4.toNat = cb % 16 ∧ centreOf4 cb4 = cb ∧
            selectCode g x v = .elfNewShort lz cb4 (xor >>> tz) ∧
            codeNext (.elfNewShort lz cb4 (xor >>> tz)) x =
              ⟨v, some lz, some (Fin.ofNat 64 tz), false⟩) ∧
        (16 < cb →
          ∃ cb6 : BitVec 6, cb6.toNat = cb % 64 ∧ centreOf6 cb6 = cb ∧
            selectCode g x v = .elfNewLong lz cb6 (xor >>> tz) ∧
            codeNext (.elfNewLong lz cb6 (xor >>> tz)) x =
              ⟨v, some lz, some (Fin.ofNat 64 tz), false⟩))

/-- R101, R104, R121, R132: CLOSE on an open unit appends the sentinel's code, the guard bits and the pad, all else in the
buffer as before, goes to phase CLOSED at a whole byte, and answers the count without the pad. -/
def Obligations.CloseEndsTheBlock : Prop :=
  ∀ (s : State) (c : CU) (i : Instr), s.unit? = some (.cu c) → c.phase = .opened → c.buf.WF →
    i = c.chosen c.cfg.endSign →
    c.wpos + c.lengthOf i + c.cfg.guardBits ≤ 8 * c.bufBytes →
      ∃ c1 c2, c.Appended c1 (c.bitsOf i ++ List.replicate (c.cfg.guardBits) false) ∧
        c1.buf.WF ∧
        c2 = { c with
          session := { codeNext i c.session with storedVal := c.cfg.endSign }
          phase := .closed
          wpos := c1.wpos + (8 - c1.wpos % 8) % 8
          buf := c1.buf } ∧
        exec .close s = .next (s.answer (.cu c2) .ok
          (.bits (c.lengthOf i + c.cfg.guardBits)))

/-- R102, R139: REFRESH of either kind of unit, in every phase and every state. -/
def Obligations.RefreshRestoresTheSession : Prop :=
  (∀ (s : State) (c : CU), s.unit? = some (.cu c) →
    exec .refreshCU s = .next (s.answer
      (.cu { cfg := c.cfg
             session := { storedVal := 0, lead := none, trail := none, first := true }
             phase := .opened, faultCode := none, wpos := 0, buf := [] }) .ok .none)) ∧
  (∀ (s : State) (d : DU), s.unit? = some (.du d) →
    exec .refreshDU s = .next (s.answer
      (.du { d with
        session := { storedVal := 0, lead := none, trail := none, first := true }
        ended := false, faulted := false, faultCode := none }) .ok .none))

/-- R105: GETBUF on a closed unit answers bytes 0 to wpos/8 - 1 of the buffer, and changes nothing; in any other phase it is
refused. -/
def Obligations.GetBufReturnsTheBlock : Prop :=
  ∀ (s : State) (c : CU), s.unit? = some (.cu c) →
    (c.phase = .closed → c.wpos ≤ 8 * c.bufBytes →
      exec .getBuf s = .next { s with
        out := ⟨s.sel, .ok, c.statusWord, .bytes ((List.range (c.wpos / 8)).map fun a => c.buf.read a)⟩ :: s.out }) ∧
    (c.phase ≠ .closed → exec .getBuf s = .next (s.refuse (.cu c)))

/-- R115 to R131, emit side: a well-formed XOR code run on an open compressor unit of its variant, at its place in the
block and in a window it fits, appends its bits when they fit and leaves the session that the code leaves. That a code runs as
an instruction of its own is the model's choice (log 10). -/
def Obligations.WireCodesAreEmitted : Prop :=
  ∀ (s : State) (c : CU) (i : Instr), s.unit? = some (.cu c) → c.phase = .opened → c.buf.WF →
    i.codePlace = some (c.cfg.variant, c.session.first) → i.wellFormed = true →
    i.fitsWindow c.session.lead c.session.trail = true →
    c.wpos + c.lengthOf i ≤ 8 * c.bufBytes →
      ∃ c', exec i s = .next (s.answer (.cu c') .ok (.bits (c.lengthOf i))) ∧
        c' = { c with session := codeNext i c.session, wpos := c'.wpos, buf := c'.buf } ∧
        c.Appended c' (c.bitsOf i) ∧ c'.buf.WF

/-- R73, R74, R88: a mode mark on a compressor unit is the PUTBITS command that the spec expands it to. That a mark runs as an
instruction of its own is the model's choice (log 10). -/
def Obligations.ModeMarksAreWrittenWithPutBits : Prop :=
  ∀ (s : State) (c : CU) (betaStar : BitVec 4), s.unit? = some (.cu c) →
    exec .orchRaw s = exec (.putBitsCommand 0 1) s ∧
      exec (.orchDec betaStar) s = exec (.putBitsCommand (BitVec.ofNat 64 (16 + betaStar.toNat)) 5) s

/-! ### The decompressor unit -/

/-- R135: SETBYTES, refused only in the faulted state, copies and binds the source and rewinds the cursor. -/
def Obligations.SetBytesBindsTheSource : Prop :=
  ∀ (s : State) (d : DU) (b : List Byte), s.unit? = some (.du d) →
    (d.faulted = false →
      exec (.setBytes b) s = .next (s.answer (.du { d with src := b, rpos := 0, bound := true }) .ok .none)) ∧
    (d.faulted = true → exec (.setBytes b) s = .next (s.refuse (.du d)))

/-- R136: READVALUE runs the code that stands at the cursor, whole: the session the code leaves, the cursor past it, the
value or END; running that code as an instruction (log 10, the model's choice) does the same. Where no code stands there it
raises STREAM_ERROR or MALFORMED_CODE. -/
def Obligations.ReadValueRunsTheCodeAhead : Prop :=
  ∀ (s : State) (d : DU), s.unit? = some (.du d) → d.ready = true →
    (∀ i, d.fetchCode = .ok i →
      exec .readValue s = exec i s ∧
        exec .readValue s =
          .next (s.delivered d (d.lengthOf i) (codeNext i d.session))) ∧
    (∀ e, d.fetchCode = .error e →
      exec .readValue s =
        .next (s.raise (.du d) (if e = .streamEnds then .streamError else .malformedCode)))

/-- R150, R152 to R155: each CHIMP code run on a decompressor unit at its place, with the whole code in the source: the
value from the fields, the window register, the cursor. That a code runs as an instruction of its own is the model's choice
(log 10). -/
def Obligations.ChimpCodesExecute : Prop :=
  ∀ (s : State) (d : DU), s.unit? = some (.du d) → d.ready = true → d.cfg.variant = .chimp →
    (∀ raw : U64, d.session.first = true → d.rpos + 64 ≤ 8 * d.len →
      exec (.chimpFirst raw) s = .next (s.delivered d 64 { d.session with storedVal := raw, first := false })) ∧
    (d.session.first = false → d.rpos + 2 ≤ 8 * d.len →
      exec .chimpSame s = .next (s.delivered d 2 { d.session with lead := none })) ∧
    (∀ (lz : Bucket) (sig : BitVec 6) (p : U64), d.session.first = false → 1 ≤ sig.toNat →
      bucketCount lz + sig.toNat ≤ 64 → p.toNat < 2 ^ sig.toNat → d.rpos + 11 + sig.toNat ≤ 8 * d.len →
      exec (.chimpTrail lz sig p) s = .next (s.delivered d (11 + sig.toNat)
        { d.session with storedVal := d.session.storedVal ^^^ p <<< (64 - bucketCount lz - sig.toNat), lead := none })) ∧
    (∀ (b : Bucket) (p : U64), d.session.first = false → d.session.lead = some b →
      p.toNat < 2 ^ (64 - bucketCount b) → d.rpos + 2 + (64 - bucketCount b) ≤ 8 * d.len →
      exec (.chimpReuse p) s = .next (s.delivered d (2 + (64 - bucketCount b))
        { d.session with storedVal := d.session.storedVal ^^^ p })) ∧
    (∀ (lz : Bucket) (p : U64), d.session.first = false → p.toNat < 2 ^ (64 - bucketCount lz) →
      d.rpos + 5 + (64 - bucketCount lz) ≤ 8 * d.len →
      exec (.chimpNewLead lz p) s = .next (s.delivered d (5 + (64 - bucketCount lz))
        { d.session with storedVal := d.session.storedVal ^^^ p, lead := some lz }))

/-- R160, R162 to R165: each ELF code run on a decompressor unit at its place, with the whole code in the source. That a code
runs as an instruction of its own is the model's choice (log 10). -/
def Obligations.ElfCodesExecute : Prop :=
  ∀ (s : State) (d : DU), s.unit? = some (.du d) → d.ready = true → d.cfg.variant = .elf →
    (∀ (tz7 : BitVec 7) (p : U64), d.session.first = true → tz7.toNat ≤ 64 → p.toNat < 2 ^ (64 - tz7.toNat) →
      d.rpos + 7 + (64 - tz7.toNat) ≤ 8 * d.len →
      exec (.elfFirst tz7 p) s = .next (s.delivered d (7 + (64 - tz7.toNat))
        { d.session with storedVal := p <<< tz7.toNat, first := false })) ∧
    (d.session.first = false → d.rpos + 2 ≤ 8 * d.len →
      exec .elfSame s = .next (s.delivered d 2 d.session)) ∧
    (∀ (b : Bucket) (t : Fin 64) (p : U64), d.session.first = false → d.session.lead = some b →
      d.session.trail = some t → p.toNat < 2 ^ (64 - bucketCount b - t.val) →
      d.rpos + 2 + (64 - bucketCount b - t.val) ≤ 8 * d.len →
      exec (.elfReuse p) s = .next (s.delivered d (2 + (64 - bucketCount b - t.val))
        { d.session with storedVal := d.session.storedVal ^^^ p <<< t.val })) ∧
    (∀ (lz : Bucket) (cb4 : BitVec 4) (p : U64), d.session.first = false → p.toNat < 2 ^ centreOf4 cb4 →
      d.rpos + 9 + centreOf4 cb4 ≤ 8 * d.len →
      exec (.elfNewShort lz cb4 p) s = .next (s.delivered d (9 + centreOf4 cb4)
        ⟨d.session.storedVal ^^^ p <<< (64 - bucketCount lz - centreOf4 cb4), some lz,
          some (Fin.ofNat 64 (64 - bucketCount lz - centreOf4 cb4)), false⟩)) ∧
    (∀ (lz : Bucket) (cb6 : BitVec 6) (p : U64), d.session.first = false → bucketCount lz + centreOf6 cb6 ≤ 64 →
      p.toNat < 2 ^ centreOf6 cb6 → d.rpos + 11 + centreOf6 cb6 ≤ 8 * d.len →
      exec (.elfNewLong lz cb6 p) s = .next (s.delivered d (11 + centreOf6 cb6)
        ⟨d.session.storedVal ^^^ p <<< (64 - bucketCount lz - centreOf6 cb6), some lz,
          some (Fin.ofNat 64 (64 - bucketCount lz - centreOf6 cb6)), false⟩))

/-- R138: DECOMPX answers the values that decoding over and over gives before the sentinel, or takes the fault that it
meets. -/
def Obligations.DecompXCollectsTheValues : Prop :=
  ∀ (s : State) (d : DU), s.unit? = some (.du d) → d.ready = true →
    (∀ vs d', DecodesTo DU.xorDecode d vs d' → exec .decompX s = .next (s.answer (.du d') .ok (.values vs))) ∧
    (∀ f, DecodesInto DU.xorDecode d f → exec .decompX s = .next (s.raise (.du d) f))

/-- R176: DECOMPE, the same through the mode marks. -/
def Obligations.DecompECollectsTheValues : Prop :=
  ∀ (s : State) (d : DU), s.unit? = some (.du d) → d.ready = true →
    (∀ vs d', DecodesTo DU.orchDecode d vs d' → exec .decompE s = .next (s.answer (.du d') .ok (.values vs))) ∧
    (∀ f, DecodesInto DU.orchDecode d f → exec .decompE s = .next (s.raise (.du d) f))

/-- R138, R176: bulk decoding always comes to the sentinel, after at most 4 * LEN values, or to a fault. -/
def Obligations.BulkDecodingTerminates : Prop :=
  ∀ d : DU,
    ((∃ vs d', DecodesTo DU.xorDecode d vs d' ∧ vs.length ≤ 4 * d.len) ∨ ∃ f, DecodesInto DU.xorDecode d f) ∧
    ((∃ vs d', DecodesTo DU.orchDecode d vs d' ∧ vs.length ≤ 4 * d.len) ∨ ∃ f, DecodesInto DU.orchDecode d f)

/-! ### The orchestrator -/

/-- R170, R171, R175: after the mark `0`, NEXTVALUE answers the pattern of the XOR code, or END, bit for bit; so does
ORCH.RAW run as an instruction (log 10, the model's choice). -/
def Obligations.RawModePassesThePatternThrough : Prop :=
  ∀ (s : State) (d : DU) (rest : List Bool) (i : Instr), s.unit? = some (.du d) → d.ready = true →
    decodeMode d.stream = .ok (.orchRaw, rest) → (d.advance 1).fetchCode = .ok i →
      exec .nextValue s = .next (s.delivered (d.advance 1) (d.lengthOf i)
          (codeNext i d.session)) ∧
        exec .orchRaw s = exec .nextValue s

/-- R170, R172, R175, R200: after the mark `1` and betaStar, NEXTVALUE reconstructs the value from the proxy that the XOR
code gives; `storedVal` is the proxy; the sentinel is END whatever betaStar is; a proxy outside the domain is RECON_DOMAIN:
of the two treatments that R179 and U8 leave a model, the fault and a free result, this model takes the fault (log 18). So
does ORCH.DEC run as an instruction (log 10, the model's choice). -/
def Obligations.DecimalModeReconstructsTheValue : Prop :=
  ∀ (s : State) (d : DU) (rest : List Bool) (betaStar : BitVec 4) (i : Instr) (x : Session),
    s.unit? = some (.du d) → d.ready = true →
    decodeMode d.stream = .ok (.orchDec betaStar, rest) → (d.advance 5).fetchCode = .ok i →
    x = codeNext i d.session →
      exec (.orchDec betaStar) s = exec .nextValue s ∧
      (x.storedVal = d.cfg.endSign → exec .nextValue s =
        .next (s.delivered (d.advance 5) (d.lengthOf i) x)) ∧
      (∀ v, x.storedVal ≠ d.cfg.endSign → reconstruct d.cfg betaStar x.storedVal = some v →
        exec .nextValue s = .next (s.answer
          (.du { d with session := x, rpos := d.rpos + 5 + d.lengthOf i })
          .ok (.value v))) ∧
      (x.storedVal ≠ d.cfg.endSign → reconstruct d.cfg betaStar x.storedVal = none →
        exec .nextValue s = .next (s.raise (.du d) .reconDomain))

/-- R170, R136, R196, R199: NEXTVALUE raises STREAM_ERROR when no whole mark is left, and the XOR layer's fault when no code
stands after the mark. -/
def Obligations.NextValueFaultsOnABadStream : Prop :=
  ∀ (s : State) (d : DU), s.unit? = some (.du d) → d.ready = true →
    (∀ e, decodeMode d.stream = .error e → exec .nextValue s = .next (s.raise (.du d) .streamError)) ∧
    (∀ rest e, decodeMode d.stream = .ok (.orchRaw, rest) → (d.advance 1).fetchCode = .error e →
      exec .nextValue s = .next (s.raise (.du d) (if e = .streamEnds then .streamError else .malformedCode))) ∧
    (∀ rest b e, decodeMode d.stream = .ok (.orchDec b, rest) → (d.advance 5).fetchCode = .error e →
      exec .nextValue s = .next (s.raise (.du d) (if e = .streamEnds then .streamError else .malformedCode)))

/-! ### Refusals and faults -/

/-- R197, R204: a command is refused exactly on the listed causes; the response then says so with the unit's unchanged status
word and no result, and nothing else changes. -/
def Obligations.RefusalsAreTheTabledOnes : Prop :=
  ∀ (s : State) (c : Command) (rest : List HostEvent) (u : CodecUnit),
    s.pending = .command c :: rest → s.units[c.unit]? = some u →
      (step s = .next { s with
          pending := rest
          sel := c.unit
          out := ⟨c.unit, .refused, u.statusWord, .none⟩ :: s.out } ↔
        match decodeCommand u.kind c with
        | .ok i => i.refusedOn u = true
        | .error _ => True)

/-- R203: what taking a terminal fault defines, that the unit's cursor and buffer stay inside their types (R21, R22; log 7),
and that the rest of the engine stays. -/
def Obligations.FaultEntrySetsTheFaultState : Prop :=
  ∀ (s : State) (u : CodecUnit) (f : TerminalFault), s.unit? = some u →
    (∃ w, (s.raise u f).units = s.units.set s.sel w ∧
      (s.raise u f).out = ⟨s.sel, .fault, w.statusWord, .none⟩ :: s.out ∧ (s.raise u f).pending = s.pending ∧
      (∀ c, u = .cu c → ∃ c', w = .cu c' ∧ c'.cfg = c.cfg ∧ c'.phase = .faulted ∧ c'.faultCode = some f ∧
        c'.wpos ≤ 8 * c'.bufBytes ∧ c'.buf.WF ∧ ∀ x ∈ c'.buf, x.1 < c'.bufBytes) ∧
      (∀ d, u = .du d → ∃ d', w = .du d' ∧ d'.cfg = d.cfg ∧ d'.faulted = true ∧ d'.faultCode = some f ∧
        d'.bound = false ∧ d'.rpos ≤ 8 * d'.len))

/-- R198, R202: ADDVALUE and CLOSE whose bits do not fit raise BUFFER_OVERFLOW. -/
def Obligations.CodesPastTheBufferOverflow : Prop :=
  ∀ (s : State) (c : CU), s.unit? = some (.cu c) → c.phase = .opened → c.wpos ≤ 8 * c.bufBytes →
    (∀ v, 8 * c.bufBytes <
        c.wpos + c.lengthOf (c.chosen v) →
      exec (.addValue v) s = .next (s.raise (.cu c) .bufferOverflow)) ∧
    (8 * c.bufBytes < c.wpos +
        c.lengthOf (c.chosen c.cfg.endSign) +
          c.cfg.guardBits →
      exec .close s = .next (s.raise (.cu c) .bufferOverflow))

/-- R205, R207: in the fault state every command but REFRESH is refused and leaves the unit as it is. REFRESH restores the
session registers, clears the fault, and of a compressor unit the buffer and the cursor; hardware reset does the same and
unbinds the source. -/
def Obligations.FaultStandsUntilRefresh : Prop :=
  (∀ (s t : State) (c : Command) (rest : List HostEvent) (u : CodecUnit),
    s.pending = .command c :: rest → s.units[c.unit]? = some u → u.isFaulted = true → step s = .next t →
      (c.cmd ≠ 0x3 → t.units = s.units ∧ t.out = ⟨c.unit, .refused, u.statusWord, .none⟩ :: s.out) ∧
      (c.cmd = 0x3 → t.units[c.unit]? = some u.refreshed ∧
        t.out = ⟨c.unit, .ok, u.refreshed.statusWord, .none⟩ :: s.out)) ∧
  (∀ c : CU, CodecUnit.refreshed (.cu c) = .cu (.reset c.cfg) ∧ CodecUnit.hardReset (.cu c) = .cu (.reset c.cfg)) ∧
  (∀ d : DU,
    CodecUnit.refreshed (.du d) =
      .du ⟨d.cfg, ⟨0, none, none, true⟩, d.src, d.rpos, d.bound, false, false, none⟩ ∧
    CodecUnit.hardReset (.du d) = .du ⟨d.cfg, ⟨0, none, none, true⟩, [], 0, false, false, false, none⟩)

/-- Where an instruction stops by name (log 10, log 11, log 14, log 15, the model's choices). The unit is not there. An XOR
code is away from its place; or it is at its place with a payload that does not fit its field (R89), on either kind of unit;
or it is a reserved encoding (R82) on a compressor unit, which never emits one. A mode mark, or a primitive, is away from its
place; a primitive is called outside its contract (R90, R91). GETBUF reaches past the buffer. -/
def Obligations.StopsAreWhereTheyAreNamed : Prop :=
  (∀ (i : Instr) (s : State), s.unit? = none → exec i s = .fault .noSuchUnit) ∧
  (∀ (i : Instr) (s : State) (c : CU), s.unit? = some (.cu c) → i.codePlace ≠ none →
    (c.phase ≠ .opened ∨ i.codePlace ≠ some (c.cfg.variant, c.session.first) → exec i s = .refused .outOfPlace) ∧
    (c.phase = .opened → i.codePlace = some (c.cfg.variant, c.session.first) →
      (i.reservedIn c.session.lead c.session.trail = true → exec i s = .refused .reservedCode) ∧
      (i.reservedIn c.session.lead c.session.trail = false →
        ¬ (i.wellFormed = true ∧ i.fitsWindow c.session.lead c.session.trail = true) →
        exec i s = .refused .operandTooWide))) ∧
  (∀ (i : Instr) (s : State) (d : DU), s.unit? = some (.du d) → i.codePlace ≠ none →
    (d.ready = false ∨ i.codePlace ≠ some (d.cfg.variant, d.session.first) → exec i s = .refused .outOfPlace) ∧
    (d.ready = true → i.codePlace = some (d.cfg.variant, d.session.first) →
      i.reservedIn d.session.lead d.session.trail = false →
      ¬ (i.wellFormed = true ∧ i.fitsWindow d.session.lead d.session.trail = true) →
      exec i s = .refused .operandTooWide)) ∧
  (∀ (s : State) (c : CU), s.unit? = some (.cu c) →
    (∀ n : BitVec 7, exec (.getBits n) s = .refused .outOfPlace) ∧
    (c.phase ≠ .opened →
      (∀ (v : U64) (n : BitVec 7), exec (.putBits v n) s = .refused .outOfPlace) ∧
        exec .flush s = .refused .outOfPlace) ∧
    (c.phase = .opened → ∀ (v : U64) (n : BitVec 7), ¬ (n.toNat ≤ 64 ∧ v.toNat < 2 ^ n.toNat) →
      exec (.putBits v n) s = .refused .operandTooWide)) ∧
  (∀ (s : State) (d : DU), s.unit? = some (.du d) →
    (∀ (v : U64) (n : BitVec 7), exec (.putBits v n) s = .refused .outOfPlace) ∧
    exec .flush s = .refused .outOfPlace ∧
    (d.ready = false →
      (∀ n : BitVec 7, exec (.getBits n) s = .refused .outOfPlace) ∧ exec .orchRaw s = .refused .outOfPlace ∧
        ∀ b : BitVec 4, exec (.orchDec b) s = .refused .outOfPlace) ∧
    (d.ready = true → ∀ n : BitVec 7, 64 < n.toNat → exec (.getBits n) s = .refused .operandTooWide)) ∧
  (∀ (s : State) (c : CU), s.unit? = some (.cu c) → c.phase = .closed → c.bufBytes < c.wpos / 8 →
    exec .getBuf s = .fault .outsideBuffer)

/-! ### Decimal numerics -/

/-- R185: every GetSP a unit can have (R6) is the exact decimal exponent of the magnitude of a finite nonzero double, and
lies in -324 .. 308. -/
def Obligations.GetSPIsTheExactDecimalExponent : Prop :=
  ∀ (c : GetSPChoice) (p : U64), regular p = true →
    (10 : ℚ) ^ getSP c (absPattern p) ≤ (magnitude (absPattern p)).toRat ∧
      (magnitude (absPattern p)).toRat < (10 : ℚ) ^ (getSP c (absPattern p) + 1) ∧
        -324 ≤ getSP c (absPattern p) ∧ getSP c (absPattern p) ≤ 308

/-- R190 and the conventions of spec/48_decimal_numerics.md: `fl` of a positive rational is the nearest double, ties to the
even fraction, and infinity exactly from the middle between the largest double and 2^1024 on. -/
def Obligations.RoundingGivesTheNearestDouble : Prop :=
  ∀ a : Ratio, 0 < a.num → 0 < a.den →
    (nearestDouble a = infinity ↔ ((2 : ℚ) ^ 54 - 1) * 2 ^ 970 ≤ a.toRat) ∧
      (nearestDouble a ≠ infinity → NearestTo (nearestDouble a) a.toRat)

/-- R186: every P10 a unit can have (R6) gives at n the double nearest to 10^n, finite and nonzero, for -323 <= n <= 308;
exact from 0 to 22, subnormal from -323 to -308. -/
def Obligations.PowersOfTenAreTheNearestDoubles : Prop :=
  (∀ (c : P10Choice) (n : Int), -323 ≤ n → n ≤ 308 → NearestTo (p10 c n) ((10 : ℚ) ^ n) ∧ p10 c n ≠ 0) ∧
  (∀ (c : P10Choice) (n : Int), 0 ≤ n → n ≤ 22 → (magnitude (p10 c n)).toRat = (10 : ℚ) ^ n) ∧
  (∀ (c : P10Choice) (n : Int), -323 ≤ n → n ≤ -308 → expField (p10 c n) = 0)

/-- R189 property 2, of every RoundDec a unit can have, the reference (R188) or another (R187, log 8): sign symmetry. -/
def Obligations.RoundDecIsSignSymmetric : Prop :=
  ∀ (g : DUConfig) (x : U64) (alpha : Int),
    roundDec g (x ^^^ 0x8000000000000000#64) alpha = roundDec g x alpha ^^^ 0x8000000000000000#64

/-- R189 properties 3 and 4, of every RoundDec a unit can have (R187, log 8): a grid value of either sign whose scaling is
exact is kept, and the source's example has its value. The reference keeps grid values for alpha from 0 on only: below 0 R188,
as it is written, misses some (log 23). -/
def Obligations.RoundDecKeepsGridValues : Prop :=
  (∀ (g : DUConfig) (neg : Bool) (x : U64) (m : Nat) (alpha : Int), -323 ≤ alpha → alpha ≤ 308 →
    (g.roundDec = .reference → 0 ≤ alpha) → m < 2 ^ 53 →
    x = withSign neg (nearestDouble (Ratio.div ⟨m, 1⟩ (magnitude (p10 g.p10 alpha)))) →
    nearestDouble ((magnitude x).mul (magnitude (p10 g.p10 alpha))) = nearestDouble ⟨m, 1⟩ →
      roundDec g x alpha = x) ∧
  ∀ g : DUConfig, roundDec g 0x4037733000000000#64 2 = 0x4037733333333333#64

/-- R172 to R174, R179: the reconstruction of a proxy: its domain, the power-of-ten path with the proxy's sign, the
rounding path. Two clauses rest on an option this model takes: none outside the domain, where R179 and U8 let a model leave
the result free (log 18), and the exponent -sp - 1 of R173, which U12 lets a model make a parameter (log 19). -/
def Obligations.ReconstructionFollowsThePipeline : Prop :=
  ∀ (g : DUConfig) (b : BitVec 4) (p : U64) (sp : Int), sp = getSP g.getSP (absPattern p) →
    (expField p = 2047 ∨ p.toNat % 2 ^ 63 = 0 → reconstruct g b p = none) ∧
    (expField p ≠ 2047 → p.toNat % 2 ^ 63 ≠ 0 → b = 0 →
      (-323 ≤ -sp - 1 ∧ -sp - 1 ≤ 308 →
        reconstruct g b p =
          some (if p.getLsbD 63 then p10 g.p10 (-sp - 1) ||| 0x8000000000000000#64 else p10 g.p10 (-sp - 1))) ∧
      (¬ (-323 ≤ -sp - 1 ∧ -sp - 1 ≤ 308) → reconstruct g b p = none)) ∧
    (expField p ≠ 2047 → p.toNat % 2 ^ 63 ≠ 0 → b ≠ 0 →
      (-323 ≤ (b.toNat : Int) - sp - 1 ∧ (b.toNat : Int) - sp - 1 ≤ 308 →
        reconstruct g b p = some (roundDec g p ((b.toNat : Int) - sp - 1))) ∧
      (¬ (-323 ≤ (b.toNat : Int) - sp - 1 ∧ (b.toNat : Int) - sp - 1 ≤ 308) → reconstruct g b p = none))

/-! ### Headlines -/

/-- R24, R25, R33, R40, R46, R136, R203: every step keeps every unit well kept. -/
def Obligations.EveryStepKeepsTheInvariant : Prop :=
  ∀ s t : State, s.Inv → step s = .next t → t.Inv

/-- The same for every instruction run on the addressed unit, wire codes and primitives among them. -/
def Obligations.EveryInstructionKeepsTheInvariant : Prop :=
  ∀ (i : Instr) (s t : State), s.Inv → exec i s = .next t → t.Inv

/-- R137: the mirror property. A decompressor unit with the session of a compressor unit of the same variant and `LC`, and
the code that the compressor appends for a value at its cursor, reconstructs that value (or says END, if it is the sentinel)
and ends in the compressor's session. -/
def Obligations.DecodingMirrorsEncoding : Prop :=
  ∀ (c c' : CU) (d : DU) (v : U64) (n : Nat) (rest : List Bool),
    c.append v = .ok (c', n) → d.cfg.variant = c.cfg.variant → d.cfg.leadCode = c.cfg.leadCode → d.session = c.session →
    d.stream = c.bitsOf (c.chosen v) ++ rest →
      ∃ d', d.xorDecode = .ok (if v = d.cfg.endSign then .eos else .value v, d') ∧ d'.session = c'.session ∧
        d'.rpos = d.rpos + n ∧ d'.stream = rest ∧ d'.src = d.src ∧ d'.cfg = d.cfg

/-- R140: the round trip. Whenever COMPRESS of values none of which is END_SIGN returns bytes, DECOMPRESS of those bytes on
a unit of the same VARIANT and END_SIGN, and of the same LC (a constant of the format, R7), returns the values, whatever the
two units went through before. -/
def Obligations.DecompressInvertsCompress : Prop :=
  ∀ (s t : State) (j k : Nat) (c : CU) (d : DU) (vs : List U64) (stat : BitVec 8) (b : List Byte),
    s.units[j]? = some (.cu c) → s.units[k]? = some (.du d) → d.cfg.variant = c.cfg.variant →
    d.cfg.endSign = c.cfg.endSign → d.cfg.leadCode = c.cfg.leadCode → c.cfg.endSign ∉ vs →
    s.runScript (compressScript j vs) = .next t → t.out.head? = some ⟨j, .ok, stat, .bytes b⟩ →
      ∃ t', t.runScript (decompressScript k b) = .next t' ∧ t'.out.head? = some ⟨k, .ok, 0x03#8, .values vs⟩

/-- R229: a block of at most CAPACITY values, written without PUTBITS, never overflows, in either variant, on a unit whose
buffer has the size that R40 gives its capacity and whose guard is R6's; at the defaults it is so. -/
def Obligations.BlocksWithinCapacityNeverOverflow : Prop :=
  (∀ (vt : Variant) (n : Nat), (CUConfig.sized vt n).capacity = n ∧
    (CUConfig.sized vt n).bufBytes = (6 * ((n + 1) * 8 + n / 8 + 1) + 4) / 5 ∧
    (CUConfig.sized vt n).guardBits = guardBits vt) ∧
  ∀ (s : State) (j : Nat) (c : CU) (vs : List U64), s.units[j]? = some (.cu c) →
    c.cfg.bufBytes = bufBytes c.cfg.capacity → c.cfg.guardBits = guardBits c.cfg.variant →
    vs.length ≤ c.cfg.capacity →
    ∃ t b, s.runScript (compressScript j vs) = .next t ∧ t.out.head? = some ⟨j, .ok, 0x01#8, .bytes b⟩

/-- R106: the bytes that GETBUF returns depend on the variant, the sentinel and the ADDVALUE and PUTBITS operands since
REFRESH or reset alone (the tables, the threshold and the guard of R6 being the same in both units, as R7 has them): not on
what the unit did before, nor on which unit it is, nor on the rest of the engine, nor on CAPACITY and the buffer's size. -/
def Obligations.BytesDependOnTheOperandsAlone : Prop :=
  ∀ (s t s' t' : State) (j k : Nat) (c c' : CU) (start start' is : List Instr) (w w' : BitVec 8) (b b' : List Byte),
    s.units[j]? = some (.cu c) → t.units[k]? = some (.cu c') →
    c'.cfg = { c.cfg with capacity := c'.cfg.capacity, bufBytes := c'.cfg.bufBytes } →
    (start = [Instr.refreshCU] ∨ start = [] ∧ c = .reset c.cfg) →
    (start' = [Instr.refreshCU] ∨ start' = [] ∧ c' = .reset c'.cfg) →
    (∀ i ∈ is, (∃ v, i = .addValue v) ∨ ∃ v n, i = .putBitsCommand v n) →
    s.runScript (script j (start ++ (is ++ [Instr.close, Instr.getBuf]))) = .next s' →
    t.runScript (script k (start' ++ (is ++ [Instr.close, Instr.getBuf]))) = .next t' →
    s'.out.head? = some ⟨j, .ok, w, .bytes b⟩ → t'.out.head? = some ⟨k, .ok, w', .bytes b'⟩ → b = b'

/-- R107: compressing one block after another, with REFRESH between, answers for the second what a unit fresh from reset
answers for it alone. -/
def Obligations.ReuseIsLikeAFreshUnit : Prop :=
  ∀ (s t s' t' : State) (j k : Nat) (c : CU) (as bs : List U64),
    s.units[j]? = some (.cu c) → t.units[k]? = some (.cu (.reset c.cfg)) →
    s.runScript (script j (as.map Instr.addValue ++ Instr.close :: Instr.refreshCU ::
      (bs.map Instr.addValue ++ [Instr.close, Instr.getBuf]))) =
      .next s' →
    t.runScript (script k (bs.map Instr.addValue ++ [Instr.close, Instr.getBuf])) = .next t' →
      (s'.answers (bs.length + 2)).map Prod.snd = (t'.answers (bs.length + 2)).map Prod.snd

/-- R206, R226: a data value equal to END_SIGN is encoded like any other, and the decoder ends there: the values before it
are returned, those after it are not. -/
def Obligations.SentinelInDataEndsTheStream : Prop :=
  ∀ (s t : State) (j k : Nat) (c : CU) (d : DU) (vs ws : List U64) (stat : BitVec 8) (b : List Byte),
    s.units[j]? = some (.cu c) → s.units[k]? = some (.du d) → d.cfg.variant = c.cfg.variant →
    d.cfg.endSign = c.cfg.endSign → d.cfg.leadCode = c.cfg.leadCode → c.cfg.endSign ∉ vs →
    s.runScript (compressScript j (vs ++ c.cfg.endSign :: ws)) = .next t →
    t.out.head? = some ⟨j, .ok, stat, .bytes b⟩ →
      (∀ r ∈ t.answers (vs.length + ws.length + 4), r.2.1 = .ok) ∧
      ∃ t', t.runScript (decompressScript k b) = .next t' ∧ t'.out.head? = some ⟨k, .ok, 0x03#8, .values vs⟩

/-- R84: what stands in the source after the sentinel's code is never looked at: any source with the same bits up to there
decodes the same, at both levels. -/
def Obligations.BitsAfterTheSentinelAreIgnored : Prop :=
  ∀ (d d' : DU) (vs : List U64) (src : List Byte), d'.rpos ≤ 8 * src.length →
    (bytesBits src).take d'.rpos = (bytesBits d.src).take d'.rpos →
      (DecodesTo DU.xorDecode d vs d' → DecodesTo DU.xorDecode { d with src := src } vs { d' with src := src }) ∧
      (DecodesTo DU.orchDecode d vs d' → DecodesTo DU.orchDecode { d with src := src } vs { d' with src := src })
end

