-- ==== Sys2Proof/Laws/Memory.lean ====
section
/-! SUPPORT. The block buffer: a read after a write, the canonical form that every operation keeps, and the bits that
PutBits writes (spec/20_memory.md R41, R42, 40_bitstream.md R90). -/

namespace Sys2Proof.Machine

/-! ### Bytes -/

/-- Every listed address of a canonical buffer's tail is above its head. -/
theorem wf_head_lt {x : Host.Cell} {m : Memory} (h : Memory.WF (x :: m)) : ∀ y ∈ m, x.1 < y.1 :=
  (List.pairwise_cons.mp h.1).1

theorem wf_tail {x : Host.Cell} {m : Memory} (h : Memory.WF (x :: m)) : Memory.WF m :=
  ⟨(List.pairwise_cons.mp h.1).2, fun y hy => h.2 y (List.mem_cons_of_mem _ hy)⟩

theorem wf_cons {x : Host.Cell} {m : Memory} (h : Memory.WF m) (hx : x.2 ≠ 0) (hlt : ∀ y ∈ m, x.1 < y.1) :
    Memory.WF (x :: m) := by
  refine ⟨List.pairwise_cons.mpr ⟨hlt, h.1⟩, ?_⟩
  intro y hy
  rcases List.mem_cons.mp hy with rfl | hy
  · exact hx
  · exact h.2 y hy

@[simp] theorem wf_nil : Memory.WF [] := by simp [Memory.WF]

/-- An address below every listed one reads 0. -/
theorem read_below : ∀ {m : Memory} {a : Nat}, (∀ y ∈ m, a < y.1) → Memory.read m a = 0
  | [], _, _ => rfl
  | (x, y) :: m, a, h => by
      have hx : a < x := h (x, y) (by simp)
      have hm : ∀ z ∈ m, a < z.1 := fun z hz => h z (by simp [hz])
      simp [Memory.read, Nat.ne_of_gt hx, read_below hm]

/-- What a write lists is what was listed, or the cell written. -/
theorem mem_write : ∀ {m : Memory} {a : Nat} {b : Byte} {z : Host.Cell},
    z ∈ Memory.write m a b → z ∈ m ∨ (z = (a, b) ∧ b ≠ 0)
  | [], a, b, z, h => by
      unfold Memory.write at h
      split at h
      · simp at h
      · exact .inr ⟨by simpa using h, ‹_›⟩
  | (x, y) :: m, a, b, z, h => by
      unfold Memory.write at h
      split at h
      · split at h
        · exact .inl h
        · rcases List.mem_cons.mp h with rfl | h
          · exact .inr ⟨rfl, ‹_›⟩
          · exact .inl h
      · split at h
        · split at h
          · exact .inl (List.mem_cons_of_mem _ h)
          · rcases List.mem_cons.mp h with rfl | h
            · exact .inr ⟨rfl, ‹_›⟩
            · exact .inl (List.mem_cons_of_mem _ h)
        · rcases List.mem_cons.mp h with rfl | h
          · exact .inl (by simp)
          · rcases mem_write h with h | h
            · exact .inl (List.mem_cons_of_mem _ h)
            · exact .inr h

/-- A write keeps the canonical form. -/
theorem write_wf : ∀ {m : Memory} {a : Nat} {b : Byte}, m.WF → (m.write a b).WF
  | [], a, b, _ => by
      unfold Memory.write
      split
      · exact wf_nil
      · exact wf_cons wf_nil ‹_› (by simp)
  | (x, y) :: m, a, b, h => by
      have ht := wf_tail h
      have hlt := wf_head_lt h
      have hy : y ≠ 0 := h.2 (x, y) (by simp)
      unfold Memory.write
      split
      · rename_i hax
        split
        · exact h
        · refine wf_cons h ‹_› ?_
          intro z hz
          rcases List.mem_cons.mp hz with rfl | hz
          · exact hax
          · exact Nat.lt_trans hax (hlt z hz)
      · split
        · rename_i _ hax
          subst hax
          split
          · exact ht
          · exact wf_cons ht ‹_› hlt
        · rename_i h1 h2
          refine wf_cons (write_wf ht) hy ?_
          intro z hz
          rcases mem_write hz with hz | ⟨rfl, _⟩
          · exact hlt z hz
          · simp only; omega

/-- A read after a write: the byte written at its address, every other byte as before. -/
theorem read_write : ∀ {m : Memory} {a : Nat} {b : Byte}, m.WF → ∀ a', (m.write a b).read a' = if a' = a then b else m.read a'
  | [], a, b, _, a' => by
      unfold Memory.write
      split
      · subst_vars; simp [Memory.read]
      · simp [Memory.read, eq_comm]
  | (x, y) :: m, a, b, h, a' => by
      have ht := wf_tail h
      have hlt := wf_head_lt h
      unfold Memory.write
      split
      · rename_i hax
        split
        · subst_vars
          split
          · rename_i ha; subst ha
            exact read_below (by
              intro z hz
              rcases List.mem_cons.mp hz with rfl | hz
              · exact hax
              · exact Nat.lt_trans hax (hlt z hz))
          · rfl
        · simp only [Memory.read, eq_comm (a := a)]
      · split
        · rename_i _ hax
          subst hax
          split
          · subst_vars
            by_cases ha : a' = a
            · subst ha; simp [read_below hlt]
            · simp [Memory.read, ha, Ne.symm ha]
          · simp only [Memory.read, eq_comm (a := a)]
            split <;> rfl
        · rename_i h1 h2
          simp only [Memory.read, read_write ht a']
          by_cases hx : x = a'
          · subst hx; simp [Ne.symm h2]
          · simp [hx]

/-- A write inside an address space lists no address outside it. -/
theorem write_inside {m : Memory} {a n : Nat} {b : Byte} (h : ∀ x ∈ m, x.1 < n) (ha : a < n) :
    ∀ x ∈ m.write a b, x.1 < n := by
  intro x hx
  rcases mem_write hx with hx | ⟨rfl, _⟩
  · exact h x hx
  · exact ha

/-- Canonical buffers with the same bytes are equal. -/
theorem wf_ext : ∀ {m m' : Memory}, m.WF → m'.WF → (∀ a, m.read a = m'.read a) → m = m'
  | [], [], _, _, _ => rfl
  | [], (x, y) :: m', _, h', e => by
      exact absurd (by simpa [Memory.read] using (e x).symm) (h'.2 (x, y) (by simp))
  | (x, y) :: m, [], h, _, e => by
      exact absurd (by simpa [Memory.read] using e x) (h.2 (x, y) (by simp))
  | (x, y) :: m, (x', y') :: m', h, h', e => by
      have hy : y ≠ 0 := h.2 (x, y) (by simp)
      have hy' : y' ≠ 0 := h'.2 (x', y') (by simp)
      have hx : x = x' := by
        rcases Nat.lt_trichotomy x x' with hlt | rfl | hlt
        · have := e x
          rw [read_below (m := (x', y') :: m') (by
            intro z hz
            rcases List.mem_cons.mp hz with rfl | hz
            · exact hlt
            · exact Nat.lt_trans hlt (wf_head_lt h' z hz))] at this
          exact absurd (by simpa [Memory.read] using this) hy
        · rfl
        · have := (e x').symm
          rw [read_below (m := (x, y) :: m) (by
            intro z hz
            rcases List.mem_cons.mp hz with rfl | hz
            · exact hlt
            · exact Nat.lt_trans hlt (wf_head_lt h z hz))] at this
          exact absurd (by simpa [Memory.read] using this) hy'
      subst hx
      have hyy : y = y' := by simpa [Memory.read] using e x
      subst hyy
      congr 1
      refine wf_ext (wf_tail h) (wf_tail h') ?_
      intro a
      by_cases ha : x = a
      · subst ha
        rw [read_below (wf_head_lt h), read_below (wf_head_lt h')]
      · simpa [Memory.read, ha] using e a

/-! ### Bits -/

theorem setBit_wf {m : Memory} (h : m.WF) (p : Nat) (b : Bool) : (m.setBit p b).WF :=
  write_wf h

theorem setByteBit_getLsbD (y : Byte) (k : Nat) (hk : k < 8) (b : Bool) (j : Nat) (hj : j < 8) :
    (setByteBit y k b).getLsbD j = if j = k then b else y.getLsbD j := by
  unfold setByteBit
  have h1 : ((1#8 <<< k).getLsbD j) = decide (j = k) := by
    interval_cases k <;> interval_cases j <;> rfl
  cases b
  · rw [if_neg (by simp), BitVec.getLsbD_and, BitVec.getLsbD_not, h1]
    by_cases h : j = k <;> simp [h, hj]
  · rw [if_pos rfl, BitVec.getLsbD_or, h1]
    by_cases h : j = k <;> simp [h]

/-- Setting one stream bit: that bit, and no other. -/
theorem bit_setBit {m : Memory} (h : m.WF) (p : Nat) (b : Bool) (q : Nat) :
    (m.setBit p b).bit q = if q = p then b else m.bit q := by
  unfold Memory.bit Memory.setBit
  rw [read_write h]
  by_cases hq : q / 8 = p / 8
  · rw [if_pos hq, setByteBit_getLsbD _ _ (by omega) _ _ (by omega), ← hq]
    by_cases h2 : q = p
    · subst h2; simp
    · have : 7 - q % 8 ≠ 7 - p % 8 := by omega
      simp [this, h2]
  · have : q ≠ p := by rintro rfl; exact hq rfl
    simp [hq, this]

theorem writeField_wf : ∀ {n : Nat} {m : Memory} {p v : Nat}, m.WF → (m.writeField p v n).WF
  | 0, _, _, _, h => h
  | n + 1, m, p, v, h => writeField_wf (m := m.setBit p (v.testBit n)) (p := p + 1) (setBit_wf h _ _)

/-- The bits after PutBits's loop: the field's n bits, first the most significant, and no other bit changed (R42, R90). -/
theorem bit_writeField : ∀ {n : Nat} {m : Memory} {p v : Nat}, m.WF → ∀ q,
    (m.writeField p v n).bit q = if p ≤ q ∧ q < p + n then v.testBit (p + n - 1 - q) else m.bit q
  | 0, m, p, v, _, q => by
      rw [if_neg (by omega)]; rfl
  | n + 1, m, p, v, h, q => by
      show ((m.setBit p (v.testBit n)).writeField (p + 1) v n).bit q = _
      rw [bit_writeField (setBit_wf h _ _), bit_setBit h]
      by_cases hq : q = p
      · subst hq
        rw [if_neg (by omega), if_pos rfl, if_pos (by omega)]
        congr 1; omega
      · by_cases h1 : p + 1 ≤ q ∧ q < p + 1 + n
        · rw [if_pos h1, if_pos (by omega)]
          congr 1; omega
        · rw [if_neg h1, if_neg hq, if_neg (by omega)]

/-- Bytes with the same eight bits are equal. -/
theorem read_eq_of_bits {m m' : Memory} {a : Nat} (h : ∀ j, j < 8 → m.bit (8 * a + j) = m'.bit (8 * a + j)) :
    m.read a = m'.read a := by
  apply BitVec.eq_of_getLsbD_eq
  intro i hi
  have := h (7 - i) (by omega)
  unfold Memory.bit at this
  have h1 : (8 * a + (7 - i)) / 8 = a := by omega
  have h2 : 7 - (8 * a + (7 - i)) % 8 = i := by omega
  rwa [h1, h2] at this

/-- A byte that holds none of a field's bits reads as before. -/
theorem read_writeField {n : Nat} {m : Memory} {p v : Nat} (h : m.WF) {a : Nat} (ha : 8 * a + 8 ≤ p ∨ p + n ≤ 8 * a) :
    (m.writeField p v n).read a = m.read a := by
  apply read_eq_of_bits
  intro j hj
  rw [bit_writeField h, if_neg (by omega)]

theorem writeField_inside : ∀ {n : Nat} {m : Memory} {p v k : Nat}, (∀ x ∈ m, x.1 < k) → p + n ≤ 8 * k →
    ∀ x ∈ m.writeField p v n, x.1 < k
  | 0, _, _, _, _, h, _ => h
  | n + 1, m, p, v, k, h, hk =>
      writeField_inside (m := m.setBit p (v.testBit n)) (p := p + 1) (write_inside h (by omega)) (by omega)

/-- The unspecified buffer of a fault is canonical. -/
theorem freeBuffer_wf (k n : Nat) : (freeBuffer k n).WF := by
  refine ⟨?_, ?_⟩
  · unfold freeBuffer
    rw [List.pairwise_filterMap]
    refine List.Pairwise.imp ?_ (List.pairwise_lt_range (n := n))
    intro a b hab x hx y hy
    split at hx <;> split at hy <;> simp_all
    subst hx hy
    exact hab
  · intro c hc
    unfold freeBuffer at hc
    rw [List.mem_filterMap] at hc
    obtain ⟨a, _, ha⟩ := hc
    split at ha
    · cases ha
    · cases ha; assumption

/-- The unspecified buffer of a fault stays inside its address space. -/
theorem freeBuffer_inside (k n : Nat) : ∀ x ∈ freeBuffer k n, x.1 < n := by
  intro c hc
  unfold freeBuffer at hc
  rw [List.mem_filterMap] at hc
  obtain ⟨a, ha, hx⟩ := hc
  split at hx
  · cases hx
  · cases hx; exact List.mem_range.mp ha

end Sys2Proof.Machine
end

