-- ==== Sys2Proof/Laws/State.lean ====
section
/-! SUPPORT. One lemma for each field and each update of the state, true by rfl: later proofs rewrite with them and unfold no
record update. -/

namespace Sys2Proof.Machine

/-! ### Answering -/

@[simp] theorem answer_units (s : State) (u : CodecUnit) (st : Status) (r : Result) :
    (s.answer u st r).units = s.units.set s.sel u := rfl
@[simp] theorem answer_pending (s : State) (u : CodecUnit) (st : Status) (r : Result) :
    (s.answer u st r).pending = s.pending := rfl
@[simp] theorem answer_sel (s : State) (u : CodecUnit) (st : Status) (r : Result) : (s.answer u st r).sel = s.sel := rfl
@[simp] theorem answer_draws (s : State) (u : CodecUnit) (st : Status) (r : Result) :
    (s.answer u st r).draws = s.draws := rfl
@[simp] theorem answer_out (s : State) (u : CodecUnit) (st : Status) (r : Result) :
    (s.answer u st r).out = ⟨s.sel, st, u.statusWord, r⟩ :: s.out := rfl

@[simp] theorem refuse_units (s : State) (u : CodecUnit) : (s.refuse u).units = s.units := rfl
@[simp] theorem refuse_pending (s : State) (u : CodecUnit) : (s.refuse u).pending = s.pending := rfl
@[simp] theorem refuse_sel (s : State) (u : CodecUnit) : (s.refuse u).sel = s.sel := rfl
@[simp] theorem refuse_draws (s : State) (u : CodecUnit) : (s.refuse u).draws = s.draws := rfl
@[simp] theorem refuse_out (s : State) (u : CodecUnit) :
    (s.refuse u).out = ⟨s.sel, .refused, u.statusWord, .none⟩ :: s.out := rfl

@[simp] theorem raise_units (s : State) (u : CodecUnit) (f : TerminalFault) :
    (s.raise u f).units = s.units.set s.sel (u.enterFault s.draws f) := rfl
@[simp] theorem raise_pending (s : State) (u : CodecUnit) (f : TerminalFault) : (s.raise u f).pending = s.pending := rfl
@[simp] theorem raise_sel (s : State) (u : CodecUnit) (f : TerminalFault) : (s.raise u f).sel = s.sel := rfl
@[simp] theorem raise_draws (s : State) (u : CodecUnit) (f : TerminalFault) : (s.raise u f).draws = s.draws + 1 := rfl
@[simp] theorem raise_out (s : State) (u : CodecUnit) (f : TerminalFault) :
    (s.raise u f).out = ⟨s.sel, .fault, (u.enterFault s.draws f).statusWord, .none⟩ :: s.out := rfl

@[simp] theorem take_units (s : State) (k : Nat) (es : List HostEvent) : (s.take k es).units = s.units := rfl
@[simp] theorem take_pending (s : State) (k : Nat) (es : List HostEvent) : (s.take k es).pending = es := rfl
@[simp] theorem take_sel (s : State) (k : Nat) (es : List HostEvent) : (s.take k es).sel = k := rfl
@[simp] theorem take_out (s : State) (k : Nat) (es : List HostEvent) : (s.take k es).out = s.out := rfl
@[simp] theorem take_draws (s : State) (k : Nat) (es : List HostEvent) : (s.take k es).draws = s.draws := rfl
@[simp] theorem take_unit? (s : State) (k : Nat) (es : List HostEvent) : (s.take k es).unit? = s.units[k]? := rfl

/-! ### The session registers -/

@[simp] theorem took_storedVal (x : Session) (v : U64) : (x.took v).storedVal = v := rfl
@[simp] theorem took_first (x : Session) (v : U64) : (x.took v).first = false := rfl
@[simp] theorem took_lead (x : Session) (v : U64) : (x.took v).lead = x.lead := rfl
@[simp] theorem took_trail (x : Session) (v : U64) : (x.took v).trail = x.trail := rfl

@[simp] theorem session_reset_storedVal : Session.reset.storedVal = 0 := rfl
@[simp] theorem session_reset_lead : Session.reset.lead = none := rfl
@[simp] theorem session_reset_trail : Session.reset.trail = none := rfl
@[simp] theorem session_reset_first : Session.reset.first = true := rfl

/-! ### The values of R6 -/

@[simp] theorem sized_variant (vt : Variant) (n : Nat) : (CUConfig.sized vt n).variant = vt := rfl
@[simp] theorem sized_capacity (vt : Variant) (n : Nat) : (CUConfig.sized vt n).capacity = n := rfl
@[simp] theorem sized_bufBytes (vt : Variant) (n : Nat) : (CUConfig.sized vt n).bufBytes = bufBytes n := rfl
@[simp] theorem sized_endSign (vt : Variant) (n : Nat) : (CUConfig.sized vt n).endSign = Config.defaultEndSign := rfl
@[simp] theorem sized_tzThreshold (vt : Variant) (n : Nat) : (CUConfig.sized vt n).tzThreshold = 6 := rfl
@[simp] theorem sized_guardBits (vt : Variant) (n : Nat) : (CUConfig.sized vt n).guardBits = guardBits vt := rfl
@[simp] theorem sized_leadRound (vt : Variant) (n : Nat) : (CUConfig.sized vt n).leadRound = .tabled := rfl
@[simp] theorem sized_leadCode (vt : Variant) (n : Nat) : (CUConfig.sized vt n).leadCode = .ascending := rfl
@[simp] theorem default_variant (vt : Variant) : (DUConfig.default vt).variant = vt := rfl
@[simp] theorem default_endSign (vt : Variant) : (DUConfig.default vt).endSign = Config.defaultEndSign := rfl
@[simp] theorem default_leadCode (vt : Variant) : (DUConfig.default vt).leadCode = .ascending := rfl
@[simp] theorem default_getSP (vt : Variant) : (DUConfig.default vt).getSP = .reference := rfl
@[simp] theorem default_p10 (vt : Variant) : (DUConfig.default vt).p10 = .reference := rfl
@[simp] theorem default_roundDec (vt : Variant) : (DUConfig.default vt).roundDec = .reference := rfl

/-! ### A compressor unit -/

@[simp] theorem flush_cfg (c : CU) : c.flush.cfg = c.cfg := rfl
@[simp] theorem flush_session (c : CU) : c.flush.session = c.session := rfl
@[simp] theorem flush_phase (c : CU) : c.flush.phase = c.phase := rfl
@[simp] theorem flush_faultCode (c : CU) : c.flush.faultCode = c.faultCode := rfl
@[simp] theorem flush_wpos (c : CU) : c.flush.wpos = c.wpos + padBits c.wpos := rfl
@[simp] theorem flush_buf (c : CU) : c.flush.buf = c.buf := rfl

@[simp] theorem cu_refresh (c : CU) : c.refresh = .reset c.cfg := rfl
@[simp] theorem cu_reset_cfg (g : CUConfig) : (CU.reset g).cfg = g := rfl
@[simp] theorem cu_reset_session (g : CUConfig) : (CU.reset g).session = .reset := rfl
@[simp] theorem cu_reset_phase (g : CUConfig) : (CU.reset g).phase = .opened := rfl
@[simp] theorem cu_reset_faultCode (g : CUConfig) : (CU.reset g).faultCode = none := rfl
@[simp] theorem cu_reset_wpos (g : CUConfig) : (CU.reset g).wpos = 0 := rfl
@[simp] theorem cu_reset_buf (g : CUConfig) : (CU.reset g).buf = [] := rfl

@[simp] theorem cu_enterFault_cfg (c : CU) (k : Nat) (f : TerminalFault) : (c.enterFault k f).cfg = c.cfg := rfl
@[simp] theorem cu_enterFault_phase (c : CU) (k : Nat) (f : TerminalFault) : (c.enterFault k f).phase = .faulted := rfl
@[simp] theorem cu_enterFault_faultCode (c : CU) (k : Nat) (f : TerminalFault) :
    (c.enterFault k f).faultCode = some f := rfl
@[simp] theorem cu_enterFault_session (c : CU) (k : Nat) (f : TerminalFault) :
    (c.enterFault k f).session = freeSession k c.cfg.variant := rfl
@[simp] theorem cu_enterFault_buf (c : CU) (k : Nat) (f : TerminalFault) :
    (c.enterFault k f).buf = freeBuffer k c.bufBytes := rfl

/-! ### A decompressor unit -/

@[simp] theorem advance_cfg (d : DU) (n : Nat) : (d.advance n).cfg = d.cfg := rfl
@[simp] theorem advance_session (d : DU) (n : Nat) : (d.advance n).session = d.session := rfl
@[simp] theorem advance_src (d : DU) (n : Nat) : (d.advance n).src = d.src := rfl
@[simp] theorem advance_len (d : DU) (n : Nat) : (d.advance n).len = d.len := rfl
@[simp] theorem advance_rpos (d : DU) (n : Nat) : (d.advance n).rpos = d.rpos + n := rfl
@[simp] theorem advance_bound (d : DU) (n : Nat) : (d.advance n).bound = d.bound := rfl
@[simp] theorem advance_ended (d : DU) (n : Nat) : (d.advance n).ended = d.ended := rfl
@[simp] theorem advance_faulted (d : DU) (n : Nat) : (d.advance n).faulted = d.faulted := rfl
@[simp] theorem advance_faultCode (d : DU) (n : Nat) : (d.advance n).faultCode = d.faultCode := rfl

@[simp] theorem bind_cfg (d : DU) (b : List Byte) : (d.bind b).cfg = d.cfg := rfl
@[simp] theorem bind_session (d : DU) (b : List Byte) : (d.bind b).session = d.session := rfl
@[simp] theorem bind_src (d : DU) (b : List Byte) : (d.bind b).src = b := rfl
@[simp] theorem bind_rpos (d : DU) (b : List Byte) : (d.bind b).rpos = 0 := rfl
@[simp] theorem bind_bound (d : DU) (b : List Byte) : (d.bind b).bound = true := rfl
@[simp] theorem bind_ended (d : DU) (b : List Byte) : (d.bind b).ended = d.ended := rfl
@[simp] theorem bind_faulted (d : DU) (b : List Byte) : (d.bind b).faulted = d.faulted := rfl
@[simp] theorem bind_faultCode (d : DU) (b : List Byte) : (d.bind b).faultCode = d.faultCode := rfl

@[simp] theorem du_refresh_cfg (d : DU) : d.refresh.cfg = d.cfg := rfl
@[simp] theorem du_refresh_session (d : DU) : d.refresh.session = .reset := rfl
@[simp] theorem du_refresh_src (d : DU) : d.refresh.src = d.src := rfl
@[simp] theorem du_refresh_rpos (d : DU) : d.refresh.rpos = d.rpos := rfl
@[simp] theorem du_refresh_bound (d : DU) : d.refresh.bound = d.bound := rfl
@[simp] theorem du_refresh_ended (d : DU) : d.refresh.ended = false := rfl
@[simp] theorem du_refresh_faulted (d : DU) : d.refresh.faulted = false := rfl
@[simp] theorem du_refresh_faultCode (d : DU) : d.refresh.faultCode = none := rfl

@[simp] theorem du_reset_cfg (g : DUConfig) : (DU.reset g).cfg = g := rfl
@[simp] theorem du_reset_session (g : DUConfig) : (DU.reset g).session = .reset := rfl
@[simp] theorem du_reset_src (g : DUConfig) : (DU.reset g).src = [] := rfl
@[simp] theorem du_reset_rpos (g : DUConfig) : (DU.reset g).rpos = 0 := rfl
@[simp] theorem du_reset_bound (g : DUConfig) : (DU.reset g).bound = false := rfl
@[simp] theorem du_reset_ended (g : DUConfig) : (DU.reset g).ended = false := rfl
@[simp] theorem du_reset_faulted (g : DUConfig) : (DU.reset g).faulted = false := rfl
@[simp] theorem du_reset_faultCode (g : DUConfig) : (DU.reset g).faultCode = none := rfl

@[simp] theorem du_enterFault_cfg (d : DU) (k : Nat) (f : TerminalFault) : (d.enterFault k f).cfg = d.cfg := rfl
@[simp] theorem du_enterFault_faulted (d : DU) (k : Nat) (f : TerminalFault) : (d.enterFault k f).faulted = true := rfl
@[simp] theorem du_enterFault_bound (d : DU) (k : Nat) (f : TerminalFault) : (d.enterFault k f).bound = false := rfl
@[simp] theorem du_enterFault_faultCode (d : DU) (k : Nat) (f : TerminalFault) :
    (d.enterFault k f).faultCode = some f := rfl
@[simp] theorem du_enterFault_session (d : DU) (k : Nat) (f : TerminalFault) :
    (d.enterFault k f).session = freeSession k d.cfg.variant := rfl

/-! ### Kinds -/

@[simp] theorem kind_cu (c : CU) : (CodecUnit.cu c).kind = .cu := rfl
@[simp] theorem kind_du (d : DU) : (CodecUnit.du d).kind = .du := rfl
@[simp] theorem kind_enterFault (u : CodecUnit) (k : Nat) (f : TerminalFault) : (u.enterFault k f).kind = u.kind := by
  cases u <;> rfl
@[simp] theorem kind_hardReset (u : CodecUnit) : u.hardReset.kind = u.kind := by cases u <;> rfl

/-- The addressed unit is in the list. -/
theorem unit?_lt {s : State} {u : CodecUnit} (h : s.unit? = some u) : s.sel < s.units.length :=
  (List.getElem?_eq_some_iff.mp h).1

/-- After an answer the addressed unit is the one answered with. -/
@[simp] theorem answer_unit? {s : State} {u w : CodecUnit} {st : Status} {r : Result} (h : s.unit? = some w) :
    (s.answer u st r).unit? = some u := by
  simp [State.unit?, unit?_lt h]

end Sys2Proof.Machine
end

