-- ==== Sys2Proof/Laws/Ops.lean ====
section
/-! SUPPORT. One lemma for each shared operation: everything it can do, said once. Proofs about instructions cite these and
unfold no operation. -/

namespace Sys2Proof.Machine

/-! ### Addressing a unit -/

/-- Everything a compressor command's addressing can do (R85, R197, R209). -/
theorem onCU_cases (s : State) (f : CU → StepResult) :
    (∃ c, s.unit? = some (.cu c) ∧ s.onCU f = f c) ∨
      (∃ d, s.unit? = some (.du d) ∧ s.onCU f = .next (s.refuse (.du d))) ∨
        (s.unit? = none ∧ s.onCU f = .fault .noSuchUnit) := by
  unfold State.onCU
  rcases h : s.unit? with _ | ⟨c | d⟩
  · exact .inr (.inr ⟨rfl, rfl⟩)
  · exact .inl ⟨c, rfl, rfl⟩
  · exact .inr (.inl ⟨d, rfl, rfl⟩)

/-- Everything a decompressor command's addressing can do (R85, R197, R209). -/
theorem onDU_cases (s : State) (f : DU → StepResult) :
    (∃ d, s.unit? = some (.du d) ∧ s.onDU f = f d) ∨
      (∃ c, s.unit? = some (.cu c) ∧ s.onDU f = .next (s.refuse (.cu c))) ∨
        (s.unit? = none ∧ s.onDU f = .fault .noSuchUnit) := by
  unfold State.onDU
  rcases h : s.unit? with _ | ⟨c | d⟩
  · exact .inr (.inr ⟨rfl, rfl⟩)
  · exact .inr (.inl ⟨c, rfl, rfl⟩)
  · exact .inl ⟨d, rfl, rfl⟩

theorem onCU_cu {s : State} {c : CU} (h : s.unit? = some (.cu c)) (f : CU → StepResult) : s.onCU f = f c := by
  simp [State.onCU, h]

theorem onCU_du {s : State} {d : DU} (h : s.unit? = some (.du d)) (f : CU → StepResult) :
    s.onCU f = .next (s.refuse (.du d)) := by simp [State.onCU, h]

theorem onDU_du {s : State} {d : DU} (h : s.unit? = some (.du d)) (f : DU → StepResult) : s.onDU f = f d := by
  simp [State.onDU, h]

theorem onDU_cu {s : State} {c : CU} (h : s.unit? = some (.cu c)) (f : DU → StepResult) :
    s.onDU f = .next (s.refuse (.cu c)) := by simp [State.onDU, h]

/-! ### The BitStream writer -/

/-- Everything PutBits can answer (R90, R45). -/
theorem putBits_ok_iff {c c' : CU} {v n : Nat} :
    c.putBits v n = .ok c' ↔
      c.wpos + n ≤ 8 * c.bufBytes ∧ c' = { c with buf := c.buf.writeField c.wpos v n, wpos := c.wpos + n } := by
  unfold CU.putBits
  split
  · constructor
    · intro h; cases h
    · intro h; omega
  · constructor
    · intro h; cases h; exact ⟨by omega, rfl⟩
    · rintro ⟨_, rfl⟩; rfl

theorem putBits_error_iff {c : CU} {v n : Nat} {f : TerminalFault} :
    c.putBits v n = .error f ↔ 8 * c.bufBytes < c.wpos + n ∧ f = .bufferOverflow := by
  unfold CU.putBits
  split
  · constructor
    · intro h; cases h; exact ⟨‹_›, rfl⟩
    · rintro ⟨_, rfl⟩; rfl
  · constructor
    · intro h; cases h
    · intro h; omega

/-- Appending nothing. -/
theorem appended_refl (c : CU) : c.Appended c [] :=
  ⟨by simp, by intro p h1 h2; simp at h2; omega, fun _ _ => rfl, fun _ _ => rfl⟩

/-- Appending one after the other. -/
theorem appended_trans {c c1 c2 : CU} {xs ys : List Bool} (h1 : c.Appended c1 xs) (h2 : c1.Appended c2 ys) :
    c.Appended c2 (xs ++ ys) := by
  have e1 := h1.cursor
  have e2 := h2.cursor
  refine ⟨by simp; omega, ?_, ?_, ?_⟩
  · intro p hp hlt
    rw [List.length_append] at hlt
    by_cases hq : p < c1.wpos
    · rw [List.getElem?_append_left (by omega), h2.outside p (.inl hq)]
      exact h1.inside p hp (by omega)
    · rw [List.getElem?_append_right (by omega)]
      have := h2.inside p (by omega) (by omega)
      rwa [show p - c.wpos - xs.length = p - c1.wpos by omega]
  · intro p hp
    rw [List.length_append] at hp
    rw [h2.outside p (by omega), h1.outside p (by omega)]
  · intro a ha
    rw [List.length_append] at ha
    rw [h2.bytes a (by omega), h1.bytes a (by omega)]

/-- PutBits appends the bits of its field (R90, R42). -/
theorem putBits_appended {c c' : CU} {v n : Nat} (hwf : c.buf.WF) (h : c.putBits v n = .ok c') :
    c.Appended c' (natBits n v) := by
  obtain ⟨_, rfl⟩ := putBits_ok_iff.mp h
  refine ⟨by simp, ?_, ?_, ?_⟩
  · intro p hp hlt
    rw [natBits_length] at hlt
    rw [natBits_getElem? _ _ _ (by omega), bit_writeField hwf, if_pos ⟨hp, hlt⟩]
    congr 2; omega
  · intro p hp
    rw [natBits_length] at hp
    simp only [bit_writeField hwf]
    rw [if_neg (by omega)]
  · intro a ha
    rw [natBits_length] at ha
    exact read_writeField hwf ha

/-- What writing fields leaves as it was, and what it keeps. -/
theorem putFields_frame : ∀ {fs : List Field} {c c' : CU}, c.putFields fs = .ok c' →
    c'.cfg = c.cfg ∧ c'.session = c.session ∧ c'.phase = c.phase ∧ c'.faultCode = c.faultCode ∧
      c'.wpos = c.wpos + fieldLength fs ∧ (c.wpos ≤ 8 * c.bufBytes → c'.wpos ≤ 8 * c.bufBytes) ∧
        (c.buf.WF → c'.buf.WF) ∧
          ((∀ x ∈ c.buf, x.1 < c.bufBytes) → ∀ x ∈ c'.buf, x.1 < c.bufBytes)
  | [], c, c', h => by
      cases h
      exact ⟨rfl, rfl, rfl, rfl, by simp, id, id, id⟩
  | f :: fs, c, c', h => by
      simp only [CU.putFields] at h
      split at h
      · cases h
      · rename_i c1 h1
        obtain ⟨hfit, rfl⟩ := putBits_ok_iff.mp h1
        obtain ⟨i1, i2, i3, i4, i5, i6, i7, i8⟩ := putFields_frame h
        refine ⟨i1, i2, i3, i4, ?_, ?_, ?_, ?_⟩
        · rw [i5, fieldLength_cons]; show c.wpos + f.width + fieldLength fs = _; omega
        · intro _; exact i6 hfit
        · intro hw; exact i7 (writeField_wf hw)
        · intro hin; exact i8 (writeField_inside hin hfit)

/-- Writing fields appends their bits (R90). -/
theorem putFields_appended : ∀ {fs : List Field} {c c' : CU}, c.buf.WF → c.putFields fs = .ok c' →
    c.Appended c' (fieldBits fs)
  | [], c, c', _, h => by cases h; exact appended_refl c
  | f :: fs, c, c', hwf, h => by
      simp only [CU.putFields] at h
      split at h
      · cases h
      · rename_i c1 h1
        have hwf1 : c1.buf.WF := by
          obtain ⟨_, rfl⟩ := putBits_ok_iff.mp h1
          exact writeField_wf hwf
        rw [fieldBits_cons]
        exact appended_trans (putBits_appended hwf h1) (putFields_appended hwf1 h)

/-- Fields fit when their bits together do; otherwise the fault is BUFFER_OVERFLOW (R45, R198). -/
theorem putFields_fit : ∀ {fs : List Field} {c : CU}, c.wpos + fieldLength fs ≤ 8 * c.bufBytes →
    ∃ c', c.putFields fs = .ok c'
  | [], c, _ => ⟨c, rfl⟩
  | f :: fs, c, h => by
      rw [fieldLength_cons] at h
      have h1 : c.putBits f.value f.width =
          .ok { c with buf := c.buf.writeField c.wpos f.value f.width, wpos := c.wpos + f.width } :=
        putBits_ok_iff.mpr ⟨by omega, rfl⟩
      obtain ⟨c', h'⟩ := putFields_fit (fs := fs)
        (c := { c with buf := c.buf.writeField c.wpos f.value f.width, wpos := c.wpos + f.width })
        (by show c.wpos + f.width + fieldLength fs ≤ 8 * c.bufBytes; omega)
      exact ⟨c', by simp only [CU.putFields, h1]; exact h'⟩

theorem putFields_overflow : ∀ {fs : List Field} {c : CU}, c.wpos ≤ 8 * c.bufBytes →
    8 * c.bufBytes < c.wpos + fieldLength fs → c.putFields fs = .error .bufferOverflow
  | [], c, h0, h => by simp at h; omega
  | f :: fs, c, h0, h => by
      rw [fieldLength_cons] at h
      by_cases hf : c.wpos + f.width ≤ 8 * c.bufBytes
      · have h1 : c.putBits f.value f.width =
            .ok { c with buf := c.buf.writeField c.wpos f.value f.width, wpos := c.wpos + f.width } :=
          putBits_ok_iff.mpr ⟨hf, rfl⟩
        simp only [CU.putFields, h1]
        exact putFields_overflow (fs := fs)
          (c := { c with buf := c.buf.writeField c.wpos f.value f.width, wpos := c.wpos + f.width }) hf
          (by show 8 * c.bufBytes < c.wpos + f.width + fieldLength fs; omega)
      · have h1 : c.putBits f.value f.width = .error .bufferOverflow := putBits_error_iff.mpr ⟨by omega, rfl⟩
        simp only [CU.putFields, h1]

theorem putFields_error : ∀ {fs : List Field} {c : CU} {f : TerminalFault}, c.putFields fs = .error f →
    f = .bufferOverflow
  | [], _, _, h => by cases h
  | g :: fs, c, f, h => by
      simp only [CU.putFields] at h
      split at h
      · rename_i e h1; cases h; exact (putBits_error_iff.mp h1).2
      · exact putFields_error h

/-- The pad of Flush ends at the next whole byte (R92). -/
theorem padBits_spec (p : Nat) : padBits p < 8 ∧ (p + padBits p) % 8 = 0 := by
  unfold padBits; omega

/-- Reading bytes of the buffer (R12, R40). -/
theorem memRead_eq_some_iff {c : CU} {a n : Nat} {bs : List Byte} :
    c.memRead a n = some bs ↔ a + n ≤ c.bufBytes ∧ bs = (List.range n).map fun i => c.buf.read (a + i) := by
  unfold CU.memRead
  split
  · simp [*, eq_comm]
  · simp [*]

/-! ### The BitStream reader -/

/-- Everything GetBits can answer (R91, R45). -/
theorem getBits_ok_iff {d d' : DU} {n r : Nat} :
    d.getBits n = .ok (r, d') ↔ d.rpos + n ≤ 8 * d.len ∧ r = bitsToNat (d.stream.take n) ∧ d' = d.advance n := by
  unfold DU.getBits
  split
  · constructor
    · intro h; cases h
    · intro h; omega
  · constructor
    · intro h; cases h; exact ⟨by omega, rfl, rfl⟩
    · rintro ⟨_, rfl, rfl⟩; rfl

theorem getBits_error_iff {d : DU} {n : Nat} {f : TerminalFault} :
    d.getBits n = .error f ↔ 8 * d.len < d.rpos + n ∧ f = .streamError := by
  unfold DU.getBits
  split
  · constructor
    · intro h; cases h; exact ⟨‹_›, rfl⟩
    · rintro ⟨_, rfl⟩; rfl
  · constructor
    · intro h; cases h
    · intro h; omega

/-! ### Emitting and executing a code -/

/-- Everything emitting a code can answer (R100). -/
theorem emit_cases (c : CU) (i : Instr) :
    (∃ c', c.putFields (codeFields c.cfg.leadCode c.session.lead c.session.trail i) = .ok c' ∧
        c.emit i = .ok ({ c' with session := codeNext i c.session }, c.lengthOf i)) ∨
      c.emit i = .error .bufferOverflow := by
  unfold CU.emit
  rcases h : c.putFields (codeFields c.cfg.leadCode c.session.lead c.session.trail i) with f | c'
  · exact .inr (by rw [putFields_error h])
  · obtain ⟨_, _, _, _, h5, _⟩ := putFields_frame h
    exact .inl ⟨c', rfl, by simp only [h5, Nat.add_sub_cancel_left]; rfl⟩

/-- Everything appending a value can answer (R100). -/
theorem append_cases (c : CU) (v : U64) :
    (∃ c' n, c.emit (c.chosen v) = .ok (c', n) ∧
        c.append v = .ok ({ c' with session := { c'.session with storedVal := v } }, n)) ∨
      c.append v = .error .bufferOverflow := by
  unfold CU.append
  rcases emit_cases c (c.chosen v) with ⟨c', _, h⟩ | h
  · exact .inl ⟨_, _, h, by rw [h]⟩
  · exact .inr (by rw [h])

/-- Everything executing a code can answer (R136). -/
theorem execute_cases (d : DU) (i : Instr) :
    (8 * d.len < d.rpos + d.lengthOf i ∧ d.execute i = .error .streamError) ∨
      (d.rpos + d.lengthOf i ≤ 8 * d.len ∧
        (((codeNext i d.session).storedVal = d.cfg.endSign ∧
            d.execute i = .ok (.eos, { d with
              session := codeNext i d.session
              rpos := d.rpos + d.lengthOf i
              ended := true })) ∨
          ((codeNext i d.session).storedVal ≠ d.cfg.endSign ∧
            d.execute i = .ok (.value (codeNext i d.session).storedVal, { d with
              session := codeNext i d.session
              rpos := d.rpos + d.lengthOf i })))) := by
  unfold DU.execute
  by_cases h : 8 * d.len < d.rpos + d.lengthOf i
  · exact .inl ⟨h, if_pos h⟩
  · refine .inr ⟨by omega, ?_⟩
    simp only [if_neg h]
    by_cases h2 : (codeNext i d.session).storedVal = d.cfg.endSign
    · exact .inl ⟨h2, if_pos h2⟩
    · exact .inr ⟨h2, if_neg h2⟩

/-! ### Answers -/

theorem finishBits_cases (s : State) (c : CU) (r : Except TerminalFault (CU × Nat)) :
    (∃ c' n, r = .ok (c', n) ∧ s.finishBits c r = .next (s.answer (.cu c') .ok (.bits n))) ∨
      (∃ f, r = .error f ∧ s.finishBits c r = .next (s.raise (.cu c) f)) := by
  rcases r with f | ⟨c', n⟩
  · exact .inr ⟨f, rfl, rfl⟩
  · exact .inl ⟨c', n, rfl, rfl⟩

theorem finishDecoded_cases (s : State) (d : DU) (r : Except TerminalFault (Decoded × DU)) :
    (∃ v d', r = .ok (.value v, d') ∧ s.finishDecoded d r = .next (s.answer (.du d') .ok (.value v))) ∨
      (∃ d', r = .ok (.eos, d') ∧ s.finishDecoded d r = .next (s.answer (.du d') .eos .none)) ∨
        (∃ f, r = .error f ∧ s.finishDecoded d r = .next (s.raise (.du d) f)) := by
  rcases r with f | ⟨v | _, d'⟩
  · exact .inr (.inr ⟨f, rfl, rfl⟩)
  · exact .inl ⟨v, d', rfl, rfl⟩
  · exact .inr (.inl ⟨d', rfl, rfl⟩)

theorem finishValues_cases (s : State) (d : DU) (r : Except TerminalFault (List U64 × DU)) :
    (∃ vs d', r = .ok (vs, d') ∧ s.finishValues d r = .next (s.answer (.du d') .ok (.values vs))) ∨
      (∃ f, r = .error f ∧ s.finishValues d r = .next (s.raise (.du d) f)) := by
  rcases r with f | ⟨vs, d'⟩
  · exact .inr ⟨f, rfl, rfl⟩
  · exact .inl ⟨vs, d', rfl, rfl⟩

/-- What a bulk decode that answers has done (R138, R176). -/
theorem decompLoop_ok {decode : DU → Except TerminalFault (Decoded × DU)} : ∀ {k : Nat} {d d' : DU} {vs : List U64},
    decompLoop decode k d = .ok (vs, d') → DecodesTo decode d vs d'
  | 0, _, _, _, h => by cases h
  | k + 1, d, d', vs, h => by
      simp only [decompLoop] at h
      split at h
      · cases h
      · cases h; exact .eos ‹_›
      · rename_i v d1 h1
        split at h
        · cases h
        · rename_i h2
          cases h
          exact .value h1 (decompLoop_ok h2)

/-! ### Steps -/

/-- Everything a command on a port can do (R85, R202). -/
theorem runCommand_cases (s : State) (c : Command) :
    (s.unit? = none ∧ s.runCommand c = .fault .noSuchUnit) ∨
      ∃ u, s.unit? = some u ∧
        ((∃ i, decodeCommand u.kind c = .ok i ∧ s.runCommand c = exec i s) ∨
          (∃ e, decodeCommand u.kind c = .error e ∧ s.runCommand c = .next (s.refuse u))) := by
  unfold State.runCommand
  rcases hu : s.unit? with _ | u
  · exact .inl ⟨rfl, rfl⟩
  · refine .inr ⟨u, rfl, ?_⟩
    rcases hd : decodeCommand u.kind c with e | i
    · exact .inr ⟨e, rfl, by simp [hd]⟩
    · exact .inl ⟨i, rfl, by simp [hd]⟩

/-- Everything one step can do (R8). -/
theorem step_cases (s : State) :
    (s.pending = [] ∧ step s = .next s) ∨
      (∃ c rest, s.pending = .command c :: rest ∧ step s = (s.take c.unit rest).runCommand c) ∨
        (∃ k rest, s.pending = .reset k :: rest ∧ step s = (s.take k rest).runReset) := by
  unfold step
  rcases h : s.pending with _ | ⟨c | k, rest⟩
  · exact .inl ⟨rfl, rfl⟩
  · exact .inr (.inl ⟨c, rest, rfl, rfl⟩)
  · exact .inr (.inr ⟨k, rest, rfl, rfl⟩)

end Sys2Proof.Machine
end

