-- ==== Sys2Proof/Laws/Codes.lean ====
section
/-! SUPPORT. What the operations over codes can do: checking a code, closing a block, running a code or a mode mark, decoding at
the cursor, and the code a compressor selects. -/

namespace Sys2Proof.Machine

/-- A code is one that a session emits or executes exactly when it is well-formed and fits the window (R82, R89). -/
theorem codeCheck_eq_none_iff {i : Instr} {x : Session} (h : i.codePlace ≠ none) :
    codeCheck i x = none ↔ i.wellFormed = true ∧ i.fitsWindow x.lead x.trail = true := by
  cases i <;> simp only [Instr.codePlace, ne_eq, not_true_eq_false] at h <;>
    simp [codeCheck, Instr.wellFormed, Instr.fitsWindow]
  case chimpTrail lz sig payload =>
    unfold chimpTrailCheck
    split_ifs <;> simp_all
  case chimpReuse payload =>
    unfold chimpReuseCheck
    cases x.lead <;> simp
  case chimpNewLead lz payload =>
    unfold chimpNewLeadCheck
    split_ifs <;> simp_all
  case elfFirst tz7 payload =>
    unfold elfFirstCheck
    split_ifs <;> simp_all
  case elfReuse payload =>
    unfold elfReuseCheck
    cases x.lead <;> cases x.trail <;> simp
  case elfNewShort lz cb4 payload =>
    unfold elfNewShortCheck
    split_ifs <;> simp_all
  case elfNewLong lz cb6 payload =>
    unfold elfNewLongCheck
    split_ifs <;> simp_all

/-- Everything PUTBITS on a compressor unit can do (R103). -/
theorem putBitsOn_cases (s : State) (c : CU) (v n : Nat) :
    ((c.phase ≠ .opened ∨ ¬ (n ≤ 64 ∧ v < 2 ^ n)) ∧ s.putBitsOn c v n = .next (s.refuse (.cu c))) ∨
      (c.phase = .opened ∧ n ≤ 64 ∧ v < 2 ^ n ∧
        ((∃ c', c.putBits v n = .ok c' ∧ s.putBitsOn c v n = .next (s.answer (.cu c') .ok .none)) ∨
          (c.putBits v n = .error .bufferOverflow ∧ s.putBitsOn c v n = .next (s.raise (.cu c) .bufferOverflow)))) := by
  unfold State.putBitsOn
  by_cases hp : c.phase = .opened
  · by_cases hn : n ≤ 64 ∧ v < 2 ^ n
    · refine .inr ⟨hp, hn.1, hn.2, ?_⟩
      simp only [if_pos hp, if_pos hn]
      rcases h : c.putBits v n with f | c'
      · obtain ⟨_, rfl⟩ := putBits_error_iff.mp h
        exact .inr ⟨rfl, rfl⟩
      · exact .inl ⟨c', rfl, rfl⟩
    · exact .inl ⟨.inr hn, by rw [if_pos hp, if_neg hn]⟩
  · exact .inl ⟨.inl hp, if_neg hp⟩

/-- Everything closing a block can answer (R101). -/
theorem closeBlock_cases (c : CU) :
    (∃ c1 n c2, c.append c.cfg.endSign = .ok (c1, n) ∧ c1.putBits 0 (c.cfg.guardBits) = .ok c2 ∧
        c.closeBlock = .ok ({ c2.flush with phase := .closed }, n + c.cfg.guardBits)) ∨
      c.closeBlock = .error .bufferOverflow := by
  unfold CU.closeBlock
  rcases h : c.append c.cfg.endSign with f | ⟨c1, n⟩
  · rcases append_cases c c.cfg.endSign with ⟨_, _, _, h1⟩ | h1
    · rw [h1] at h; cases h
    · rw [h1] at h; cases h; exact .inr rfl
  · rcases h2 : c1.putBits 0 (c.cfg.guardBits) with f | c2
    · obtain ⟨_, rfl⟩ := putBits_error_iff.mp h2
      exact .inr (by simp only [h2])
    · exact .inl ⟨c1, n, c2, rfl, h2, by simp only [h2]⟩

/-- Running a code on a compressor unit that takes it there (log 10). -/
theorem runCode_cu {s : State} {c : CU} {i : Instr} (h : s.unit? = some (.cu c)) (hp : c.phase = .opened)
    (hi : i.codePlace = some (c.cfg.variant, c.session.first)) (hc : codeCheck i c.session = none) :
    runCode i s = s.finishBits c (c.emit i) := by
  simp [runCode, h, hp, hi, hc]

/-- Running a code on a decompressor unit that takes it there (log 10). -/
theorem runCode_du {s : State} {d : DU} {i : Instr} (h : s.unit? = some (.du d)) (hp : d.ready = true)
    (hi : i.codePlace = some (d.cfg.variant, d.session.first)) (hc : codeCheck i d.session = none) :
    runCode i s = s.finishDecoded d (d.execute i) := by
  simp [runCode, h, hp, hi, hc]

/-- Everything decoding the XOR code at the cursor can answer (R136). -/
theorem xorDecode_cases (d : DU) :
    (∃ i, d.fetchCode = .ok i ∧ d.xorDecode = d.execute i) ∨
      ∃ e, d.fetchCode = .error e ∧ d.xorDecode = .error (decodeFault e) := by
  unfold DU.xorDecode
  rcases h : d.fetchCode with e | i
  · exact .inr ⟨e, rfl, rfl⟩
  · exact .inl ⟨i, rfl, rfl⟩

/-- Everything the decimal mode can answer after its mark (R172, R175, R179). -/
theorem decimalMode_cases (d : DU) (betaStar : BitVec 4) :
    (∃ f, d.xorDecode = .error f ∧ d.decimalMode betaStar = .error f) ∨
      (∃ d', d.xorDecode = .ok (.eos, d') ∧ d.decimalMode betaStar = .ok (.eos, d')) ∨
        ∃ p d', d.xorDecode = .ok (.value p, d') ∧
          ((∃ v, reconstruct d.cfg betaStar p = some v ∧ d.decimalMode betaStar = .ok (.value v, d')) ∨
            (reconstruct d.cfg betaStar p = none ∧ d.decimalMode betaStar = .error .reconDomain)) := by
  unfold DU.decimalMode
  rcases h : d.xorDecode with f | ⟨p | _, d'⟩
  · exact .inl ⟨f, rfl, rfl⟩
  · refine .inr (.inr ⟨p, d', rfl, ?_⟩)
    rcases hr : reconstruct d.cfg betaStar p with _ | v
    · exact .inr ⟨rfl, by simp [hr]⟩
    · exact .inl ⟨v, rfl, by simp [hr]⟩
  · exact .inr (.inl ⟨d', rfl, rfl⟩)

/-- Everything decoding a mode mark from a stream can answer (R73, R74). -/
theorem decodeMode_cases (bs : List Bool) :
    (∃ e, decodeMode bs = .error e) ∨ (∃ rest, decodeMode bs = .ok (.orchRaw, rest)) ∨
      ∃ b rest, decodeMode bs = .ok (.orchDec b, rest) := by
  unfold decodeMode
  rcases takeField 1 bs with e | ⟨flag, bs1⟩
  · exact .inl ⟨e, rfl⟩
  · by_cases hf : flag = 0
    · exact .inr (.inl ⟨bs1, by simp [hf, bind, Except.bind]⟩)
    · rcases h4 : takeField 4 bs1 with e | ⟨b, bs2⟩
      · exact .inl ⟨e, by simp [hf, h4, bind, Except.bind]⟩
      · exact .inr (.inr ⟨BitVec.ofNat 4 b, bs2, by simp [hf, h4, bind, Except.bind]⟩)

/-- Everything the orchestrator's decode can answer (R170). -/
theorem orchDecode_cases (d : DU) :
    (∃ e, decodeMode d.stream = .error e ∧ d.orchDecode = .error (decodeFault e)) ∨
      ∃ i rest, decodeMode d.stream = .ok (i, rest) ∧ d.orchDecode = d.runMode i := by
  unfold DU.orchDecode
  rcases h : decodeMode d.stream with e | ⟨i, rest⟩
  · exact .inl ⟨e, rfl, rfl⟩
  · exact .inr ⟨i, rest, rfl, rfl⟩

/-! ### The selected code -/

/-- A code has as many bits as its length says (R80). -/
@[simp] theorem bitsOf_length (c : CU) (i : Instr) : (c.bitsOf i).length = c.lengthOf i := codeBits_length _ _ _ _

/-- The code a compressor selects is one of its variant, at its place in the block (R81, R100). -/
theorem selectCode_place (g : CUConfig) (x : Session) (v : U64) :
    (selectCode g x v).codePlace = some (g.variant, x.first) := by
  cases hg : g.variant <;> simp only [selectCode, hg, chimpSelect, elfSelect] <;> by_cases hf : x.first = true
  all_goals simp only [hf]
  all_goals split_ifs <;> simp_all [Instr.codePlace]

/-- What a xor leaves of its base (R89). -/
theorem xor_cancel (a b : U64) : a ^^^ (a ^^^ b) = b := by
  rw [← BitVec.xor_assoc, BitVec.xor_self, BitVec.zero_xor]

/-- A zero xor means equal values (R117, R127). -/
theorem eq_of_xor_eq_zero {a b : U64} (h : a ^^^ b = 0) : a = b := by
  have h1 := xor_cancel a b
  rwa [h, show a ^^^ (0 : U64) = a by simp] at h1

/-- Leading zeros, trailing zeros and what lies between add up to 64 (R89). -/
theorem trailOf_centre {lz tz : Nat} (h : lz + tz < 64) : trailOf lz (64 - lz - tz) = tz := by
  unfold trailOf; omega

/-- A wrapped 4-bit count stands for itself from 1 to 16 (R77). -/
theorem centreOf4_ofNat {n : Nat} (h1 : 1 ≤ n) (h2 : n ≤ 16) : centreOf4 (BitVec.ofNat 4 n) = n := by
  unfold centreOf4
  simp only [BitVec.toNat_ofNat]
  split_ifs <;> omega

/-- A wrapped 6-bit count stands for itself from 1 to 64 (R77). -/
theorem centreOf6_ofNat {n : Nat} (h1 : 1 ≤ n) (h2 : n ≤ 64) : centreOf6 (BitVec.ofNat 6 n) = n := by
  unfold centreOf6
  simp only [BitVec.toNat_ofNat]
  split_ifs <;> omega

/-- The code CHIMP selects is legal where it stands and stands for the value (R115 to R120). -/
theorem chimpSelect_legal (g : CUConfig) (x : Session) (v : U64) :
    codeCheck (chimpSelect g x v) x = none ∧ (codeNext (chimpSelect g x v) x).storedVal = v := by
  have hs := shift_fits g.leadRound (x.storedVal ^^^ v)
  have hs0 := hs 0
  rw [BitVec.ushiftRight_zero, Nat.sub_zero] at hs0
  simp only [chimpSelect]
  split_ifs with h1 h2 h3 h4
  · exact ⟨rfl, rfl⟩
  · exact ⟨rfl, eq_of_xor_eq_zero h2⟩
  · have hl := lead_trail_lt g.leadRound _ h2
    have hsig : (BitVec.ofNat 6 (64 - bucketCount (leadRound g.leadRound (clz64 (x.storedVal ^^^ v))) - ctz64 (x.storedVal ^^^ v))).toNat
        = 64 - bucketCount (leadRound g.leadRound (clz64 (x.storedVal ^^^ v))) - ctz64 (x.storedVal ^^^ v) := by
      simp only [BitVec.toNat_ofNat]; omega
    constructor
    · simp only [codeCheck, chimpTrailCheck, hsig]
      rw [if_neg (by omega), if_neg (by omega), if_pos ((fits_iff _ _).mpr (hs _))]
    · simp only [codeNext, chimpTrailNext, hsig, trailOf_centre hl, took_storedVal,
        placed_shift _ _ (le_refl _), xor_cancel]
  · refine ⟨?_, xor_cancel _ _⟩
    simp only [codeCheck, chimpReuseCheck, h4]
    exact if_pos ((fits_iff _ _).mpr hs0)
  · exact ⟨by simp only [codeCheck, chimpNewLeadCheck, belowLead]; exact if_pos ((fits_iff _ _).mpr hs0),
      xor_cancel _ _⟩

/-- The code ELF selects is legal where it stands and stands for the value (R125 to R131). -/
theorem elfSelect_legal (g : CUConfig) (x : Session) (v : U64) :
    codeCheck (elfSelect g x v) x = none ∧ (codeNext (elfSelect g x v) x).storedVal = v := by
  have hs := shift_fits g.leadRound (x.storedVal ^^^ v)
  simp only [elfSelect]
  split_ifs with h1 h2 h3 h4
  · have hc := ctz64_le v
    have e : (BitVec.ofNat 7 (ctz64 v)).toNat = ctz64 v := by simp only [BitVec.toNat_ofNat]; omega
    refine ⟨?_, by simp only [codeNext, elfFirstNext, e, took_storedVal, placed_shift _ _ (le_refl _)]⟩
    have hf : (v >>> ctz64 v).toNat < 2 ^ (64 - ctz64 v) := by
      rw [BitVec.toNat_ushiftRight, Nat.shiftRight_eq_div_pow, Nat.div_lt_iff_lt_mul (Nat.two_pow_pos _), ← pow_add,
        Nat.sub_add_cancel hc]
      exact v.isLt
    simp only [codeCheck, elfFirstCheck, e]
    rw [if_neg (by omega), if_pos ((fits_iff _ _).mpr hf)]
  · exact ⟨rfl, eq_of_xor_eq_zero h2⟩
  · unfold windowTakes at h3
    rcases hl : x.lead with _ | b <;> rcases ht : x.trail with _ | t <;> simp [hl, ht] at h3
    obtain ⟨rfl, h3⟩ := h3
    refine ⟨?_, by simp only [codeNext, elfReuseNext, ht, Option.elim_some, took_storedVal, placed_shift _ _ h3, xor_cancel]⟩
    simp only [codeCheck, elfReuseCheck, hl, ht]
    exact if_pos ((fits_iff _ _).mpr (hs t.val))
  · have hl := lead_trail_lt g.leadRound _ h2
    have e := centreOf4_ofNat (n := 64 - bucketCount (leadRound g.leadRound (clz64 (x.storedVal ^^^ v))) - ctz64 (x.storedVal ^^^ v))
      (by omega) h4
    refine ⟨by simp only [codeCheck, elfNewShortCheck, e, if_pos ((fits_iff _ _).mpr (hs _))], ?_⟩
    simp only [codeNext, elfNewShortNext, elfWindowNext, e, trailOf_centre hl, took_storedVal,
      placed_shift _ _ (le_refl _), xor_cancel]
  · have hl := lead_trail_lt g.leadRound _ h2
    have e := centreOf6_ofNat (n := 64 - bucketCount (leadRound g.leadRound (clz64 (x.storedVal ^^^ v))) - ctz64 (x.storedVal ^^^ v))
      (by omega) (by omega)
    constructor
    · simp only [codeCheck, elfNewLongCheck, e]
      rw [if_neg (by omega), if_pos ((fits_iff _ _).mpr (hs _))]
    · simp only [codeNext, elfNewLongNext, elfWindowNext, e, trailOf_centre hl, took_storedVal,
        placed_shift _ _ (le_refl _), xor_cancel]

/-- The selected code is legal where it stands and stands for the value (R81, R137). -/
theorem selectCode_legal (g : CUConfig) (x : Session) (v : U64) :
    codeCheck (selectCode g x v) x = none ∧ (codeNext (selectCode g x v) x).storedVal = v := by
  unfold selectCode
  cases g.variant
  · exact chimpSelect_legal g x v
  · exact elfSelect_legal g x v

/-- The code a unit chooses is one of its variant, at its place in the block (R81, R100). -/
theorem chosen_place (c : CU) (v : U64) : (c.chosen v).codePlace = some (c.cfg.variant, c.session.first) :=
  selectCode_place _ _ _

/-- The code a unit chooses is legal where it stands and stands for the value (R81, R137). -/
theorem chosen_legal (c : CU) (v : U64) :
    codeCheck (c.chosen v) c.session = none ∧ (codeNext (c.chosen v) c.session).storedVal = v :=
  selectCode_legal _ _ _

end Sys2Proof.Machine
end

