-- ==== Sys2Proof/Laws/Decimal.lean ====
section
/-! SUPPORT. What the decimal functions can answer: GetSP and P10 on their operands, the arms of RoundDec, the negative of a
pattern, and what being on the grid says (spec/48_decimal_numerics.md R185 to R189). -/

namespace Sys2Proof.Machine

/-- Every `GetSP` is the executable definition on the operands of R185. -/
theorem getSP_eq {c : GetSPChoice} {a : U64} (h : regular a = true) (hs : signBit a = false) :
    getSP c a = decimalExponent (magnitude a) := by
  simp [getSP, h, hs]

/-- Every `P10` is the nearest double on the operands of R186. -/
theorem p10_eq {c : P10Choice} {n : Int} (h1 : -323 ≤ n) (h2 : n ≤ 308) : p10 c n = nearestDouble (.pow 10 n) := by
  simp [p10, inP10Range, h1, h2]

theorem roundDec_reference {g : DUConfig} (h : g.roundDec = .reference) (x : U64) (alpha : Int) :
    roundDec g x alpha = roundDecReference g.p10 x alpha := by
  simp [roundDec, h]

theorem roundDec_other {g : DUConfig} {k : Nat} (h : g.roundDec = .other k) (x : U64) (alpha : Int) :
    roundDec g x alpha = roundDecOther g.p10 k x alpha := by
  simp [roundDec, h]

@[simp] theorem negateIf_false (p : U64) : negateIf false p = p := rfl
@[simp] theorem negateIf_true (p : U64) : negateIf true p = p ^^^ 0x8000000000000000#64 := rfl

/-- The negative of the negative is the pattern. -/
@[simp] theorem negateIf_negateIf (neg : Bool) (p : U64) : negateIf neg (negateIf neg p) = p := by
  cases neg <;> simp

/-- A pattern is its magnitude with its sign. -/
theorem negateIf_signBit_absPattern (x : U64) : negateIf (signBit x) (absPattern x) = x := by
  apply BitVec.eq_of_getLsbD_eq
  intro i hi
  have key : ∀ i : Fin 64, (0x7FFFFFFFFFFFFFFF#64).getLsbD i = decide (i.val ≠ 63) ∧
      (0x8000000000000000#64).getLsbD i = decide (i.val = 63) := by decide +kernel
  obtain ⟨h1, h2⟩ := key ⟨i, hi⟩
  by_cases h : i = 63
  · subst h
    cases hs : signBit x <;> simp_all [negateIf, absPattern, signBit]
  · cases hs : signBit x <;> simp_all [negateIf, absPattern]

/-- The pattern without its sign has none, and is a finite nonzero number if the pattern is. -/
theorem signBit_absPattern (x : U64) : signBit (absPattern x) = false := by
  simp [signBit, absPattern]

theorem regular_absPattern (x : U64) : regular (absPattern x) = regular x := by
  have h : (absPattern x).toNat = x.toNat % 2 ^ 63 := by
    rw [absPattern, BitVec.toNat_and]
    exact Nat.and_two_pow_sub_one_eq_mod x.toNat 63
  have he : expField (absPattern x) = expField x := by
    simp only [expField, h]
    omega
  simp only [regular, he, h, Nat.mod_mod]

/-- What being on the grid says (R189, property 3). -/
theorem onGrid_iff (c : P10Choice) (x : U64) (alpha : Int) :
    onGrid c x alpha = true ↔
      ∃ m : Nat, m < 2 ^ 53 ∧ nearestDouble (Ratio.div ⟨m, 1⟩ (magnitude (p10 c alpha))) = x ∧
        (magnitude (nearestDouble ((magnitude x).mul (magnitude (p10 c alpha))))).num =
          m * (magnitude (nearestDouble ((magnitude x).mul (magnitude (p10 c alpha))))).den := by
  have hden : ∀ p : U64, 0 < (magnitude p).den := by
    intro p
    unfold magnitude
    dsimp only
    split
    · exact Nat.one_pos
    · exact Nat.two_pow_pos _
  simp only [onGrid, Bool.and_eq_true, beq_iff_eq, decide_eq_true_eq]
  constructor
  · rintro ⟨⟨h0, h1⟩, h2⟩
    exact ⟨_, h1, h2, (Nat.div_mul_cancel (Nat.dvd_of_mod_eq_zero h0)).symm⟩
  · rintro ⟨m, h1, h2, h3⟩
    rw [h3, Nat.mul_mod_left, Nat.mul_div_cancel _ (hden _)]
    exact ⟨⟨rfl, h1⟩, h2⟩

/-- Everything another rounding function than the reference can answer (R189): a grid value kept, the source's example, or the
free value; each with the operand's sign carried over. -/
theorem roundDecOther_cases (c : P10Choice) (k : Nat) (x : U64) (alpha : Int) :
    (onGrid c (absPattern x) alpha = true ∧ roundDecOther c k x alpha = x) ∨
      (absPattern x = 0x4037733000000000#64 ∧ alpha = 2 ∧
        roundDecOther c k x alpha = negateIf (signBit x) 0x4037733333333333#64) ∨
      roundDecOther c k x alpha = negateIf (signBit x) (Config.otherRoundDec k (absPattern x) alpha) := by
  unfold roundDecOther
  dsimp only
  split_ifs with h1 h2
  · exact .inl ⟨h1, negateIf_signBit_absPattern x⟩
  · exact .inr (.inl ⟨h2.1, h2.2, rfl⟩)
  · exact .inr (.inr rfl)

end Sys2Proof.Machine
end

