-- ==== Sys2Proof/Tests/Slice0.lean ====
section
/-! SUPPORT. Tests: ill-formed instructions that WellFormed refuses, words written out from the spec's encodings, one-step
vectors of spec/95_test_vectors.md, and for every obligation with hypotheses a concrete state that meets them. -/

namespace Sys2Proof.Tests

set_option Elab.async false

open Sys2Proof Sys2Proof.Machine

/-! ### Helpers -/

/-- Bits written out as 0 and 1. -/
def word (bs : List Nat) : List Bool :=
  bs.map (· == 1)

/-- That many zero bits. -/
def zeros (n : Nat) : List Bool :=
  List.replicate n false

/-- That many one bits. -/
def ones (n : Nat) : List Bool :=
  List.replicate n true

/-- An engine of one unit. -/
def on (u : CodecUnit) : State :=
  { units := [u], pending := [], sel := 0, out := [], draws := 0 }

/-- An engine of one unit with a command issued to it. -/
def issued (u : CodecUnit) (c : Command) : State :=
  { on u with pending := [.command c] }

/-- A command with these port fields, for unit 0. -/
def port (cmd : BitVec 4) : Command :=
  { unit := 0, cmd := cmd, v := 0x41, n := 7, b := [0x9C, 0x00] }

/-- An open compressor unit with the default parameters and these session registers. -/
def cu (vt : Variant) (x : Session) : CU :=
  { CU.reset (.default vt) with session := x }

/-- An open compressor unit with CAPACITY 0, 11 bytes of buffer, and its cursor at p. -/
def smallCU (vt : Variant) (p : Nat) : CU :=
  { CU.reset (.sized vt 0) with wpos := p }

/-- A decompressor unit with the default parameters, these session registers and this source bound. -/
def du (vt : Variant) (x : Session) (src : List Byte) : DU :=
  { DU.reset (.default vt) with session := x, src := src, bound := true }

/-- The session registers of a block under way. -/
def mid (v : U64) (lead : Option Bucket) (trail : Option (Fin 64)) : Session :=
  { storedVal := v, lead := lead, trail := trail, first := false }

/-- A compressor unit in the fault state. -/
def faultedCU : CU :=
  { CU.reset (.default .chimp) with phase := .faulted, faultCode := some .bufferOverflow }

/-- A decompressor unit in the fault state. -/
def faultedDU : DU :=
  { DU.reset (.default .elf) with faulted := true, faultCode := some .streamError }

/-- The latest response. -/
def head (r : StepResult) : Option Response :=
  match r with
  | .next t => t.out.head?
  | _ => none

/-- The status and the result of the latest response. -/
def reply (r : StepResult) : Option (Status × Result) :=
  (head r).map fun x => (x.status, x.result)

/-- The addressed unit after a step. -/
def after (r : StepResult) : Option CodecUnit :=
  match r with
  | .next t => t.unit?
  | _ => none

/-- The session registers of the addressed unit after a step. -/
def session (r : StepResult) : Option Session :=
  (after r).map fun u => match u with | .cu c => c.session | .du d => d.session

/-- The cursor of the addressed unit after a step. -/
def cursor (r : StepResult) : Option Nat :=
  (after r).map fun u => match u with | .cu c => c.wpos | .du d => d.rpos

/-- The first n bytes of the addressed unit's block buffer after a step. -/
def bytes (n : Nat) (r : StepResult) : Option (List Byte) :=
  (after r).bind fun u => match u with | .cu c => c.memRead 0 n | .du _ => none

/-- A step that answers has a next state with that answer. -/
theorem next_of_head {r : StepResult} {x : Response} (h : head r = some x) :
    ∃ t, r = .next t ∧ t.out.head? = some x := by
  cases r with
  | next t => exact ⟨t, rfl, h⟩
  | fault f => cases h
  | refused f => cases h

/-- A bulk decode that answers values has met the sentinel after them. -/
theorem decodesTo_of_loop {decode : DU → Except TerminalFault (Decoded × DU)} {k : Nat} {d : DU} {vs : List U64}
    (h : (decompLoop decode k d).toOption.map Prod.fst = some vs) : ∃ d', DecodesTo decode d vs d' := by
  cases hr : decompLoop decode k d with
  | error f => rw [hr] at h; cases h
  | ok x =>
    rw [hr] at h
    cases h
    exact ⟨x.2, decompLoop_ok hr⟩

/-! ### WellFormed: one ill-formed term for each check -/

theorem test_chimpTrail_no_payload_refused : (Instr.chimpTrail .b0 0 0).wellFormed = false := by decide
theorem test_chimpTrail_too_wide_refused : (Instr.chimpTrail .b24 41 0).wellFormed = false := by decide
theorem test_chimpTrail_payload_refused : (Instr.chimpTrail .b0 3 8).wellFormed = false := by decide
theorem test_chimpNewLead_payload_refused : (Instr.chimpNewLead .b24 0x10000000000).wellFormed = false := by decide
theorem test_elfFirst_count_refused : (Instr.elfFirst 65 0).wellFormed = false := by decide
theorem test_elfFirst_payload_refused : (Instr.elfFirst 64 1).wellFormed = false := by decide
theorem test_elfNewShort_payload_refused : (Instr.elfNewShort .b0 0 0x10000).wellFormed = false := by decide
theorem test_elfNewLong_too_wide_refused : (Instr.elfNewLong .b8 0 0).wellFormed = false := by decide
theorem test_elfNewLong_payload_refused : (Instr.elfNewLong .b0 1 2).wellFormed = false := by decide
theorem test_putBits_width_refused : (Instr.putBits 0 65).wellFormed = false := by decide
theorem test_putBits_operand_refused : (Instr.putBits 4 2).wellFormed = false := by decide
theorem test_getBits_width_refused : (Instr.getBits 65).wellFormed = false := by decide
theorem test_chimpReuse_without_window_refused : (Instr.chimpReuse 0).fitsWindow none none = false := by decide
theorem test_chimpReuse_payload_refused :
    (Instr.chimpReuse 0x10000000000).fitsWindow (some .b24) none = false := by decide
theorem test_elfReuse_without_window_refused : (Instr.elfReuse 0).fitsWindow none none = false := by decide
theorem test_elfReuse_payload_refused : (Instr.elfReuse 0x1000000).fitsWindow (some .b24) (some 16) = false := by decide

/-! ### Parameters (spec/00_scope.md R6): a wrong table for each check, and the values of R6 -/

theorem test_leadCode_repeated_refused : Config.bijective [0, 1, 2, 3, 4, 5, 6, 6] = false := by decide
theorem test_leadCode_short_refused : Config.bijective [0, 1, 2, 3, 4, 5, 6] = false := by decide
theorem test_leadRound_above_refused : Config.roundsDown (.b8 :: tabledRounding.tail) = false := by decide +kernel
theorem test_leadRound_short_refused : Config.roundsDown tabledRounding.tail = false := by decide +kernel
theorem test_default_parameters :
    let g := CUConfig.default .chimp
    g.capacity = 1000 ∧ g.bufBytes = 9761 ∧ g.endSign = 0x7FF8000000000000 ∧ g.tzThreshold = 6 ∧ g.guardBits = 1 ∧
      (CUConfig.default .elf).guardBits = 0 ∧ (DUConfig.default .elf).getSP = .reference ∧
      (DUConfig.default .elf).p10 = .reference ∧ (DUConfig.default .elf).roundDec = .reference := by decide

/-- `LC` in descending order, another bijection (U10). -/
def descending : LeadingRepresentation :=
  ⟨[7, 6, 5, 4, 3, 2, 1, 0], by decide⟩

/-- A unit with another `LC` writes and reads its own codes (R6, U10). -/
theorem test_other_leadCode :
    codeBits descending none none (.elfNewShort .b22 2 1) = word [1, 0, 0, 0, 1, 0, 0, 1, 0, 0, 1] ∧
      decodeCode descending .elf false none none (word [1, 0, 0, 0, 1, 0, 0, 1, 0, 0, 1])
        = .ok (.elfNewShort .b22 2 1, []) := by decide +kernel

/-- A unit with TZ_THRESHOLD 5 elides the 6 trailing zeros that one with 6 writes (R6, R116). -/
theorem test_other_threshold :
    selectCode { CUConfig.default .chimp with tzThreshold := 5 } (mid 0 none none) 0x40 = .chimpTrail .b24 34 1 ∧
      selectCode (.default .chimp) (mid 0 none none) 0x40 = .chimpNewLead .b24 0x40 := by decide +kernel

/-! ### Decoding of words written out from spec/30_encoding.md (values from spec/95_test_vectors.md) -/

theorem test_word_chimpFirst :
    decodeCode .ascending .chimp true none none (word [0, 0, 1, 1, 1, 1, 1, 1, 1, 1, 1, 1] ++ zeros 52)
      = .ok (.chimpFirst 0x3FF0000000000000, []) := by decide +kernel
theorem test_word_chimpSame : decodeCode .ascending .chimp false none none (word [0, 0]) = .ok (.chimpSame, []) := by decide +kernel
theorem test_word_chimpTrail :
    decodeCode .ascending .chimp false none none (word [0, 1, 0, 0, 0, 0, 0, 1, 1, 0, 0, 0] ++ ones 11)
      = .ok (.chimpTrail .b0 12 0x7FF, []) := by decide +kernel
theorem test_word_chimpReuse :
    decodeCode .ascending .chimp false (some .b24) none (word [1, 0] ++ zeros 34 ++ word [1, 0, 0, 0, 1, 1])
      = .ok (.chimpReuse 0x23, []) := by decide +kernel
theorem test_word_chimpNewLead :
    decodeCode .ascending .chimp false none none (word [1, 1, 1, 1, 1] ++ zeros 33 ++ word [1, 0, 0, 0, 0, 0, 1])
      = .ok (.chimpNewLead .b24 0x41, []) := by decide +kernel
theorem test_word_elfFirst :
    decodeCode .ascending .elf true none none (word [0, 1, 1, 0, 1, 0, 0, 0, 0] ++ ones 10) = .ok (.elfFirst 52 0x3FF, []) := by
  decide +kernel
theorem test_word_elfFirst_zero :
    decodeCode .ascending .elf true none none (word [1, 0, 0, 0, 0, 0, 0]) = .ok (.elfFirst 64 0, []) := by decide +kernel
theorem test_word_elfSame : decodeCode .ascending .elf false none none (word [0, 1]) = .ok (.elfSame, []) := by decide +kernel
theorem test_word_elfReuse :
    decodeCode .ascending .elf false (some .b24) (some 16) (word [0, 0] ++ zeros 12 ++ ones 4 ++ zeros 8)
      = .ok (.elfReuse 0xF00, []) := by decide +kernel
theorem test_word_elfNewShort :
    decodeCode .ascending .elf false none none (word [1, 0, 1, 1, 0, 0, 0, 1, 0, 0, 1]) = .ok (.elfNewShort .b22 2 1, []) := by
  decide +kernel
theorem test_word_elfNewShort_wrapped :
    decodeCode .ascending .elf false none none (word [1, 0, 0, 0, 0, 0, 0, 0, 0] ++ ones 16) = .ok (.elfNewShort .b0 0 0xFFFF, []) := by
  decide +kernel
theorem test_word_elfNewLong :
    decodeCode .ascending .elf false none none (word [1, 1, 1, 1, 1, 0, 1, 1, 0, 0, 0] ++ zeros 16 ++ ones 8)
      = .ok (.elfNewLong .b24 24 0xFF, []) := by decide +kernel
theorem test_word_elfNewLong_wrapped :
    decodeCode .ascending .elf false none none (word [1, 1, 0, 0, 0, 0, 0, 0, 0, 0, 0] ++ zeros 63 ++ ones 1)
      = .ok (.elfNewLong .b0 0 1, []) := by decide +kernel
theorem test_word_orchRaw : decodeMode (word [0]) = .ok (.orchRaw, []) := by decide +kernel
theorem test_word_orchDec : decodeMode (word [1, 0, 1, 0, 0]) = .ok (.orchDec 4, []) := by decide +kernel

theorem test_word_addValue : decodeCommand .cu (port 0x1) = .ok (.addValue 0x41) := by decide
theorem test_word_close : decodeCommand .cu (port 0x2) = .ok .close := by decide
theorem test_word_refreshCU : decodeCommand .cu (port 0x3) = .ok .refreshCU := by decide
theorem test_word_putBitsCommand : decodeCommand .cu (port 0x4) = .ok (.putBitsCommand 0x41 7) := by decide
theorem test_word_getBuf : decodeCommand .cu (port 0x5) = .ok .getBuf := by decide
theorem test_word_refreshDU : decodeCommand .du (port 0x3) = .ok .refreshDU := by decide
theorem test_word_setBytes : decodeCommand .du (port 0x8) = .ok (.setBytes [0x9C, 0x00]) := by decide
theorem test_word_readValue : decodeCommand .du (port 0x9) = .ok .readValue := by decide
theorem test_word_nextValue : decodeCommand .du (port 0xA) = .ok .nextValue := by decide
theorem test_word_decompX : decodeCommand .du (port 0xB) = .ok .decompX := by decide
theorem test_word_decompE : decodeCommand .du (port 0xC) = .ok .decompE := by decide
theorem test_word_reserved :
    (([0x0, 0x6, 0x7, 0x8, 0xC, 0xF] : List (BitVec 4)).all fun w =>
        decide (decodeCommand .cu (port w) = .error .reservedCommand)) = true ∧
      (([0x0, 0x1, 0x5, 0x7, 0xD, 0xF] : List (BitVec 4)).all fun w =>
        decide (decodeCommand .du (port w) = .error .reservedCommand)) = true := by decide

/-- The six reserved encodings (spec/95_test_vectors.md V33 to V35). -/
theorem test_reserved_encodings :
    decodeCode .ascending .chimp false none none (word [1, 0]) = .error .chimpReuseNoWindow ∧
    decodeCode .ascending .chimp false none none (word [0, 1, 0, 0, 0, 0, 0, 0, 0, 0, 0]) = .error .chimpTrailNoPayload ∧
    decodeCode .ascending .chimp false none none (word [0, 1, 1, 1, 1, 1, 0, 1, 0, 0, 1]) = .error .chimpTrailTooWide ∧
    decodeCode .ascending .elf true none none (word [1, 0, 0, 0, 0, 0, 1]) = .error .elfFirstTooMany ∧
    decodeCode .ascending .elf false none none (word [0, 0]) = .error .elfReuseNoWindow ∧
    decodeCode .ascending .elf false none none (word [1, 1, 0, 0, 1, 0, 0, 0, 0, 0, 0]) = .error .elfNewLongTooWide := by
  decide +kernel

/-! ### One step of each instruction -/

-- wire codes, emitted (V12, V14, V17 to V19, V23 to V26) and executed (R150 to R165, V21, V29, V30)

theorem test_chimpFirst_emitted :
    let r := exec (.chimpFirst 0x3FF0000000000000) (on (.cu (cu .chimp .reset)))
    reply r = some (.ok, .bits 64) ∧ bytes 9 r = some [0x3F, 0xF0, 0, 0, 0, 0, 0, 0, 0] := by decide +kernel
theorem test_chimpFirst_executed :
    reply (exec (.chimpFirst 0x7FF8000000000000) (on (.du (du .chimp .reset [0, 0, 0, 0, 0, 0, 0, 0]))))
      = some (.eos, .none) := by decide +kernel
theorem test_chimpSame_emitted :
    let r := exec .chimpSame (on (.cu (cu .chimp (mid 0x41 (some .b24) none))))
    reply r = some (.ok, .bits 2) ∧ session r = some (mid 0x41 none none) := by decide +kernel
theorem test_chimpSame_executed :
    let r := exec .chimpSame (on (.du (du .chimp (mid 0x41 (some .b24) none) [0])))
    reply r = some (.ok, .value 0x41) ∧ session r = some (mid 0x41 none none) := by decide +kernel
theorem test_chimpTrail_emitted :
    let r := exec (.chimpTrail .b0 12 0x7FF) (on (.cu (cu .chimp (mid 0x3FF0000000000000 none none))))
    reply r = some (.ok, .bits 23) ∧ bytes 3 r = some [0x41, 0x8F, 0xFE] := by decide +kernel
theorem test_chimpTrail_executed :
    let r := exec (.chimpTrail .b24 40 0x23) (on (.du (du .chimp (mid 0x41 (some .b24) none) [0, 0, 0, 0, 0, 0, 0])))
    reply r = some (.ok, .value 0x62) ∧ session r = some (mid 0x62 none none) := by decide +kernel
theorem test_chimpReuse_emitted :
    let r := exec (.chimpReuse 0x23) (on (.cu (cu .chimp (mid 0x41 (some .b24) none))))
    reply r = some (.ok, .bits 42) ∧ bytes 6 r = some [0x80, 0, 0, 0, 0x08, 0xC0] := by decide +kernel
theorem test_chimpReuse_executed :
    let r := exec (.chimpReuse 0x23) (on (.du (du .chimp (mid 0x41 (some .b24) none) [0, 0, 0, 0, 0, 0])))
    reply r = some (.ok, .value 0x62) ∧ cursor r = some 42 := by decide +kernel
theorem test_chimpNewLead_emitted :
    let r := exec (.chimpNewLead .b8 0x40000000000001) (on (.cu (cu .chimp (mid 0 none none))))
    reply r = some (.ok, .bits 61) ∧ session r = some (mid 0x40000000000001 (some .b8) none) := by decide +kernel
theorem test_chimpNewLead_executed :
    let r := exec (.chimpNewLead .b24 0x41) (on (.du (du .chimp (mid 0 none none) [0, 0, 0, 0, 0, 0])))
    reply r = some (.ok, .value 0x41) ∧ session r = some (mid 0x41 (some .b24) none) := by decide +kernel
theorem test_elfFirst_emitted :
    let r := exec (.elfFirst 64 0) (on (.cu (cu .elf .reset)))
    reply r = some (.ok, .bits 7) ∧ bytes 1 r = some [0x80] := by decide +kernel
theorem test_elfFirst_executed :
    reply (exec (.elfFirst 52 0x3FF) (on (.du (du .elf .reset [0, 0, 0])))) = some (.ok, .value 0x3FF0000000000000) := by
  decide +kernel
theorem test_elfSame_emitted :
    let r := exec .elfSame (on (.cu (cu .elf (mid 0xFF0F00 (some .b24) (some 16)))))
    session r = some (mid 0xFF0F00 (some .b24) (some 16)) ∧ bytes 1 r = some [0x40] := by decide +kernel
theorem test_elfSame_executed :
    let r := exec .elfSame (on (.du (du .elf (mid 0xFF0F00 (some .b24) (some 16)) [0])))
    reply r = some (.ok, .value 0xFF0F00) ∧ cursor r = some 2 := by decide +kernel
theorem test_elfReuse_emitted :
    let r := exec (.elfReuse 0xF00) (on (.cu (cu .elf (mid 0xFF0F00 (some .b24) (some 16)))))
    session r = some (mid 0xFFF0F00 (some .b24) (some 16)) ∧ bytes 4 r = some [0, 0x03, 0xC0, 0] := by decide +kernel
theorem test_elfReuse_executed :
    let r := exec (.elfReuse 0xF00) (on (.du (du .elf (mid 0xFF0F00 (some .b24) (some 16)) [0, 0, 0, 0])))
    reply r = some (.ok, .value 0xFFF0F00) ∧ cursor r = some 26 := by decide +kernel
theorem test_elfNewShort_emitted :
    let r := exec (.elfNewShort .b0 0 0xFFFF) (on (.cu (cu .elf (mid 0 none none))))
    reply r = some (.ok, .bits 25) ∧ session r = some (mid 0xFFFF000000000000 (some .b0) (some 48)) := by decide +kernel
theorem test_elfNewShort_executed :
    let r := exec (.elfNewShort .b22 2 1) (on (.du (du .elf (mid 0xFFF0E00 (some .b24) (some 8)) [0, 0])))
    reply r = some (.ok, .value 0x1000FFF0E00) ∧ session r = some (mid 0x1000FFF0E00 (some .b22) (some 40)) := by
  decide +kernel
theorem test_elfNewLong_emitted :
    let r := exec (.elfNewLong .b24 24 0xFF) (on (.cu (cu .elf (mid 0xF00 none none))))
    reply r = some (.ok, .bits 35) ∧ session r = some (mid 0xFF0F00 (some .b24) (some 16)) := by decide +kernel
theorem test_elfNewLong_executed :
    let r := exec (.elfNewLong .b0 1 1) (on (.du (du .elf (mid 0 none none) [0, 0])))
    reply r = some (.ok, .value 0x8000000000000000) ∧ session r = some (mid 0x8000000000000000 (some .b0) (some 63)) := by
  decide +kernel

-- mode marks (V8, V42, V43, X6)

theorem test_orchRaw_executed :
    let r := exec .orchRaw (on (.du (du .elf .reset [0x40])))
    reply r = some (.ok, .value 0) ∧ cursor r = some 8 := by decide +kernel
theorem test_orchRaw_emitted : reply (exec .orchRaw (on (.cu (cu .elf .reset)))) = some (.ok, .none) := by decide +kernel
theorem test_orchDec_executed :
    let r := exec (.orchDec 4) (on (.du (du .chimp .reset [0xA2, 0x01, 0xBB, 0x99, 0x80, 0, 0, 0, 0])))
    reply r = some (.ok, .value 0x4037733333333333) ∧ session r = some (mid 0x4037733000000000 none none) := by
  decide +kernel
theorem test_orchDec_emitted :
    bytes 1 (exec (.orchDec 4) (on (.cu (cu .elf .reset)))) = some [0xA0] := by decide +kernel

-- host commands (X4, X5, X8, V7, V8, V10, V11, V32, V36)

theorem test_addValue_threshold_not_passed :
    let r := exec (.addValue 0x40) (on (.cu (cu .chimp (mid 0 none none))))
    reply r = some (.ok, .bits 45) ∧ session r = some (mid 0x40 (some .b24) none) := by decide +kernel
theorem test_addValue_threshold_passed :
    let r := exec (.addValue 0x80) (on (.cu (cu .chimp (mid 0 (some .b24) none))))
    reply r = some (.ok, .bits 44) ∧ session r = some (mid 0x80 none none) := by decide +kernel
theorem test_close_chimp :
    let r := exec .close (on (.cu (cu .chimp (mid 0x4000000000000000 none none))))
    reply r = some (.ok, .bits 25) ∧ bytes 5 r = some [0x41, 0xA7, 0xFF, 0, 0] := by decide +kernel
theorem test_close_elf :
    let r := exec .close (on (.cu (cu .elf .reset)))
    reply r = some (.ok, .bits 20) ∧ bytes 4 r = some [0x66, 0xFF, 0xF0, 0] := by decide +kernel
theorem test_refreshCU : after (exec .refreshCU (on (.cu faultedCU))) = some (.cu (.reset (.default .chimp))) := by
  decide +kernel
theorem test_putBitsCommand_appends :
    let r := exec (.putBitsCommand 20 5) (on (.cu (cu .elf .reset)))
    reply r = some (.ok, .none) ∧ bytes 1 r = some [0xA0] := by decide +kernel
theorem test_putBitsCommand_refused :
    reply (exec (.putBitsCommand 4 2) (on (.cu (cu .elf .reset)))) = some (.refused, .none) := by decide +kernel
theorem test_getBuf_closed :
    reply (exec .getBuf (on (.cu { cu .elf (mid 0 none none) with phase := .closed, wpos := 16, buf := [(0, 0x66)] })))
      = some (.ok, .bytes [0x66, 0]) := by decide +kernel
theorem test_getBuf_open : reply (exec .getBuf (on (.cu (cu .elf .reset)))) = some (.refused, .none) := by decide +kernel
theorem test_setBytes :
    after (exec (.setBytes [0x9C, 0]) (on (.du { du .elf (mid 5 none none) [1, 2, 3] with rpos := 9 })))
      = some (.du (du .elf (mid 5 none none) [0x9C, 0])) := by decide +kernel
theorem test_readValue_value :
    let r := exec .readValue (on (.du (du .elf (mid 0xFFF0E00 (some .b24) (some 8)) [0xB1, 0x20])))
    reply r = some (.ok, .value 0x1000FFF0E00) ∧ cursor r = some 11 := by decide +kernel
theorem test_readValue_not_bound :
    reply (exec .readValue (on (.du (.reset (.default .elf))))) = some (.refused, .none) := by decide +kernel
theorem test_nextValue_power_of_ten :
    reply (exec .nextValue (on (.du (du .chimp .reset [0x82, 0x02, 0xC8, 0, 0, 0, 0, 0, 0]))))
      = some (.ok, .value 0x3F50624DD2F1A9FC) := by decide +kernel
theorem test_nextValue_sentinel_under_mark :
    reply (exec .nextValue (on (.du (du .elf .reset [0xAB, 0x37, 0xFF, 0x80])))) = some (.eos, .none) := by decide +kernel
theorem test_decompX :
    let r := exec .decompX (on (.du (du .chimp .reset
      [0x3F, 0xF0, 0, 0, 0, 0, 0, 0, 0x10, 0x63, 0xFF, 0xA0, 0xD3, 0xFF, 0x80])))
    reply r = some (.ok, .values [0x3FF0000000000000, 0x3FF0000000000000, 0x4000000000000000]) ∧ cursor r = some 113 := by
  decide +kernel
theorem test_decompX_truncated :
    (reply (exec .decompX (on (.du (du .chimp .reset [0x3F, 0xF0, 0, 0, 0, 0, 0, 0, 0x10, 0x63]))))) = some (.fault, .none) := by
  decide +kernel
theorem test_decompE_domain :
    reply (exec .decompE (on (.du (du .elf .reset [0x9C, 0])))) = some (.fault, .none) := by decide +kernel
theorem test_decompE_empty :
    reply (exec .decompE (on (.du (du .elf .reset [0x33, 0x7F, 0xF8])))) = some (.ok, .values []) := by decide +kernel
theorem test_refreshDU :
    after (exec .refreshDU (on (.du { du .elf (mid 5 none none) [1, 2] with rpos := 9, ended := true })))
      = some (.du { du .elf .reset [1, 2] with rpos := 9 }) := by decide +kernel

-- primitives (V1, V2, V4, V5)

theorem test_putBits_straddles :
    let r := exec (.putBits 0x2A5 10) (on (.cu { cu .elf .reset with wpos := 6 }))
    bytes 3 r = some [0x02, 0xA5, 0] ∧ cursor r = some 16 := by decide +kernel
theorem test_getBits :
    let r := exec (.getBits 6) (on (.du { du .elf .reset [0x41, 0x80] with rpos := 5 }))
    reply r = some (.ok, .value 12) ∧ cursor r = some 11 := by decide +kernel
theorem test_getBits_past_the_end :
    reply (exec (.getBits 6) (on (.du { du .elf .reset [0x41, 0x80] with rpos := 11 }))) = some (.fault, .none) := by
  decide +kernel
theorem test_flush :
    let r := exec .flush (on (.cu { cu .elf .reset with wpos := 114 }))
    reply r = some (.ok, .bits 6) ∧ cursor r = some 120 := by decide +kernel

-- the numeric functions and the buffer size (V6, V38 to V41)

theorem test_getSP :
    getSP .reference 0x44B52D02C7E14AF6 = 22 ∧ getSP .reference 0x3FB999999999999A = -1 ∧ getSP .reference 1 = -324 ∧
      getSP .reference 0x7FEFFFFFFFFFFFFF = 308 := by decide +kernel
/-- R185 and R186 fix every GetSP and every P10 on their operands (R6). -/
theorem test_getSP_p10_other :
    getSP (.other 2) 0x4059000000000000 = 2 ∧ p10 (.other 2) (-1) = 0x3FB999999999999A := by decide +kernel
theorem test_p10 :
    [23, -3, -323, 22].map (p10 .reference) = [0x44B52D02C7E14AF6, 0x3F50624DD2F1A9FC, 2, 0x4480F0CF064DD592] := by
  decide +kernel
theorem test_roundDec :
    roundDecReference .reference 0xBFD3300000000000 1 = 0xBFD3333333333333 ∧
      roundDecReference .reference 0x4092BE0000000000 (-2) = 0x4092C00000000000 ∧
      roundDecReference .reference 0x3FB1EB851EB851EC 2 = 0x3FB47AE147AE147B := by decide +kernel
/-- R189 holds whatever the other function is: the source's example, of either sign, and a grid value (23.45). -/
theorem test_roundDec_other :
    let g := { DUConfig.default .elf with p10 := .other 5, roundDec := .other 3 }
    roundDec g 0xC037733000000000 2 = 0xC037733333333333 ∧ roundDec g 0x4037733333333333 2 = 0x4037733333333333 := by
  decide +kernel
/-- R188 below alpha 0 (log 23): a grid value, `fl(701570988019379 / P10(-2))`, that the reference does not keep. -/
theorem test_roundDec_reference_below_zero :
    onGrid .reference 0x436F27F04F11F7BD (-2) = true ∧ roundDecReference .reference 0x436F27F04F11F7BD (-2) = 0x436F27F04F11F7BE := by
  decide +kernel
theorem test_bufBytes : [1000, 1, 8, 10, 1001, 0].map bufBytes = [9761, 21, 89, 108, 9771, 11] := by decide

/-- From reset, the first row of each kind runs as the next step. -/
theorem test_withFetchWord :
    reply (step (State.reset.withFetchWord 8 0x2)) = some (.ok, .bits 65) ∧
      reply (step (State.reset.withFetchWord 8 0x9)) = some (.refused, .none) := by decide +kernel

/-! ### A state that meets the hypotheses of each obligation -/

/-- The invariant of a compressor unit after reset, for the witnesses. -/
theorem reset_cu_inv (g : CUConfig) : (CU.reset g).Inv where
  cursor := Nat.zero_le _
  buffer := ⟨List.Pairwise.nil, by simp [CU.reset]⟩
  inside := by simp [CU.reset]
  clear _ _ _ := by simp [CU.reset, Memory.bit, Memory.read]
  whole := by simp [CU.reset]
  fault := by simp [CU.reset]
  noFault _ := rfl
  trail _ := rfl
  session _ := ⟨fun _ => ⟨by simp [CU.reset, Session.reset], by simp [CU.reset, Session.reset]⟩, fun _ => rfl⟩
  taken := by simp [CU.reset]

/-- An engine of one reset compressor unit with a command issued is well kept. -/
theorem issued_inv (g : CUConfig) (c : Command) : (issued (.cu (.reset g)) c).Inv := by
  intro u hu
  obtain rfl : u = .cu (.reset g) := by simpa [issued, on] using hu
  exact reset_cu_inv g

theorem witness_StepRunsTheDecodedCommand :
    (issued (.cu (cu .elf .reset)) (port 4)).units[0]? = some (.cu (cu .elf .reset)) ∧
      decodeCommand .cu (port 4) = .ok (.putBitsCommand 0x41 7) := by decide +kernel
theorem witness_CommandCodesAreTheTabledOnes :
    decodeCommand .cu (port 0x8) = .error .reservedCommand ∧ decodeCommand .du (port 0x1) = .error .reservedCommand := by
  decide
theorem witness_StepWaitsOrResets :
    (on (.cu faultedCU)).pending = [] ∧
      ({ on (.cu faultedCU) with pending := [.reset 0] } : State).units[0]? = some (.cu faultedCU) := by decide +kernel
theorem witness_CommandChangesOneUnitAndGivesOneResponse :
    ∃ t, step (issued (.cu (cu .elf .reset)) (port 1)) = .next t ∧ t.out.head? = some ⟨0, .ok, 0, .bits 71⟩ :=
  next_of_head (by decide +kernel)
theorem witness_AnswersDependOnTheAddressedUnitAlone :
    let s := on (.cu (cu .elf .reset))
    let t := { s with units := [.cu (cu .elf .reset), .du faultedDU], out := [⟨1, .ok, 0, .none⟩] }
    s.unit? = t.unit? ∧ s.sel = t.sel ∧ s.draws = t.draws ∧ reply (exec (.addValue 0) s) = some (.ok, .bits 7) := by
  decide +kernel
theorem witness_WireCodesDecodeToThemselves :
    (Instr.elfReuse 0x7F).codePlace = some (.elf, false) ∧ (Instr.elfReuse 0x7F).wellFormed = true ∧
      (Instr.elfReuse 0x7F).fitsWindow (some .b24) (some 33) = true := by decide
theorem witness_DecodedCodesEncodeBack :
    decodeCode .ascending .elf false (some .b0) (some 0) (word [0, 0] ++ ones 65) = .ok (.elfReuse 0xFFFFFFFFFFFFFFFF, [true]) := by
  decide +kernel
theorem witness_HostCommandsDecodeToThemselves : (Instr.setBytes [1]).commandUnit = some .du := by decide
theorem witness_EveryCodeLengthIsInItsRange :
    (Instr.elfReuse 1).wellFormed = true ∧ (Instr.elfReuse 1).fitsWindow (some .b0) (some 63) = true ∧
      codeLength .ascending (some .b0) (some 63) (.elfReuse 1) = 3 := by decide
theorem witness_ZeroCountsStandAtTheOutermostSetBits :
    clz64 1 = 63 ∧ ctz64 1 = 0 ∧ clz64 0x8000000000000000 = 0 ∧ ctz64 0x8000000000000000 = 63 := by decide +kernel
theorem witness_LeadTablesAreTheTabledOnes :
    ([0, 7, 8, 23, 24, 63].map (leadRound .tabled)) = [.b0, .b0, .b8, .b22, .b24, .b24] := by decide
theorem witness_MalformedExactlyOnReservedEncodings :
    let d := du .chimp (mid 0 none none) [0x80]
    (on (.du d)).unit? = some (.du d) ∧ d.ready = true ∧ reply (exec .readValue (on (.du d))) = some (.fault, .none) := by
  decide +kernel

theorem witness_PutBits_fits :
    let c := smallCU .chimp 24
    c.phase = .opened ∧ c.buf.WF ∧ c.wpos + 64 = 8 * c.bufBytes := by decide +kernel
theorem witness_PutBits_overflows :
    let c := smallCU .chimp 25
    c.phase = .opened ∧ 8 * c.bufBytes + 1 = c.wpos + 64 := by decide +kernel
theorem witness_SplitAndFused_writes : 2 + 62 ≤ 64 ∧ (3 : Nat) < 2 ^ 2 ∧ 2 ^ 62 - 1 < 2 ^ 62 := by decide
theorem witness_SplitAndFused_reads :
    ((du .elf .reset [0x41, 0x80]).getBits (11 + 5)).toOption.map Prod.fst = some 0x4180 := by decide +kernel
theorem witness_GetBits_reads :
    let d := { du .elf .reset [0x41, 0x80] with rpos := 5 }
    d.ready = true ∧ d.rpos + 11 = 8 * d.len := by decide +kernel
theorem witness_GetBits_faults :
    let d := { du .elf .reset [0x41, 0x80] with rpos := 6 }
    d.ready = true ∧ 8 * d.len + 1 = d.rpos + 11 := by decide +kernel
theorem witness_FlushPadsToAWholeByte : (smallCU .elf 81).phase = .opened ∧ 81 ≤ 8 * (smallCU .elf 81).bufBytes := by
  decide +kernel

theorem witness_AddValueAppendsTheChosenCode :
    let c := smallCU .chimp 24
    c.phase = .opened ∧ c.buf.WF ∧
      c.wpos + c.lengthOf (c.chosen 5) = 8 * c.bufBytes := by
  decide +kernel
theorem witness_AddValueRunsTheChosenCode :
    (on (.cu (smallCU .elf 80))).unit? = some (.cu (smallCU .elf 80)) ∧ (smallCU .elf 80).phase = .opened := by
  decide +kernel
theorem witness_ChimpChoosesByTheTable :
    (CUConfig.default .chimp).variant = .chimp ∧ (CUConfig.default .chimp).tzThreshold = 6 ∧
    Session.reset.first = true ∧ (mid 5 none none).storedVal ^^^ 5 = 0 ∧ ctz64 0x80 = 7 ∧ ctz64 0x40 = 6 ∧
      (mid 0 (some .b24) none).lead = some (leadRound .tabled (clz64 0x40)) ∧
        (mid 0 none none).lead ≠ some (leadRound .tabled (clz64 0x40)) := by decide +kernel
theorem witness_ElfChooses_reuse :
    let x := mid 0 (some .b24) (some 16)
    (CUConfig.default .elf).variant = .elf ∧ (CUConfig.default .elf).leadRound = .tabled ∧
    x.lead = some (leadRound .tabled (clz64 0x10000)) ∧ x.trail = some 16 ∧ ctz64 0x10000 = 16 := by decide +kernel
theorem witness_ElfChooses_window :
    let x := mid 0 (some .b24) (some 16)
    (x.lead = some (leadRound .tabled (clz64 0x8000)) ∧ ctz64 0x8000 = 15) ∧
      64 - bucketCount (leadRound .tabled (clz64 0xFFFF000000000000)) - ctz64 0xFFFF000000000000 = 16 ∧
      64 - bucketCount (leadRound .tabled (clz64 0xFFFF800000000000)) - ctz64 0xFFFF800000000000 = 17 ∧
      64 - bucketCount (leadRound .tabled (clz64 0x8000000000000001)) - ctz64 0x8000000000000001 = 64 := by decide +kernel
theorem witness_CloseEndsTheBlock :
    let c := smallCU .chimp 23
    c.phase = .opened ∧ c.buf.WF ∧
      c.wpos + c.lengthOf (c.chosen c.cfg.endSign)
        + c.cfg.guardBits = 8 * c.bufBytes := by decide +kernel
theorem witness_RefreshRestoresTheSession :
    (on (.cu faultedCU)).unit? = some (.cu faultedCU) ∧ (on (.du faultedDU)).unit? = some (.du faultedDU) := by
  decide +kernel
theorem witness_GetBufReturnsTheBlock :
    let c := { smallCU .chimp 88 with phase := .closed }
    (on (.cu c)).unit? = some (.cu c) ∧ c.wpos = 8 * c.bufBytes ∧ faultedCU.phase ≠ .closed := by decide +kernel
theorem witness_WireCodesAreEmitted :
    let c := { smallCU .elf 24 with session := mid 7 (some .b0) (some 2) }
    c.phase = .opened ∧ c.buf.WF ∧ (Instr.elfReuse 9).codePlace = some (c.cfg.variant, c.session.first) ∧
      (Instr.elfReuse 9).wellFormed = true ∧ (Instr.elfReuse 9).fitsWindow c.session.lead c.session.trail = true ∧
      c.wpos + c.lengthOf (.elfReuse 9) = 8 * c.bufBytes := by decide +kernel
theorem witness_ModeMarksAreWrittenWithPutBits :
    (on (.cu (cu .elf .reset))).unit? = some (.cu (cu .elf .reset)) := by decide +kernel

theorem witness_SetBytesBindsTheSource :
    (on (.du faultedDU)).unit? = some (.du faultedDU) ∧ faultedDU.faulted = true ∧ (du .elf .reset []).faulted = false := by
  decide +kernel
theorem witness_ReadValue_code :
    (du .elf (mid 0 none none) [0xB1, 0x20]).ready = true ∧
      (du .elf (mid 0 none none) [0xB1, 0x20]).fetchCode = .ok (.elfNewShort .b22 2 1) := by decide +kernel
theorem witness_ReadValue_no_code :
    (du .elf (mid 0 none none) [0xB1]).fetchCode = .error .streamEnds ∧
      (du .elf (mid 0 none none) [0x00]).fetchCode = .error .elfReuseNoWindow := by decide +kernel
theorem witness_ChimpCodesExecute :
    let d := { du .chimp (mid 0 (some .b24) none) [0, 0, 0, 0, 0, 0, 0, 0] with rpos := 0 }
    let f := du .chimp .reset [0, 0, 0, 0, 0, 0, 0, 0]
    d.ready = true ∧ f.ready = true ∧ f.rpos + 64 = 8 * f.len ∧ (62 : Nat) + 2 = 8 * d.len ∧
      bucketCount .b24 + (40 : BitVec 6).toNat = 64 ∧ 13 + 11 + (40 : BitVec 6).toNat = 8 * d.len ∧
      22 + 2 + (64 - bucketCount .b24) = 8 * d.len ∧ 19 + 5 + (64 - bucketCount .b24) = 8 * d.len := by decide +kernel
theorem witness_ElfCodesExecute :
    let d := du .elf (mid 0 (some .b24) (some 39)) [0, 0, 0, 0, 0, 0, 0, 0]
    let f := du .elf .reset [0]
    d.ready = true ∧ f.ready = true ∧ (64 : BitVec 7).toNat = 64 ∧ (1 : Nat) + 7 + (64 - 64) = 8 * f.len ∧
      61 + 2 + (64 - bucketCount .b24 - 39) = 8 * d.len ∧ 39 + 9 + centreOf4 0 = 8 * d.len ∧
      bucketCount .b24 + centreOf6 40 = 64 ∧ 13 + 11 + centreOf6 40 = 8 * d.len := by decide +kernel
theorem witness_DecompXCollectsTheValues :
    ∃ d', DecodesTo DU.xorDecode (du .elf .reset [0x81, 0x01, 0xC3, 0x7F, 0xFE]) [0, 0x8000000000000000] d' :=
  decodesTo_of_loop (k := 3) (by decide +kernel)
theorem witness_DecompX_fault : DecodesInto DU.xorDecode (du .elf .reset []) .streamError :=
  .now (by decide +kernel)
theorem witness_DecompECollectsTheValues :
    ∃ d', DecodesTo DU.orchDecode (du .elf .reset [0x40, 0x43, 0x5F, 0xFE]) [0] d' :=
  decodesTo_of_loop (k := 2) (by decide +kernel)
theorem witness_DecompE_fault : DecodesInto DU.orchDecode (du .elf .reset [0x9C, 0x00]) .reconDomain :=
  .now (by decide +kernel)

theorem witness_RawModePassesThePatternThrough :
    let d := du .elf .reset [0x40]
    d.ready = true ∧ decodeMode d.stream = .ok (.orchRaw, word [1, 0, 0, 0, 0, 0, 0]) ∧
      (d.advance 1).fetchCode = .ok (.elfFirst 64 0) := by decide +kernel
theorem witness_DecimalMode_sentinel :
    let d := du .elf .reset [0xAB, 0x37, 0xFF, 0x80]
    d.ready = true ∧ (decodeMode d.stream).toOption.map Prod.fst = some (.orchDec 5) ∧
      (d.advance 5).fetchCode = .ok (.elfFirst 51 0xFFF) ∧
      (codeNext (.elfFirst 51 0xFFF) d.session).storedVal = d.cfg.endSign := by decide +kernel
theorem witness_DecimalMode_value :
    let d := du .chimp .reset [0x82, 0x02, 0xC8, 0, 0, 0, 0, 0, 0]
    d.ready = true ∧ (decodeMode d.stream).toOption.map Prod.fst = some (.orchDec 0) ∧
      (d.advance 5).fetchCode = .ok (.chimpFirst 0x4059000000000000) ∧
      reconstruct d.cfg 0 0x4059000000000000 = some 0x3F50624DD2F1A9FC := by decide +kernel
theorem witness_DecimalMode_domain :
    let d := du .elf .reset [0x9C, 0x00]
    (decodeMode d.stream).toOption.map Prod.fst = some (.orchDec 3) ∧ (d.advance 5).fetchCode = .ok (.elfFirst 64 0) ∧
      (codeNext (.elfFirst 64 0) d.session).storedVal ≠ d.cfg.endSign ∧ reconstruct d.cfg 3 0 = none := by
  decide +kernel
theorem witness_NextValueFaultsOnABadStream :
    let d := du .elf (mid 0 none none) [0x80]
    let e := du .elf (mid 0 none none) [0x00]
    d.ready = true ∧ decodeMode { d with rpos := 7 }.stream = .ok (.orchRaw, []) ∧
      decodeMode { d with rpos := 8 }.stream = .error .streamEnds ∧
      (decodeMode e.stream).toOption.map Prod.fst = some .orchRaw ∧ (e.advance 1).fetchCode = .error .elfReuseNoWindow ∧
      (decodeMode d.stream).toOption.map Prod.fst = some (.orchDec 0) ∧ (d.advance 5).fetchCode = .error .elfReuseNoWindow := by
  decide +kernel

theorem witness_RefusalsAreTheTabledOnes :
    (issued (.du faultedDU) (port 0x8)).units[0]? = some (.du faultedDU) ∧
      (Instr.setBytes [0x9C, 0x00]).refusedOn (.du faultedDU) = true ∧
      (Instr.setBytes [0x9C, 0x00]).refusedOn (.du (du .elf .reset [])) = false := by decide +kernel
theorem witness_FaultEntrySetsTheFaultState :
    (on (.cu (cu .elf .reset))).unit? = some (.cu (cu .elf .reset)) ∧
      (on (.du faultedDU)).unit? = some (.du faultedDU) := by decide +kernel
theorem witness_CodesPastTheBufferOverflow :
    let c := smallCU .chimp 25
    let e := smallCU .chimp 24
    c.phase = .opened ∧ c.wpos ≤ 8 * c.bufBytes ∧
      8 * c.bufBytes + 1 = c.wpos + c.lengthOf (c.chosen 5) ∧
      e.wpos ≤ 8 * e.bufBytes ∧
      8 * e.bufBytes + 1 = e.wpos + e.lengthOf (e.chosen e.cfg.endSign) + e.cfg.guardBits := by decide +kernel
theorem witness_FaultStands_refused :
    ∃ t, step (issued (.cu faultedCU) (port 0x1)) = .next t ∧ t.out.head? = some ⟨0, .refused, 0x36#8, .none⟩ :=
  next_of_head (by decide +kernel)
theorem witness_FaultStands_refresh :
    ∃ t, step (issued (.du faultedDU) (port 0x3)) = .next t ∧ t.out.head? = some ⟨0, .ok, 0x08#8, .none⟩ :=
  next_of_head (by decide +kernel)
theorem witness_StopsAreWhereTheyAreNamed :
    let c := { smallCU .elf 96 with phase := .closed }
    ({ on (.cu c) with sel := 1 } : State).unit? = none ∧ c.bufBytes < c.wpos / 8 ∧
      Instr.elfSame.codePlace ≠ some (Variant.elf, Session.reset.first) ∧ faultedDU.ready = false ∧
      ¬ ((2 : BitVec 7).toNat ≤ 64 ∧ (4 : U64).toNat < 2 ^ (2 : BitVec 7).toNat) := by decide +kernel
theorem witness_Stops_codes :
    let c := cu .chimp (mid 7 (some .b24) none)
    let d := du .elf (mid 7 (some .b24) (some 39)) [0]
    c.phase = .opened ∧ d.ready = true ∧
      (Instr.chimpTrail .b24 41 0).codePlace = some (c.cfg.variant, c.session.first) ∧
      (Instr.chimpTrail .b24 41 0).reservedIn c.session.lead c.session.trail = true ∧
      (Instr.chimpTrail .b24 40 0).reservedIn c.session.lead c.session.trail = false ∧
      (Instr.chimpTrail .b24 40 0x10000000000).wellFormed = false ∧
      (Instr.chimpReuse 0x10000000000).fitsWindow c.session.lead c.session.trail = false ∧
      (Instr.elfReuse 2).codePlace = some (d.cfg.variant, d.session.first) ∧
      (Instr.elfReuse 2).reservedIn d.session.lead d.session.trail = false ∧
      (Instr.elfReuse 2).fitsWindow d.session.lead d.session.trail = false := by decide +kernel
theorem witness_Stops_primitives :
    (faultedCU.phase ≠ .opened ∧ faultedDU.ready = false ∧ (du .elf .reset [0]).ready = true) ∧
      64 < (65 : BitVec 7).toNat := by decide +kernel

theorem witness_GetSPIsTheExactDecimalExponent :
    regular 1 = true ∧ regular 0x8010000000000000 = true ∧ regular 0x7FEFFFFFFFFFFFFF = true := by decide +kernel
theorem witness_RoundingGivesTheNearestDouble :
    nearestDouble ⟨(2 ^ 54 - 1) * 2 ^ 970, 1⟩ = infinity ∧
      nearestDouble ⟨(2 ^ 54 - 1) * 2 ^ 970 - 1, 1⟩ = 0x7FEFFFFFFFFFFFFF ∧ nearestDouble ⟨1, 2 ^ 1075⟩ = 0 ∧
      nearestDouble ⟨3, 2 ^ 1075⟩ = 2 := by decide +kernel
theorem witness_PowersOfTenAreTheNearestDoubles :
    [-323, -308, 0, 308].map (p10 .reference) =
      [2, 0x000730D67819E8D2, 0x3FF0000000000000, 0x7FE1CCF385EBC8A0] := by
  decide +kernel
theorem witness_RoundDecKeepsGridValues :
    let x := nearestDouble (Ratio.div ⟨2345, 1⟩ (magnitude (p10 .reference 2)))
    x = 0x4037733333333333 ∧ nearestDouble ((magnitude x).mul (magnitude (p10 .reference 2))) = nearestDouble ⟨2345, 1⟩ := by
  decide +kernel
theorem witness_RoundDecKeeps_other :
    let x := withSign true (nearestDouble (Ratio.div ⟨12, 1⟩ (magnitude (p10 .reference (-2)))))
    x = 0xC092C00000000000 ∧ { DUConfig.default .elf with roundDec := .other 0 }.roundDec ≠ .reference ∧
      nearestDouble ((magnitude x).mul (magnitude (p10 .reference (-2)))) = nearestDouble ⟨12, 1⟩ := by decide +kernel
theorem witness_Reconstruction_domain :
    expField infinity = 2047 ∧ (0x8000000000000000 : U64).toNat % 2 ^ 63 = 0 := by decide +kernel
theorem witness_Reconstruction_powers :
    -getSP .reference 1 - 1 = 323 ∧ -getSP .reference 0x4059000000000000 - 1 = -3 ∧
      (15 : Int) - getSP .reference 1 - 1 = 338 ∧ (1 : Int) - getSP .reference 0x7FEFFFFFFFFFFFFF - 1 = -308 := by decide +kernel
/-- The upper end of the domain: alpha 308 (2e-294, betaStar 15) and 309 (2e-295); -sp - 1 at 308 (2e-309) and 309 (2e-310). -/
theorem witness_Reconstruction_boundary :
    (15 : Int) - getSP .reference 0x02F46FF9C24CB2F3 - 1 = 308 ∧
      (reconstruct (.default .elf) 15 0x02F46FF9C24CB2F3).isSome = true ∧
      (15 : Int) - getSP .reference 0x02C059949B708F29 - 1 = 309 ∧ reconstruct (.default .elf) 15 0x02C059949B708F29 = none ∧
      -getSP .reference 0x0001702AE4D1FB5D - 1 = 308 ∧
      reconstruct (.default .elf) 0 0x0001702AE4D1FB5D = some 0x7FE1CCF385EBC8A0 ∧
      -getSP .reference 0x000024D116E1CC56 - 1 = 309 ∧ reconstruct (.default .elf) 0 0x000024D116E1CC56 = none := by
  decide +kernel

theorem witness_EveryStepKeepsTheInvariant :
    (issued (.cu (.reset (.default .elf))) (port 4)).Inv ∧
      ∃ t, step (issued (.cu (.reset (.default .elf))) (port 4)) = .next t ∧ t.out.head? = some ⟨0, .ok, 0x04#8, .none⟩ :=
  ⟨issued_inv _ _, next_of_head (by decide +kernel)⟩
theorem witness_EveryInstructionKeepsTheInvariant :
    (issued (.cu (.reset (.default .elf))) (port 4)).Inv ∧
      ∃ t, exec .close (issued (.cu (.reset (.default .elf))) (port 4)) = .next t ∧
        t.out.head? = some ⟨0, .ok, 0x01#8, .bits 20⟩ :=
  ⟨issued_inv _ _, next_of_head (by decide +kernel)⟩
theorem witness_DecodingMirrorsEncoding :
    let c := cu .elf (mid 0 none none)
    let d := du .elf (mid 0 none none) [0x80, 0xC0]
    ((c.append 0x8000000000000000).toOption.map Prod.snd) = some 10 ∧ d.cfg.variant = c.cfg.variant ∧
      d.session = c.session ∧
      d.cfg.leadCode = c.cfg.leadCode ∧
      d.stream = c.bitsOf (c.chosen 0x8000000000000000) ++ zeros 6 := by decide +kernel
theorem witness_DecompressInvertsCompress :
    (0x7FF8000000000000 : U64) ∉ ([0x3FF0000000000000, 0x4000000000000000] : List U64) ∧
      ∃ t, State.reset.runScript (compressScript 2 [0x3FF0000000000000, 0x4000000000000000]) = .next t ∧
        t.out.head? = some ⟨2, .ok, 0x01#8, .bytes [0x68, 0x7F, 0xF0, 0xC7, 0xFF, 0x86, 0x9F, 0xFC]⟩ :=
  ⟨by decide, next_of_head (by decide +kernel)⟩
theorem witness_SentinelInDataEndsTheStream :
    ∃ t, State.reset.runScript (compressScript 0 ([0x3FF0000000000000] ++ 0x7FF8000000000000 :: [0x4000000000000000]))
        = .next t ∧
      t.out.head? = some ⟨0, .ok, 0x01#8, .bytes
        [0x3F, 0xF0, 0, 0, 0, 0, 0, 0, 0x41, 0xA8, 0x01, 0x41, 0xA7, 0xFF, 0x41, 0xA7, 0xFF, 0x00]⟩ :=
  next_of_head (by decide +kernel)
theorem witness_BlocksWithinCapacityNeverOverflow :
    (on (.cu (smallCU .elf 80))).units[0]? = some (.cu (smallCU .elf 80)) ∧
      (smallCU .elf 80).cfg.bufBytes = bufBytes (smallCU .elf 80).cfg.capacity ∧
      (smallCU .elf 80).cfg.guardBits = guardBits (smallCU .elf 80).cfg.variant ∧
      ([] : List U64).length = (smallCU .elf 80).cfg.capacity := by decide +kernel
theorem witness_BytesDependOnTheOperandsAlone :
    let is : List Instr := [.putBitsCommand 0 1, .addValue 0]
    (CUConfig.sized .elf 7 = { CUConfig.default .elf with capacity := 7, bufBytes := bufBytes 7 }) ∧
      reply (State.reset.runScript (script 2 ([.refreshCU] ++ (is ++ [.close, .getBuf]))))
        = some (.ok, .bytes [0x40, 0x86, 0xBF, 0xFC]) ∧
      reply ((on (.cu (.reset (.sized .elf 7)))).runScript (script 0 ([] ++ (is ++ [.close, .getBuf]))))
        = some (.ok, .bytes [0x40, 0x86, 0xBF, 0xFC]) := by decide +kernel
theorem witness_ReuseIsLikeAFreshUnit :
    reply (State.reset.runScript (script 2 [.addValue 7, .close, .refreshCU, .addValue 0, .close, .getBuf]))
      = reply (State.reset.runScript (script 2 [.addValue 0, .close, .getBuf])) := by decide +kernel
theorem witness_BitsAfterTheSentinelAreIgnored :
    ∃ d', DecodesTo DU.xorDecode (du .elf .reset [0x66, 0xFF, 0xF0]) [] d' ∧ d'.rpos ≤ 8 * 4 ∧
      (bytesBits [0x66, 0xFF, 0xFF, 0xAA]).take d'.rpos = (bytesBits [0x66, 0xFF, 0xF0]).take d'.rpos :=
  ⟨_, .eos rfl, by decide +kernel, by decide +kernel⟩

end Sys2Proof.Tests
end

section
/-! PROOFS. What a command may not change (spec/00_scope.md R3, R6, R8, R20, 30_encoding.md R86): no operation touches a
unit's parameters, and an instruction that runs answers for the addressed unit exactly once, whatever the instruction. -/

namespace Sys2Proof.Machine

/-! ### No operation changes a unit's parameters (R6) -/

theorem sameUnit_refl (u : CodecUnit) : u.sameUnit u := by
  cases u with
  | cu c => exact rfl
  | du d => exact rfl

theorem sameUnit_enterFault (u : CodecUnit) (k : Nat) (f : TerminalFault) : u.sameUnit (u.enterFault k f) := by
  cases u with
  | cu c => exact cu_enterFault_cfg c k f
  | du d => exact du_enterFault_cfg d k f

theorem putBits_cfg {c c' : CU} {v n : Nat} (h : c.putBits v n = .ok c') : c'.cfg = c.cfg := by
  obtain ⟨-, rfl⟩ := putBits_ok_iff.mp h
  rfl

theorem emit_cfg {c c' : CU} {i : Instr} {n : Nat} (h : c.emit i = .ok (c', n)) : c'.cfg = c.cfg := by
  rcases emit_cases c i with ⟨c1, hput, he⟩ | he
  · obtain ⟨hcfg, -⟩ := putFields_frame hput
    rw [he] at h
    cases h
    exact hcfg
  · rw [he] at h
    cases h

theorem append_cfg {c c' : CU} {v : U64} {n : Nat} (h : c.append v = .ok (c', n)) : c'.cfg = c.cfg := by
  rcases append_cases c v with ⟨c1, k, hemit, ha⟩ | ha
  · have hcfg : c1.cfg = c.cfg := emit_cfg hemit
    rw [ha] at h
    cases h
    exact hcfg
  · rw [ha] at h
    cases h

theorem closeBlock_cfg {c c' : CU} {n : Nat} (h : c.closeBlock = .ok (c', n)) : c'.cfg = c.cfg := by
  rcases closeBlock_cases c with ⟨c1, k, c2, happend, hguard, hc⟩ | hc
  · rw [hc] at h
    cases h
    exact (putBits_cfg hguard).trans (append_cfg happend)
  · rw [hc] at h
    cases h

theorem getBits_cfg {d d' : DU} {n r : Nat} (h : d.getBits n = .ok (r, d')) : d'.cfg = d.cfg := by
  obtain ⟨-, -, rfl⟩ := getBits_ok_iff.mp h
  rfl

theorem execute_cfg {d d' : DU} {i : Instr} {r : Decoded} (h : d.execute i = .ok (r, d')) : d'.cfg = d.cfg := by
  rcases execute_cases d i with ⟨-, he⟩ | ⟨-, ⟨-, he⟩ | ⟨-, he⟩⟩ <;> rw [he] at h <;> cases h <;> rfl

theorem xorDecode_cfg {d d' : DU} {r : Decoded} (h : d.xorDecode = .ok (r, d')) : d'.cfg = d.cfg := by
  rcases xorDecode_cases d with ⟨i, -, hx⟩ | ⟨e, -, hx⟩
  · exact execute_cfg (hx ▸ h)
  · rw [hx] at h
    cases h

theorem decimalMode_cfg {d d' : DU} {b : BitVec 4} {r : Decoded} (h : d.decimalMode b = .ok (r, d')) :
    d'.cfg = d.cfg := by
  rcases decimalMode_cases d b with ⟨f, -, hm⟩ | ⟨d1, hx, hm⟩ | ⟨p, d1, hx, ⟨v, -, hm⟩ | ⟨-, hm⟩⟩ <;>
    rw [hm] at h <;> cases h
  · exact xorDecode_cfg hx
  · exact xorDecode_cfg hx

/-- Everything a mode mark at the read cursor can answer: past the mark, its mode (R170, R196). -/
theorem runMode_cases (d : DU) (i : Instr) :
    d.runMode i = .error .streamError ∨ (∃ b, d.runMode i = (d.advance (d.lengthOf i)).decimalMode b) ∨
      d.runMode i = (d.advance (d.lengthOf i)).xorDecode := by
  unfold DU.runMode
  by_cases hlen : 8 * d.len < d.rpos + d.lengthOf i
  · exact .inl (if_pos hlen)
  · simp only [if_neg hlen]
    split
    next b => exact .inr (.inl ⟨b, rfl⟩)
    next => exact .inr (.inr rfl)

theorem runMode_cfg {d d' : DU} {i : Instr} {r : Decoded} (h : d.runMode i = .ok (r, d')) : d'.cfg = d.cfg := by
  rcases runMode_cases d i with hm | ⟨b, hm⟩ | hm <;> rw [hm] at h
  · cases h
  · exact (decimalMode_cfg h).trans (advance_cfg d _)
  · exact (xorDecode_cfg h).trans (advance_cfg d _)

theorem orchDecode_cfg {d d' : DU} {r : Decoded} (h : d.orchDecode = .ok (r, d')) : d'.cfg = d.cfg := by
  rcases orchDecode_cases d with ⟨e, -, ho⟩ | ⟨i, rest, -, ho⟩ <;> rw [ho] at h
  · cases h
  · exact runMode_cfg h

/-- Decoding over and over changes no parameter when one decode changes none (R138, R176). -/
theorem decodesTo_cfg {decode : DU → Except TerminalFault (Decoded × DU)}
    (hdecode : ∀ {d d' r}, decode d = .ok (r, d') → d'.cfg = d.cfg) {d d' : DU} {vs : List U64}
    (h : DecodesTo decode d vs d') : d'.cfg = d.cfg := by
  induction h with
  | eos h => exact hdecode h
  | value h _ ih => exact ih.trans (hdecode h)

/-! ### What an instruction can answer -/

/-- The outcomes an instruction can have: an answer that leaves the addressed unit with its kind and parameters, a refusal,
a terminal fault of the addressed unit, or a stop. -/
inductive Responds (s : State) : StepResult → Prop where
  | answered {u w : CodecUnit} (st : Status) (r : Result) :
      s.unit? = some u → u.sameUnit w → Responds s (.next (s.answer w st r))
  | refused {u : CodecUnit} : s.unit? = some u → Responds s (.next (s.refuse u))
  | raised {u : CodecUnit} (f : TerminalFault) : s.unit? = some u → Responds s (.next (s.raise u f))
  | fault (e : Fault) : Responds s (.fault e)
  | outside (e : Refusal) : Responds s (.refused e)

theorem onCU_responds {s : State} {f : CU → StepResult} (h : ∀ c, s.unit? = some (.cu c) → Responds s (f c)) :
    Responds s (s.onCU f) := by
  rcases onCU_cases s f with ⟨c, hu, hf⟩ | ⟨d, hu, hf⟩ | ⟨-, hf⟩ <;> rw [hf]
  · exact h c hu
  · exact .refused hu
  · exact .fault _

theorem onDU_responds {s : State} {f : DU → StepResult} (h : ∀ d, s.unit? = some (.du d) → Responds s (f d)) :
    Responds s (s.onDU f) := by
  rcases onDU_cases s f with ⟨d, hu, hf⟩ | ⟨c, hu, hf⟩ | ⟨-, hf⟩ <;> rw [hf]
  · exact h d hu
  · exact .refused hu
  · exact .fault _

theorem finishBits_responds {s : State} {c : CU} {r : Except TerminalFault (CU × Nat)} (hu : s.unit? = some (.cu c))
    (hr : ∀ {c' n}, r = .ok (c', n) → c'.cfg = c.cfg) : Responds s (s.finishBits c r) := by
  rcases finishBits_cases s c r with ⟨c', n, h, hf⟩ | ⟨f, -, hf⟩ <;> rw [hf]
  · exact .answered _ _ hu (hr h)
  · exact .raised f hu

theorem finishDecoded_responds {s : State} {d : DU} {r : Except TerminalFault (Decoded × DU)}
    (hu : s.unit? = some (.du d)) (hr : ∀ {x d'}, r = .ok (x, d') → d'.cfg = d.cfg) :
    Responds s (s.finishDecoded d r) := by
  rcases finishDecoded_cases s d r with ⟨v, d', h, hf⟩ | ⟨d', h, hf⟩ | ⟨f, -, hf⟩ <;> rw [hf]
  · exact .answered _ _ hu (hr h)
  · exact .answered _ _ hu (hr h)
  · exact .raised f hu

/-- A bulk decode answers for its unit when one decode changes no parameter. -/
theorem finishValues_decompLoop_responds {s : State} {d : DU} {decode : DU → Except TerminalFault (Decoded × DU)}
    (hdecode : ∀ {d d' r}, decode d = .ok (r, d') → d'.cfg = d.cfg) (k : Nat) (hu : s.unit? = some (.du d)) :
    Responds s (s.finishValues d (decompLoop decode k d)) := by
  rcases finishValues_cases s d (decompLoop decode k d) with ⟨vs, d', h, hf⟩ | ⟨f, -, hf⟩ <;> rw [hf]
  · exact .answered _ _ hu (decodesTo_cfg hdecode (decompLoop_ok h))
  · exact .raised f hu

theorem putBitsOn_responds {s : State} {c : CU} (hu : s.unit? = some (.cu c)) (v n : Nat) :
    Responds s (s.putBitsOn c v n) := by
  rcases putBitsOn_cases s c v n with ⟨-, hp⟩ | ⟨-, -, -, ⟨c', hput, hp⟩ | ⟨-, hp⟩⟩ <;> rw [hp]
  · exact .refused hu
  · exact .answered _ _ hu (putBits_cfg hput)
  · exact .raised _ hu

theorem runCode_responds (i : Instr) (s : State) : Responds s (runCode i s) := by
  unfold runCode
  split
  next => exact .fault _
  next c hu =>
    split
    · split
      next => exact .outside _
      next => exact .outside _
      next => exact .outside _
      next => exact finishBits_responds hu emit_cfg
    · exact .outside _
  next d hu =>
    split
    · split
      next =>
        split
        · exact .raised _ hu
        · exact .raised _ hu
      next => exact .outside _
      next => exact .outside _
      next => exact finishDecoded_responds hu execute_cfg
    · exact .outside _

theorem runMark_responds (i : Instr) (v n : Nat) (s : State) : Responds s (runMark i v n s) := by
  unfold runMark
  split
  next => exact .fault _
  next c hu => exact putBitsOn_responds hu v n
  next d hu =>
    split
    · exact finishDecoded_responds hu runMode_cfg
    · exact .outside _

/-! ### The commands of a compressor unit -/

theorem execAddValue_responds (v : U64) (s : State) : Responds s (execAddValue v s) :=
  onCU_responds fun c hu => by
    split
    · exact finishBits_responds hu append_cfg
    · exact .refused hu

theorem execClose_responds (s : State) : Responds s (execClose s) :=
  onCU_responds fun c hu => by
    split
    · exact finishBits_responds hu closeBlock_cfg
    · exact .refused hu

theorem execRefreshCU_responds (s : State) : Responds s (execRefreshCU s) :=
  onCU_responds fun _ hu => .answered _ _ hu rfl

theorem execPutBitsCommand_responds (v : U64) (n : BitVec 7) (s : State) : Responds s (execPutBitsCommand v n s) :=
  onCU_responds fun _ hu => putBitsOn_responds hu _ _

theorem execGetBuf_responds (s : State) : Responds s (execGetBuf s) :=
  onCU_responds fun c hu => by
    split
    · split
      next => exact .answered _ _ hu rfl
      next => exact .fault _
    · exact .refused hu

/-! ### The commands of a decompressor unit -/

theorem execSetBytes_responds (b : List Byte) (s : State) : Responds s (execSetBytes b s) :=
  onDU_responds fun d hu => by
    split
    · exact .refused hu
    · exact .answered _ _ hu (bind_cfg d b)

theorem execReadValue_responds (s : State) : Responds s (execReadValue s) :=
  onDU_responds fun d hu => by
    split
    · exact finishDecoded_responds hu xorDecode_cfg
    · exact .refused hu

theorem execNextValue_responds (s : State) : Responds s (execNextValue s) :=
  onDU_responds fun d hu => by
    split
    · exact finishDecoded_responds hu orchDecode_cfg
    · exact .refused hu

theorem execDecompX_responds (s : State) : Responds s (execDecompX s) :=
  onDU_responds fun d hu => by
    split
    · exact finishValues_decompLoop_responds xorDecode_cfg _ hu
    · exact .refused hu

theorem execDecompE_responds (s : State) : Responds s (execDecompE s) :=
  onDU_responds fun d hu => by
    split
    · exact finishValues_decompLoop_responds orchDecode_cfg _ hu
    · exact .refused hu

theorem execRefreshDU_responds (s : State) : Responds s (execRefreshDU s) :=
  onDU_responds fun d hu => .answered _ _ hu (du_refresh_cfg d)

/-! ### The primitives -/

theorem execPutBits_responds (v : U64) (n : BitVec 7) (s : State) : Responds s (execPutBits v n s) := by
  unfold execPutBits
  split
  next => exact .fault _
  next => exact .outside _
  next c hu =>
    split_ifs
    · split
      next hput => exact .answered _ _ hu (putBits_cfg hput)
      next f _ => exact .raised f hu
    · exact .outside _
    · exact .outside _

theorem execGetBits_responds (n : BitVec 7) (s : State) : Responds s (execGetBits n s) := by
  unfold execGetBits
  split
  next => exact .fault _
  next => exact .outside _
  next d hu =>
    split_ifs
    · split
      next hget => exact .answered _ _ hu (getBits_cfg hget)
      next f _ => exact .raised f hu
    · exact .outside _
    · exact .outside _

theorem execFlush_responds (s : State) : Responds s (execFlush s) := by
  unfold execFlush
  split
  next => exact .fault _
  next => exact .outside _
  next c hu =>
    split
    · exact .answered _ _ hu (flush_cfg c)
    · exact .outside _

/-- Every instruction answers, is refused or takes a fault on the addressed unit, or stops (R8, R86). -/
theorem exec_responds (i : Instr) (s : State) : Responds s (exec i s) := by
  cases i with
  | chimpFirst | chimpSame | chimpTrail | chimpReuse | chimpNewLead => exact runCode_responds _ s
  | elfFirst | elfSame | elfReuse | elfNewShort | elfNewLong => exact runCode_responds _ s
  | orchRaw | orchDec => exact runMark_responds _ _ _ s
  | addValue v => exact execAddValue_responds v s
  | close => exact execClose_responds s
  | refreshCU => exact execRefreshCU_responds s
  | putBitsCommand v n => exact execPutBitsCommand_responds v n s
  | getBuf => exact execGetBuf_responds s
  | setBytes b => exact execSetBytes_responds b s
  | readValue => exact execReadValue_responds s
  | nextValue => exact execNextValue_responds s
  | decompX => exact execDecompX_responds s
  | decompE => exact execDecompE_responds s
  | refreshDU => exact execRefreshDU_responds s
  | putBits v n => exact execPutBits_responds v n s
  | getBits n => exact execGetBits_responds n s
  | flush => exact execFlush_responds s

/-- A command on a port does what an instruction may do, a reserved code included (R85, R202). -/
theorem runCommand_responds (s : State) (c : Command) : Responds s (s.runCommand c) := by
  rcases runCommand_cases s c with ⟨-, hr⟩ | ⟨u, hu, ⟨i, -, hr⟩ | ⟨e, -, hr⟩⟩ <;> rw [hr]
  · exact .fault _
  · exact exec_responds i s
  · exact .refused hu

/-- What a next state keeps of the one before: the queue, the addressing, the other units, the addressed unit's kind and
parameters; it has one response more, and at most one free-value index is used up (R20, R86, R209). -/
theorem Responds.frame {s t : State} (h : Responds s (.next t)) :
    t.pending = s.pending ∧ t.sel = s.sel ∧ t.units.length = s.units.length ∧
      (∀ j, j ≠ s.sel → t.units[j]? = s.units[j]?) ∧ (s.draws ≤ t.draws ∧ t.draws ≤ s.draws + 1) ∧
        ∃ u w st r, s.unit? = some u ∧ t.unit? = some w ∧ u.sameUnit w ∧
          t.out = ⟨s.sel, st, w.statusWord, r⟩ :: s.out := by
  have hothers (w : CodecUnit) (j : Nat) (hj : j ≠ s.sel) : (s.units.set s.sel w)[j]? = s.units[j]? :=
    List.getElem?_set_ne hj.symm
  cases h with
  | @answered u w st r hu hw =>
    exact ⟨rfl, rfl, List.length_set, hothers w, ⟨le_rfl, Nat.le_succ _⟩, u, w, st, r, hu, answer_unit? hu, hw, rfl⟩
  | @refused u hu =>
    exact ⟨rfl, rfl, rfl, fun _ _ => rfl, ⟨le_rfl, Nat.le_succ _⟩, u, u, _, _, hu, hu, sameUnit_refl u, rfl⟩
  | @raised u f hu =>
    exact ⟨rfl, rfl, List.length_set, hothers _, ⟨Nat.le_succ _, le_rfl⟩, u, u.enterFault s.draws f, _, _, hu,
      answer_unit? (st := .fault) (r := .none) hu, sameUnit_enterFault u s.draws f, rfl⟩

/-! ### A step with a command issued -/

theorem step_command {s : State} {c : Command} {rest : List HostEvent} (h : s.pending = .command c :: rest) :
    step s = (s.take c.unit rest).runCommand c := by
  simp only [step, h]

theorem runCommand_ok {s : State} {c : Command} {u : CodecUnit} {i : Instr} (hu : s.unit? = some u)
    (hd : decodeCommand u.kind c = .ok i) : s.runCommand c = exec i s := by
  simp only [State.runCommand, hu, hd]

/-- Settles O6: a command that is run responds, and every response keeps this frame. -/
theorem commandChangesOneUnitAndGivesOneResponse : Obligations.CommandChangesOneUnitAndGivesOneResponse := by
  intro s t c rest hpending hstep
  rw [step_command hpending] at hstep
  have hresponds : Responds (s.take c.unit rest) (.next t) := hstep ▸ runCommand_responds _ c
  obtain ⟨hqueue, hsel, hlength, hothers, hdraws, u, w, st, r, hu, hw, hsame, hout⟩ := hresponds.frame
  refine ⟨hqueue, hlength, hothers, hdraws, u, w, st, r, hu, ?_, hsame, hout⟩
  rwa [State.unit?, hsel] at hw

/-- Settles O3: the decoded command is the instruction that the unit runs. -/
theorem stepRunsTheDecodedCommand : Obligations.StepRunsTheDecodedCommand := by
  intro s c rest u i hpending hunit hdecode
  rw [step_command hpending]
  exact runCommand_ok (s := s.take c.unit rest) hunit hdecode

end Sys2Proof.Machine
end

section
/-! PROOFS. The counts of R10 by the bits of a pattern, and the lookup tables of R61 and R62. -/

namespace Sys2Proof.Machine

theorem getLsbD_clz64 (a : U64) (h : a ≠ 0) : a.getLsbD (63 - clz64 a) = true := by
  have hupper : a.toNat < 2 ^ (63 - clz64 a + 1) := by
    have hle := clz64_le a h
    rw [show 63 - clz64 a + 1 = 64 - clz64 a by omega]
    exact toNat_lt_clz64 a
  exact Nat.testBit_of_two_pow_le_and_two_pow_add_one_gt (le_toNat_clz64 a h) hupper

theorem getLsbD_above_clz64 (a : U64) {i : Nat} (hi : 63 - clz64 a < i) : a.getLsbD i = false :=
  Nat.testBit_lt_two_pow
    (Nat.lt_of_lt_of_le (toNat_lt_clz64 a) (Nat.pow_le_pow_right (by omega) (by omega)))

theorem getLsbD_below_ctz64 (a : U64) {i : Nat} (hi : i < ctz64 a) : a.getLsbD i = false := by
  obtain ⟨m, hm⟩ := ctz64_dvd a
  rw [← BitVec.testBit_toNat, hm, Nat.testBit_two_pow_mul]
  simp [hi]

/-- Settles O15: the counts bound the pattern from above (clz64) and divide it (ctz64), which places its outermost bits. -/
theorem zeroCountsStandAtTheOutermostSetBits : Obligations.ZeroCountsStandAtTheOutermostSetBits :=
  ⟨clz64_zero, ctz64_zero, fun a ha =>
    ⟨clz64_le a ha, getLsbD_clz64 a ha, fun _ => getLsbD_above_clz64 a,
      Nat.le_of_lt_succ (ctz64_lt a ha), testBit_ctz64 a ha, fun _ => getLsbD_below_ctz64 a⟩⟩

/-- Settles O16: the tables' own lemmas; only the eight rows of the ascending `LC` are evaluated. -/
theorem leadTablesAreTheTabledOnes : Obligations.LeadTablesAreTheTabledOnes := by
  refine ⟨fun n hn => ⟨leadRound_le .tabled n, le_leadRound n hn⟩, ?ascending, fun vt => ⟨rfl, rfl, rfl⟩,
    leadBucket_leadCode, leadCode_leadBucket, fun t a _ => toNat_lt_leadRound t a⟩
  case ascending => decide

end Sys2Proof.Machine
end

section
/-! PROOFS. The invariant of a unit is kept: by the codes on the session registers, by the writer, by the decoder, by fault
entry, REFRESH and reset, and so by every instruction and every step (spec/10_state.md R24, R25, R33, 20_memory.md R40, R46,
44_decompressor_contract.md R136, 60_exceptions.md R203). -/

namespace Sys2Proof.Machine

/-! ### The session registers -/

/-- The session part of the invariant of either kind of unit that is in no fault: a CHIMP unit has no trailing register, and
the registers meet `Session.Inv`. -/
def Session.Legal (vt : Variant) (x : Session) : Prop :=
  (vt = .chimp → x.trail = none) ∧ x.Inv vt

theorem session_reset_legal (vt : Variant) : Session.reset.Legal vt :=
  ⟨fun _ => rfl, fun _ => ⟨⟨fun _ => rfl, fun _ => rfl⟩, nofun⟩, fun _ => rfl⟩

theorem legal_chimp {x : Session} (htrail : x.trail = none) (hfirst : x.first = false) : x.Legal .chimp :=
  ⟨fun _ => htrail, nofun, fun h => by rw [hfirst] at h; cases h⟩

theorem legal_elf {x : Session} (hwindow : x.WindowInv) (hfirst : x.first = false) : x.Legal .elf :=
  ⟨nofun, fun _ => hwindow, fun h => by rw [hfirst] at h; cases h⟩

/-- The value does not matter once one has been taken. -/
theorem legal_with_storedVal {vt : Variant} {x : Session} (h : x.Legal vt) (hfirst : x.first = false) (v : U64) :
    { x with storedVal := v }.Legal vt := by
  obtain ⟨htrail, hwindow, -⟩ := h
  exact ⟨htrail, hwindow, fun hf => by rw [show x.first = true from hf] at hfirst; cases hfirst⟩

/-- A code that opens a window leaves a legal one: its centre has at least one bit (R129, R164, R165). -/
theorem elfWindowNext_window {lz : Bucket} {cb : Nat} (payload : U64) (x : Session) (hpos : 1 ≤ cb)
    (hfit : bucketCount lz + cb ≤ 64) : (elfWindowNext lz cb payload x).WindowInv := by
  refine ⟨⟨nofun, nofun⟩, ?_⟩
  rintro b t ⟨⟩ ⟨⟩
  have htrail : (trailReg (bucketCount lz) cb).val ≤ trailOf (bucketCount lz) cb := Nat.mod_le _ _
  have hcentre : trailOf (bucketCount lz) cb = 64 - bucketCount lz - cb := rfl
  omega

/-- A code of the unit's variant that is not reserved keeps the session legal, and leaves it with a value taken. -/
theorem codeNext_legal {vt : Variant} {first : Bool} {i : Instr} {x : Session} (hx : x.Legal vt)
    (hplace : i.codePlace = some (vt, first)) (hres : i.reservedIn x.lead x.trail = false) :
    (codeNext i x).Legal vt ∧ (codeNext i x).first = false := by
  obtain ⟨htrail, hwindow, -⟩ := hx
  cases i <;> cases hplace
  case chimpFirst | chimpSame | chimpTrail | chimpReuse | chimpNewLead => exact ⟨legal_chimp (htrail rfl) rfl, rfl⟩
  case elfFirst | elfSame => exact ⟨legal_elf (hwindow rfl) rfl, rfl⟩
  case elfReuse payload =>
    obtain ⟨-, hsome⟩ := Bool.or_eq_false_iff.mp hres
    obtain ⟨t, ht⟩ := Option.isSome_iff_exists.mp (Option.isNone_eq_false_iff.mp hsome)
    have hnext : codeNext (.elfReuse payload) x = x.took (x.storedVal ^^^ placed payload t.val) := by
      simp only [codeNext, elfReuseNext, ht]
    rw [hnext]
    exact ⟨legal_elf (hwindow rfl) rfl, rfl⟩
  case elfNewShort lz cb4 payload =>
    have hrange := centreOf4_range cb4
    have hlz := bucketCount_le lz
    exact ⟨legal_elf (elfWindowNext_window payload x hrange.1 (by omega)) rfl, rfl⟩
  case elfNewLong lz cb6 payload =>
    have hfit : bucketCount lz + centreOf6 cb6 ≤ 64 := by simpa [Instr.reservedIn] using hres
    exact ⟨legal_elf (elfWindowNext_window payload x (centreOf6_range cb6).1 hfit) rfl, rfl⟩

/-! ### Which codes are not reserved -/

/-- A well-formed code that fits the window is none of the reserved encodings (R82). -/
theorem reservedIn_eq_false {i : Instr} {lead : Option Bucket} {trail : Option (Fin 64)} (hwf : i.wellFormed = true)
    (hfit : i.fitsWindow lead trail = true) : i.reservedIn lead trail = false := by
  cases i <;> try rfl
  case chimpTrail | elfFirst | elfNewLong => simp_all [Instr.wellFormed, Instr.reservedIn]
  case chimpReuse payload => cases lead <;> simp_all [Instr.fitsWindow, Instr.reservedIn]
  case elfReuse payload => cases lead <;> cases trail <;> simp_all [Instr.fitsWindow, Instr.reservedIn]

theorem reservedIn_of_codeCheck {i : Instr} {x : Session} {p : Variant × Bool} (hplace : i.codePlace = some p)
    (hcheck : codeCheck i x = none) : i.reservedIn x.lead x.trail = false := by
  obtain ⟨hwf, hfit⟩ := (codeCheck_eq_none_iff (by simp [hplace])).mp hcheck
  exact reservedIn_eq_false hwf hfit

/-! ### What the decoder answers -/

/-- Every code that a decoding answers has a property. -/
def Answers (P : Instr → Prop) (r : Except DecodeError (Instr × List Bool)) : Prop :=
  ∀ i rest, r = .ok (i, rest) → P i

section
variable {P : Instr → Prop}

theorem answers_ok {i : Instr} (h : P i) (rest : List Bool) : Answers P (.ok (i, rest)) := by
  rintro _ _ ⟨⟩
  exact h

theorem answers_error (e : DecodeError) : Answers P (.error e) := nofun

/-- After a field, with the field's value below 2^n. -/
theorem answers_takeField {n : Nat} {bs : List Bool} {k : Nat × List Bool → Except DecodeError (Instr × List Bool)}
    (h : ∀ v rest, v < 2 ^ n → Answers P (k (v, rest))) : Answers P (takeField n bs >>= k) := by
  rcases hf : takeField n bs with e | ⟨v, rest⟩
  · exact answers_error e
  · obtain ⟨xs, -, hlen, hv⟩ := takeField_ok_iff.mp hf
    exact h v rest (hv ▸ hlen ▸ bitsToNat_lt xs)

theorem answers_ite {p : Prop} [Decidable p] {r q : Except DecodeError (Instr × List Bool)} (hr : p → Answers P r)
    (hq : ¬ p → Answers P q) : Answers P (if p then r else q) := by
  split
  next h => exact hr h
  next h => exact hq h

end

/-- A code that stands at this place, none of the reserved encodings. -/
def PlacedCode (vt : Variant) (first : Bool) (lead : Option Bucket) (trail : Option (Fin 64)) (i : Instr) : Prop :=
  i.codePlace = some (vt, first) ∧ i.reservedIn lead trail = false

section
variable (lc : LeadingRepresentation) (lead : Option Bucket) (trail : Option (Fin 64)) (bs : List Bool)

theorem decodeChimpFirst_answers : Answers (PlacedCode .chimp true lead trail) (decodeChimpFirst bs) :=
  answers_takeField fun _ _ _ => answers_ok ⟨rfl, rfl⟩ _

theorem decodeChimpTrail_answers : Answers (PlacedCode .chimp false lead trail) (decodeChimpTrail lc bs) :=
  answers_takeField fun l _ _ => answers_takeField fun sig _ hsig =>
    answers_ite (fun _ => answers_error _) fun hzero =>
      answers_ite (fun _ => answers_error _) fun hwide =>
        answers_takeField fun _ _ _ => answers_ok ⟨rfl, by
          have hfield : (BitVec.ofNat 6 sig).toNat = sig := Nat.mod_eq_of_lt hsig
          simp [Instr.reservedIn, hfield, hzero, Nat.le_of_not_lt hwide]⟩ _

theorem decodeChimpReuse_answers : Answers (PlacedCode .chimp false lead trail) (decodeChimpReuse lead bs) := by
  cases lead with
  | none => exact answers_error _
  | some b => exact answers_takeField fun _ _ _ => answers_ok ⟨rfl, rfl⟩ _

theorem decodeChimpNewLead_answers : Answers (PlacedCode .chimp false lead trail) (decodeChimpNewLead lc bs) :=
  answers_takeField fun _ _ _ => answers_takeField fun _ _ _ => answers_ok ⟨rfl, rfl⟩ _

theorem decodeChimpNext_answers : Answers (PlacedCode .chimp false lead trail) (decodeChimpNext lc lead bs) :=
  answers_takeField fun _ _ _ =>
    answers_ite (fun _ => answers_ok ⟨rfl, rfl⟩ _) fun _ =>
      answers_ite (fun _ => decodeChimpTrail_answers lc lead trail _) fun _ =>
        answers_ite (fun _ => decodeChimpReuse_answers lead trail _) fun _ => decodeChimpNewLead_answers lc lead trail _

theorem decodeElfFirst_answers : Answers (PlacedCode .elf true lead trail) (decodeElfFirst bs) :=
  answers_takeField fun tz _ htz =>
    answers_ite (fun _ => answers_error _) fun hmany =>
      answers_takeField fun _ _ _ => answers_ok ⟨rfl, by
        have hfield : (BitVec.ofNat 7 tz).toNat = tz := Nat.mod_eq_of_lt htz
        simp [Instr.reservedIn, hfield, Nat.le_of_not_lt hmany]⟩ _

theorem decodeElfReuse_answers : Answers (PlacedCode .elf false lead trail) (decodeElfReuse lead trail bs) := by
  rcases lead with _ | b
  · exact answers_error _
  · rcases trail with _ | t
    · exact answers_error _
    · exact answers_takeField fun _ _ _ => answers_ok ⟨rfl, rfl⟩ _

theorem decodeElfNewShort_answers : Answers (PlacedCode .elf false lead trail) (decodeElfNewShort lc bs) :=
  answers_takeField fun _ _ _ => answers_takeField fun _ _ _ => answers_takeField fun _ _ _ => answers_ok ⟨rfl, rfl⟩ _

theorem decodeElfNewLong_answers : Answers (PlacedCode .elf false lead trail) (decodeElfNewLong lc bs) :=
  answers_takeField fun _ _ _ => answers_takeField fun _ _ _ =>
    answers_ite (fun _ => answers_error _) fun hwide =>
      answers_takeField fun _ _ _ => answers_ok ⟨rfl, decide_eq_false hwide⟩ _

theorem decodeElfNext_answers : Answers (PlacedCode .elf false lead trail) (decodeElfNext lc lead trail bs) :=
  answers_takeField fun _ _ _ =>
    answers_ite (fun _ => decodeElfReuse_answers lead trail _) fun _ =>
      answers_ite (fun _ => answers_ok ⟨rfl, rfl⟩ _) fun _ =>
        answers_ite (fun _ => decodeElfNewShort_answers lc lead trail _) fun _ => decodeElfNewLong_answers lc lead trail _

/-- What decodes is a code of the variant, at its place, and never a reserved encoding (R80, R82). -/
theorem decodeCode_answers (vt : Variant) (first : Bool) :
    Answers (PlacedCode vt first lead trail) (decodeCode lc vt first lead trail bs) := by
  cases vt <;> cases first
  · exact decodeChimpNext_answers lc lead trail bs
  · exact decodeChimpFirst_answers lead trail bs
  · exact decodeElfNext_answers lc lead trail bs
  · exact decodeElfFirst_answers lead trail bs

end

theorem fetchCode_placed {d : DU} {i : Instr} (h : d.fetchCode = .ok i) :
    PlacedCode d.cfg.variant d.session.first d.session.lead d.session.trail i := by
  unfold DU.fetchCode at h
  split at h
  · cases h
  next j rest hdecode =>
    cases h
    exact decodeCode_answers _ _ _ _ _ _ _ _ hdecode

/-! ### A compressor unit -/

/-- The part of the invariant that is about the stream a compressor unit writes: the cursor and the buffer. -/
structure CU.StreamInv (c : CU) : Prop where
  cursor : c.wpos ≤ 8 * c.bufBytes
  buffer : c.buf.WF
  inside : ∀ x ∈ c.buf, x.1 < c.bufBytes
  clear  : ∀ p, c.wpos ≤ p → c.buf.bit p = false

/-- A compressor unit in phase OPEN that is well kept. -/
structure CU.OpenInv (c : CU) : Prop where
  phase   : c.phase = .opened
  code    : c.faultCode = none
  stream  : c.StreamInv
  session : c.session.Legal c.cfg.variant

theorem CU.Inv.openInv {c : CU} (h : c.Inv) (hp : c.phase = .opened) : c.OpenInv := by
  have hf : c.phase ≠ .faulted := by simp [hp]
  exact ⟨hp, h.noFault hf, ⟨h.cursor, h.buffer, h.inside, h.clear hf⟩, h.trail, h.session hf⟩

theorem CU.OpenInv.inv {c : CU} (h : c.OpenInv) : c.Inv where
  cursor := h.stream.cursor
  buffer := h.stream.buffer
  inside := h.stream.inside
  clear _ := h.stream.clear
  whole hp := by simp [h.phase] at hp
  fault := by simp [h.phase, h.code]
  noFault _ := h.code
  trail := h.session.1
  session _ := h.session.2
  taken hp := by simp [h.phase] at hp

theorem CU.OpenInv.with_session {c : CU} (h : c.OpenInv) {x : Session} (hx : x.Legal c.cfg.variant) :
    { c with session := x }.OpenInv :=
  ⟨h.phase, h.code, ⟨h.stream.cursor, h.stream.buffer, h.stream.inside, h.stream.clear⟩, hx⟩

/-- A block is closed at a whole byte, after a value (R46, R101). -/
theorem CU.OpenInv.closed {c : CU} (h : c.OpenInv) (hwhole : c.wpos % 8 = 0) (hfirst : c.session.first = false) :
    { c with phase := .closed }.Inv where
  cursor := h.stream.cursor
  buffer := h.stream.buffer
  inside := h.stream.inside
  clear _ := h.stream.clear
  whole _ := hwhole
  fault := by simp [h.code]
  noFault _ := h.code
  trail := h.session.1
  session _ := h.session.2
  taken _ := hfirst

theorem cu_reset_openInv (g : CUConfig) : (CU.reset g).OpenInv where
  phase := rfl
  code := rfl
  stream := ⟨Nat.zero_le _, wf_nil, nofun, fun _ _ => BitVec.getLsbD_zero⟩
  session := session_reset_legal _

theorem cu_enterFault_inv (c : CU) (k : Nat) : (c.enterFault k .bufferOverflow).Inv where
  cursor := Nat.le_of_lt_succ (Nat.mod_lt _ (Nat.succ_pos _))
  buffer := freeBuffer_wf _ _
  inside := freeBuffer_inside _ _
  clear h := absurd rfl h
  whole := nofun
  fault := ⟨fun _ => rfl, fun _ => rfl⟩
  noFault h := absurd rfl h
  trail h := by
    have hv : c.cfg.variant = .chimp := h
    simp [freeSession, hv]
  session h := absurd rfl h
  taken := nofun

theorem putBits_streamInv {c c' : CU} {v n : Nat} (h : c.StreamInv) (hput : c.putBits v n = .ok c') : c'.StreamInv := by
  obtain ⟨hfit, rfl⟩ := putBits_ok_iff.mp hput
  refine ⟨hfit, writeField_wf h.buffer, writeField_inside h.inside hfit, fun p hp => ?_⟩
  have hpast : c.wpos + n ≤ p := hp
  calc (c.buf.writeField c.wpos v n).bit p
    _ = c.buf.bit p := by rw [bit_writeField h.buffer, if_neg (by omega)]
    _ = false := h.clear p (by omega)

theorem putBits_openInv {c c' : CU} {v n : Nat} (h : c.OpenInv) (hput : c.putBits v n = .ok c') :
    c'.OpenInv ∧ c'.session = c.session := by
  have hstream := putBits_streamInv h.stream hput
  obtain ⟨-, rfl⟩ := putBits_ok_iff.mp hput
  exact ⟨⟨h.phase, h.code, hstream, h.session⟩, rfl⟩

theorem putFields_openInv : ∀ {fs : List Field} {c c' : CU}, c.OpenInv → c.putFields fs = .ok c' → c'.OpenInv
  | [], _, _, h, hput => by
      cases hput
      exact h
  | f :: fs, c, c', h, hput => by
      simp only [CU.putFields] at hput
      split at hput
      · cases hput
      next c1 h1 => exact putFields_openInv (putBits_openInv h h1).1 hput

/-- Emitting a code keeps an open unit well kept, and leaves it with a value taken. -/
theorem emit_openInv {c c' : CU} {i : Instr} {n : Nat} (h : c.OpenInv)
    (hi : PlacedCode c.cfg.variant c.session.first c.session.lead c.session.trail i) (hemit : c.emit i = .ok (c', n)) :
    c'.OpenInv ∧ c'.session.first = false := by
  rcases emit_cases c i with ⟨c1, hput, he⟩ | he <;> rw [he] at hemit <;> cases hemit
  have h1 := putFields_openInv h hput
  obtain ⟨hcfg, -⟩ := putFields_frame hput
  obtain ⟨hlegal, hfirst⟩ := codeNext_legal h.session hi.1 hi.2
  exact ⟨h1.with_session (hcfg ▸ hlegal), hfirst⟩

theorem chosen_placed (c : CU) (v : U64) :
    PlacedCode c.cfg.variant c.session.first c.session.lead c.session.trail (c.chosen v) :=
  ⟨chosen_place c v, reservedIn_of_codeCheck (chosen_place c v) (chosen_legal c v).1⟩

theorem append_openInv {c c' : CU} {v : U64} {n : Nat} (h : c.OpenInv) (happend : c.append v = .ok (c', n)) :
    c'.OpenInv ∧ c'.session.first = false := by
  rcases append_cases c v with ⟨c1, k, hemit, ha⟩ | ha <;> rw [ha] at happend <;> cases happend
  obtain ⟨h1, hfirst⟩ := emit_openInv h (chosen_placed c v) hemit
  exact ⟨h1.with_session (legal_with_storedVal h1.session hfirst v), hfirst⟩

/-- The pad stays inside the buffer, whose end is a whole byte (R92). -/
theorem flush_openInv {c : CU} (h : c.OpenInv) : c.flush.OpenInv := by
  obtain ⟨hcursor, hbuffer, hinside, hclear⟩ := h.stream
  refine ⟨h.phase, h.code, ⟨?_, hbuffer, hinside, fun p hp => ?_⟩, h.session⟩
  · obtain ⟨hpad, hwhole⟩ := padBits_spec c.wpos
    show c.wpos + padBits c.wpos ≤ 8 * c.bufBytes
    omega
  · exact hclear p (Nat.le_trans (Nat.le_add_right _ _) hp)

theorem closeBlock_inv {c c' : CU} {n : Nat} (h : c.OpenInv) (hclose : c.closeBlock = .ok (c', n)) : c'.Inv := by
  rcases closeBlock_cases c with ⟨c1, k, c2, happend, hguard, hc⟩ | hc <;> rw [hc] at hclose <;> cases hclose
  obtain ⟨h1, hfirst⟩ := append_openInv h happend
  obtain ⟨h2, hsession⟩ := putBits_openInv h1 hguard
  exact (flush_openInv h2).closed (padBits_spec c2.wpos).2 (by rw [flush_session, hsession, hfirst])

theorem emit_error {c : CU} {i : Instr} {f : TerminalFault} (h : c.emit i = .error f) : f = .bufferOverflow := by
  rcases emit_cases c i with ⟨c1, -, he⟩ | he <;> rw [he] at h <;> cases h
  rfl

theorem append_error {c : CU} {v : U64} {f : TerminalFault} (h : c.append v = .error f) : f = .bufferOverflow := by
  rcases append_cases c v with ⟨c1, k, -, ha⟩ | ha <;> rw [ha] at h <;> cases h
  rfl

theorem closeBlock_error {c : CU} {f : TerminalFault} (h : c.closeBlock = .error f) : f = .bufferOverflow := by
  rcases closeBlock_cases c with ⟨c1, k, c2, -, -, hc⟩ | hc <;> rw [hc] at h <;> cases h
  rfl

/-! ### A decompressor unit -/

/-- A decompressor unit that is decoding: in no fault, before the end of its stream, with legal registers. The cursor is left
out, since a decode checks where it ends and not where it starts (R91). -/
structure DU.Decoding (d : DU) : Prop where
  faulted : d.faulted = false
  ended   : d.ended = false
  code    : d.faultCode = none
  session : d.session.Legal d.cfg.variant

theorem DU.Inv.decoding {d : DU} (h : d.Inv) (hready : d.ready = true) : d.Decoding := by
  obtain ⟨⟨hfaulted, -⟩, hended⟩ : (d.faulted = false ∧ d.bound = true) ∧ d.ended = false := by
    simpa [DU.ready] using hready
  have hcode : d.faultCode = none := by simpa [hfaulted] using h.fault
  exact ⟨hfaulted, hended, hcode, h.trail, h.session hfaulted⟩

theorem DU.Decoding.inv {d : DU} (h : d.Decoding) (hcursor : d.rpos ≤ 8 * d.len) : d.Inv where
  cursor := hcursor
  fault := by simp [h.faulted, h.code]
  code := by simp [h.code]
  unbound hf := by simp [h.faulted] at hf
  trail := h.session.1
  session _ := h.session.2
  atEnd _ he := by simp [h.ended] at he

theorem advance_decoding {d : DU} (h : d.Decoding) (n : Nat) : (d.advance n).Decoding :=
  ⟨h.faulted, h.ended, h.code, h.session⟩

/-- What one decode of a unit that is decoding answers: a value, still decoding; or END, well kept; or a fault that a
decompressor unit can take. -/
inductive DecodeKept : Except TerminalFault (Decoded × DU) → Prop where
  | value (v : U64) {d : DU} : d.Decoding → d.rpos ≤ 8 * d.len → DecodeKept (.ok (.value v, d))
  | eos {d : DU} : d.Inv → DecodeKept (.ok (.eos, d))
  | error {f : TerminalFault} : f ≠ .bufferOverflow → DecodeKept (.error f)

theorem decodeFault_ne_bufferOverflow (e : DecodeError) : decodeFault e ≠ .bufferOverflow := by
  cases e <;> nofun

theorem execute_kept {d : DU} {i : Instr} (h : d.Decoding)
    (hi : PlacedCode d.cfg.variant d.session.first d.session.lead d.session.trail i) : DecodeKept (d.execute i) := by
  obtain ⟨hlegal, hfirst⟩ := codeNext_legal h.session hi.1 hi.2
  rcases execute_cases d i with ⟨-, he⟩ | ⟨hfit, ⟨hend, he⟩ | ⟨-, he⟩⟩ <;> rw [he]
  · exact .error nofun
  · exact .eos
      { cursor := hfit
        fault := by simp [h.faulted, h.code]
        code := by simp [h.code]
        unbound := fun hf => by simp [h.faulted] at hf
        trail := hlegal.1
        session := fun _ => hlegal.2
        atEnd := fun _ _ => ⟨hfirst, hend⟩ }
  · exact .value _ ⟨h.faulted, h.ended, h.code, hlegal⟩ hfit

theorem xorDecode_kept {d : DU} (h : d.Decoding) : DecodeKept d.xorDecode := by
  rcases xorDecode_cases d with ⟨i, hfetch, hx⟩ | ⟨e, -, hx⟩ <;> rw [hx]
  · exact execute_kept h (fetchCode_placed hfetch)
  · exact .error (decodeFault_ne_bufferOverflow e)

theorem decimalMode_kept {d : DU} (h : d.Decoding) (b : BitVec 4) : DecodeKept (d.decimalMode b) := by
  have hxor := xorDecode_kept h
  rcases decimalMode_cases d b with ⟨f, hx, hm⟩ | ⟨d', hx, hm⟩ | ⟨p, d', hx, ⟨v, -, hm⟩ | ⟨-, hm⟩⟩ <;>
    rw [hx] at hxor <;> rw [hm]
  · exact hxor
  · exact hxor
  · cases hxor with
    | value _ hd hcursor => exact .value v hd hcursor
  · exact .error nofun

theorem runMode_kept {d : DU} (h : d.Decoding) (i : Instr) : DecodeKept (d.runMode i) := by
  have hadvance := advance_decoding h (d.lengthOf i)
  rcases runMode_cases d i with hm | ⟨b, hm⟩ | hm <;> rw [hm]
  · exact .error nofun
  · exact decimalMode_kept hadvance b
  · exact xorDecode_kept hadvance

theorem orchDecode_kept {d : DU} (h : d.Decoding) : DecodeKept d.orchDecode := by
  rcases orchDecode_cases d with ⟨e, -, ho⟩ | ⟨i, rest, -, ho⟩ <;> rw [ho]
  · exact .error (decodeFault_ne_bufferOverflow e)
  · exact runMode_kept h i

/-- What a bulk decode answers: its values, well kept; or a fault that a decompressor unit can take. -/
inductive ValuesKept : Except TerminalFault (List U64 × DU) → Prop where
  | values (vs : List U64) {d : DU} : d.Inv → ValuesKept (.ok (vs, d))
  | error {f : TerminalFault} : f ≠ .bufferOverflow → ValuesKept (.error f)

theorem decompLoop_kept {decode : DU → Except TerminalFault (Decoded × DU)}
    (hdecode : ∀ {d : DU}, d.Decoding → DecodeKept (decode d)) :
    ∀ (k : Nat) {d : DU}, d.Decoding → ValuesKept (decompLoop decode k d)
  | 0, _, _ => .error nofun
  | k + 1, d, h => by
      have hone := hdecode h
      rw [decompLoop]
      generalize decode d = r at hone
      cases hone with
      | error hf => exact .error hf
      | eos hd => exact .values [] hd
      | @value v d' hd _ =>
        have hrest := decompLoop_kept hdecode k hd
        dsimp only
        generalize decompLoop decode k d' = r' at hrest
        cases hrest with
        | error hf => exact .error hf
        | values vs hd'' => exact .values (v :: vs) hd''

theorem du_enterFault_inv (d : DU) (k : Nat) {f : TerminalFault} (hf : f ≠ .bufferOverflow) : (d.enterFault k f).Inv where
  cursor := Nat.le_of_lt_succ (Nat.mod_lt _ (Nat.succ_pos _))
  fault := ⟨nofun, fun _ => rfl⟩
  code := by simpa using hf
  unbound _ := rfl
  trail h := by
    have hv : d.cfg.variant = .chimp := h
    simp [freeSession, hv]
  session := nofun
  atEnd := nofun

theorem du_reset_inv (g : DUConfig) : (DU.reset g).Inv :=
  DU.Decoding.inv ⟨rfl, rfl, rfl, session_reset_legal _⟩ (Nat.zero_le _)

theorem du_refresh_inv {d : DU} (h : d.Inv) : d.refresh.Inv :=
  DU.Decoding.inv ⟨rfl, rfl, rfl, session_reset_legal _⟩ h.cursor

theorem bind_inv {d : DU} (h : d.Inv) (hf : d.faulted = false) (b : List Byte) : (d.bind b).Inv where
  cursor := Nat.zero_le _
  fault := h.fault
  code := h.code
  unbound hfaulted := by simp [hf] at hfaulted
  trail := h.trail
  session := h.session
  atEnd := h.atEnd

/-! ### The engine -/

/-- A step that goes on ends in a well kept engine. -/
def InvAfter : StepResult → Prop
  | .next t => t.Inv
  | .fault _ => True
  | .refused _ => True

theorem unit?_inv {s : State} {u : CodecUnit} (hs : s.Inv) (hu : s.unit? = some u) : u.Inv :=
  hs u (List.mem_of_getElem? hu)

/-- Putting a well kept unit in its place keeps the engine well kept. -/
theorem set_inv {s : State} {w : CodecUnit} (hs : s.Inv) (hw : w.Inv) : ∀ u ∈ s.units.set s.sel w, u.Inv := by
  intro u hu
  rcases List.mem_or_eq_of_mem_set hu with h | rfl
  · exact hs u h
  · exact hw

theorem hardReset_inv (u : CodecUnit) : u.hardReset.Inv := by
  cases u with
  | cu c => exact (cu_reset_openInv c.cfg).inv
  | du d => exact du_reset_inv d.cfg

section
variable {s : State}

theorem answer_inv (hs : s.Inv) {w : CodecUnit} (hw : w.Inv) (st : Status) (r : Result) :
    InvAfter (.next (s.answer w st r)) :=
  set_inv hs hw

theorem refuse_inv (hs : s.Inv) (u : CodecUnit) : InvAfter (.next (s.refuse u)) :=
  hs

/-- A compressor unit takes no other fault than BUFFER_OVERFLOW (R195). -/
theorem raise_cu_inv (hs : s.Inv) (c : CU) {f : TerminalFault} (hf : f = .bufferOverflow) :
    InvAfter (.next (s.raise (.cu c) f)) :=
  set_inv hs (hf ▸ cu_enterFault_inv c s.draws : (c.enterFault s.draws f).Inv)

/-- A decompressor unit takes every fault but BUFFER_OVERFLOW (R195). -/
theorem raise_du_inv (hs : s.Inv) (d : DU) {f : TerminalFault} (hf : f ≠ .bufferOverflow) :
    InvAfter (.next (s.raise (.du d) f)) :=
  set_inv hs (du_enterFault_inv d s.draws hf)

theorem onCU_inv (hs : s.Inv) {f : CU → StepResult} (h : ∀ c, s.unit? = some (.cu c) → InvAfter (f c)) :
    InvAfter (s.onCU f) := by
  rcases onCU_cases s f with ⟨c, hu, hf⟩ | ⟨d, -, hf⟩ | ⟨-, hf⟩ <;> rw [hf]
  · exact h c hu
  · exact refuse_inv hs _
  · trivial

theorem onDU_inv (hs : s.Inv) {f : DU → StepResult} (h : ∀ d, s.unit? = some (.du d) → InvAfter (f d)) :
    InvAfter (s.onDU f) := by
  rcases onDU_cases s f with ⟨d, hu, hf⟩ | ⟨c, -, hf⟩ | ⟨-, hf⟩ <;> rw [hf]
  · exact h d hu
  · exact refuse_inv hs _
  · trivial

theorem finishBits_inv (hs : s.Inv) {c : CU} {r : Except TerminalFault (CU × Nat)}
    (hok : ∀ {c' n}, r = .ok (c', n) → c'.Inv) (herror : ∀ {f}, r = .error f → f = .bufferOverflow) :
    InvAfter (s.finishBits c r) := by
  rcases finishBits_cases s c r with ⟨c', n, hr, hf⟩ | ⟨f, hr, hf⟩ <;> rw [hf]
  · exact answer_inv hs (w := .cu c') (hok hr) _ _
  · exact raise_cu_inv hs c (herror hr)

theorem finishDecoded_inv (hs : s.Inv) (d : DU) {r : Except TerminalFault (Decoded × DU)} (hr : DecodeKept r) :
    InvAfter (s.finishDecoded d r) := by
  cases hr with
  | @value v d' hd hcursor => exact answer_inv hs (w := .du d') (hd.inv hcursor) _ _
  | @eos d' hd => exact answer_inv hs (w := .du d') hd _ _
  | error hf => exact raise_du_inv hs d hf

theorem finishValues_inv (hs : s.Inv) (d : DU) {r : Except TerminalFault (List U64 × DU)} (hr : ValuesKept r) :
    InvAfter (s.finishValues d r) := by
  cases hr with
  | @values vs d' hd => exact answer_inv hs (w := .du d') hd _ _
  | error hf => exact raise_du_inv hs d hf

theorem putBitsOn_inv (hs : s.Inv) {c : CU} (hu : s.unit? = some (.cu c)) (v n : Nat) :
    InvAfter (s.putBitsOn c v n) := by
  rcases putBitsOn_cases s c v n with ⟨-, hp⟩ | ⟨hopen, -, -, ⟨c', hput, hp⟩ | ⟨-, hp⟩⟩ <;> rw [hp]
  · exact refuse_inv hs _
  · have hc : c.Inv := unit?_inv hs hu
    exact answer_inv hs (w := .cu c') (putBits_openInv (hc.openInv hopen) hput).1.inv _ _
  · exact raise_cu_inv hs c rfl

theorem runCode_inv (hs : s.Inv) (i : Instr) : InvAfter (runCode i s) := by
  unfold runCode
  split
  next => trivial
  next c hu =>
    have hc : c.Inv := unit?_inv hs hu
    split
    next h =>
      obtain ⟨hopen, hplace⟩ := h
      split
      next => trivial
      next => trivial
      next => trivial
      next hcheck =>
        have hi := And.intro hplace (reservedIn_of_codeCheck hplace hcheck)
        exact finishBits_inv hs (fun hok => (emit_openInv (hc.openInv hopen) hi hok).1.inv) emit_error
    · trivial
  next d hu =>
    have hd : d.Inv := unit?_inv hs hu
    split
    next h =>
      obtain ⟨hready, hplace⟩ := h
      split
      next =>
        split
        · exact raise_du_inv hs d nofun
        · exact raise_du_inv hs d nofun
      next => trivial
      next => trivial
      next hcheck =>
        exact finishDecoded_inv hs d
          (execute_kept (hd.decoding hready) ⟨hplace, reservedIn_of_codeCheck hplace hcheck⟩)
    · trivial

theorem runMark_inv (hs : s.Inv) (i : Instr) (v n : Nat) : InvAfter (runMark i v n s) := by
  unfold runMark
  split
  next => trivial
  next c hu => exact putBitsOn_inv hs hu v n
  next d hu =>
    have hd : d.Inv := unit?_inv hs hu
    split
    next hready => exact finishDecoded_inv hs d (runMode_kept (hd.decoding hready) i)
    next => trivial

/-! ### The commands of a compressor unit -/

/-- A command that runs on an open compressor unit and is refused in the other phases. -/
theorem onOpenCU_inv (hs : s.Inv) {f : CU → StepResult} (h : ∀ c : CU, c.OpenInv → InvAfter (f c)) :
    InvAfter (s.onCU fun c => if c.phase = .opened then f c else .next (s.refuse (.cu c))) :=
  onCU_inv hs fun c hu => by
    have hc : c.Inv := unit?_inv hs hu
    split
    next hopen => exact h c (hc.openInv hopen)
    next => exact refuse_inv hs _

theorem execAddValue_inv (hs : s.Inv) (v : U64) : InvAfter (execAddValue v s) :=
  onOpenCU_inv hs fun _ hc => finishBits_inv hs (fun hok => (append_openInv hc hok).1.inv) append_error

theorem execClose_inv (hs : s.Inv) : InvAfter (execClose s) :=
  onOpenCU_inv hs fun _ hc => finishBits_inv hs (closeBlock_inv hc) closeBlock_error

theorem execRefreshCU_inv (hs : s.Inv) : InvAfter (execRefreshCU s) :=
  onCU_inv hs fun c _ => answer_inv hs (w := .cu c.refresh) (cu_reset_openInv c.cfg).inv _ _

theorem execPutBitsCommand_inv (hs : s.Inv) (v : U64) (n : BitVec 7) : InvAfter (execPutBitsCommand v n s) :=
  onCU_inv hs fun _ hu => putBitsOn_inv hs hu _ _

theorem execGetBuf_inv (hs : s.Inv) : InvAfter (execGetBuf s) :=
  onCU_inv hs fun c hu => by
    split
    · split
      next => exact answer_inv hs (unit?_inv hs hu) _ _
      next => trivial
    · exact refuse_inv hs _

/-! ### The commands of a decompressor unit -/

/-- A value command: it runs on a unit that is ready and is refused otherwise. -/
theorem onReadyDU_inv (hs : s.Inv) {f : DU → StepResult} (h : ∀ d : DU, d.Decoding → InvAfter (f d)) :
    InvAfter (s.onDU fun d => if d.ready then f d else .next (s.refuse (.du d))) :=
  onDU_inv hs fun d hu => by
    have hd : d.Inv := unit?_inv hs hu
    split
    next hready => exact h d (hd.decoding hready)
    next => exact refuse_inv hs _

theorem execSetBytes_inv (hs : s.Inv) (b : List Byte) : InvAfter (execSetBytes b s) :=
  onDU_inv hs fun d hu => by
    have hd : d.Inv := unit?_inv hs hu
    split
    next => exact refuse_inv hs _
    next hf => exact answer_inv hs (w := .du (d.bind b)) (bind_inv hd (Bool.eq_false_iff.mpr hf) b) _ _

theorem execReadValue_inv (hs : s.Inv) : InvAfter (execReadValue s) :=
  onReadyDU_inv hs fun d hd => finishDecoded_inv hs d (xorDecode_kept hd)

theorem execNextValue_inv (hs : s.Inv) : InvAfter (execNextValue s) :=
  onReadyDU_inv hs fun d hd => finishDecoded_inv hs d (orchDecode_kept hd)

theorem execDecompX_inv (hs : s.Inv) : InvAfter (execDecompX s) :=
  onReadyDU_inv hs fun d hd => finishValues_inv hs d (decompLoop_kept xorDecode_kept _ hd)

theorem execDecompE_inv (hs : s.Inv) : InvAfter (execDecompE s) :=
  onReadyDU_inv hs fun d hd => finishValues_inv hs d (decompLoop_kept orchDecode_kept _ hd)

theorem execRefreshDU_inv (hs : s.Inv) : InvAfter (execRefreshDU s) :=
  onDU_inv hs fun d hu => by
    have hd : d.Inv := unit?_inv hs hu
    exact answer_inv hs (w := .du d.refresh) (du_refresh_inv hd) _ _

/-! ### The primitives -/

theorem execPutBits_inv (hs : s.Inv) (v : U64) (n : BitVec 7) : InvAfter (execPutBits v n s) := by
  unfold execPutBits
  split
  next => trivial
  next => trivial
  next c hu =>
    have hc : c.Inv := unit?_inv hs hu
    split_ifs with hopen
    · split
      next c' hput => exact answer_inv hs (w := .cu c') (putBits_openInv (hc.openInv hopen) hput).1.inv _ _
      next f hput => exact raise_cu_inv hs c (putBits_error_iff.mp hput).2
    · trivial
    · trivial

theorem execGetBits_inv (hs : s.Inv) (n : BitVec 7) : InvAfter (execGetBits n s) := by
  unfold execGetBits
  split
  next => trivial
  next => trivial
  next d hu =>
    have hd : d.Inv := unit?_inv hs hu
    split_ifs with hready
    · split
      next r d' hget =>
        obtain ⟨hfit, -, rfl⟩ := getBits_ok_iff.mp hget
        exact answer_inv hs (w := .du (d.advance _)) ((advance_decoding (hd.decoding hready) _).inv hfit) _ _
      next f hget =>
        obtain ⟨-, rfl⟩ := getBits_error_iff.mp hget
        exact raise_du_inv hs d nofun
    · trivial
    · trivial

theorem execFlush_inv (hs : s.Inv) : InvAfter (execFlush s) := by
  unfold execFlush
  split
  next => trivial
  next => trivial
  next c hu =>
    have hc : c.Inv := unit?_inv hs hu
    split
    next hopen => exact answer_inv hs (w := .cu c.flush) (flush_openInv (hc.openInv hopen)).inv _ _
    next => trivial

/-- Every instruction that runs keeps every unit well kept. -/
theorem exec_inv (hs : s.Inv) (i : Instr) : InvAfter (exec i s) := by
  cases i with
  | chimpFirst | chimpSame | chimpTrail | chimpReuse | chimpNewLead => exact runCode_inv hs _
  | elfFirst | elfSame | elfReuse | elfNewShort | elfNewLong => exact runCode_inv hs _
  | orchRaw | orchDec => exact runMark_inv hs _ _ _
  | addValue v => exact execAddValue_inv hs v
  | close => exact execClose_inv hs
  | refreshCU => exact execRefreshCU_inv hs
  | putBitsCommand v n => exact execPutBitsCommand_inv hs v n
  | getBuf => exact execGetBuf_inv hs
  | setBytes b => exact execSetBytes_inv hs b
  | readValue => exact execReadValue_inv hs
  | nextValue => exact execNextValue_inv hs
  | decompX => exact execDecompX_inv hs
  | decompE => exact execDecompE_inv hs
  | refreshDU => exact execRefreshDU_inv hs
  | putBits v n => exact execPutBits_inv hs v n
  | getBits n => exact execGetBits_inv hs n
  | flush => exact execFlush_inv hs

theorem runCommand_inv (hs : s.Inv) (c : Command) : InvAfter (s.runCommand c) := by
  rcases runCommand_cases s c with ⟨-, hr⟩ | ⟨u, -, ⟨i, -, hr⟩ | ⟨e, -, hr⟩⟩ <;> rw [hr]
  · trivial
  · exact exec_inv hs i
  · exact refuse_inv hs u

theorem runReset_inv (hs : s.Inv) : InvAfter s.runReset := by
  unfold State.runReset
  split
  next => trivial
  next u _ => exact set_inv hs (hardReset_inv u)

theorem step_inv (hs : s.Inv) : InvAfter (step s) := by
  rcases step_cases s with ⟨-, h⟩ | ⟨c, rest, -, h⟩ | ⟨k, rest, -, h⟩ <;> rw [h]
  · exact hs
  · exact runCommand_inv (s := s.take c.unit rest) hs c
  · exact runReset_inv (s := s.take k rest) hs

end

/-- Settles O53: whatever an instruction answers, the unit answered with is well kept. -/
theorem everyInstructionKeepsTheInvariant : Obligations.EveryInstructionKeepsTheInvariant := by
  intro i s t hs hexec
  exact (hexec ▸ exec_inv hs i : InvAfter (.next t))

/-- Settles O52: a step runs an instruction, refuses a command, resets a unit, or waits. -/
theorem everyStepKeepsTheInvariant : Obligations.EveryStepKeepsTheInvariant := by
  intro s t hs hstep
  exact (hstep ▸ step_inv hs : InvAfter (.next t))

end Sys2Proof.Machine
end

section
/-! PROOFS. Noninterference: what an instruction does and answers depends on the addressed unit alone (spec/10_state.md R20,
70_reset_and_hazards.md R209). Two engines that address the same unit get the same reply. -/

namespace Sys2Proof.Machine

/-- Two outcomes, of two engines, that are one reply of the addressed unit: the same answer, refusal, fault or stop. -/
inductive SameReply (s t : State) : StepResult → StepResult → Prop where
  | answered (w : CodecUnit) (st : Status) (r : Result) : SameReply s t (.next (s.answer w st r)) (.next (t.answer w st r))
  | refused (u : CodecUnit) : SameReply s t (.next (s.refuse u)) (.next (t.refuse u))
  | raised (u : CodecUnit) (f : TerminalFault) : SameReply s t (.next (s.raise u f)) (.next (t.raise u f))
  | fault (e : Fault) : SameReply s t (.fault e) (.fault e)
  | outside (e : Refusal) : SameReply s t (.refused e) (.refused e)

section
variable {s t : State}

theorem onCU_same (h : s.unit? = t.unit?) {f g : CU → StepResult} (hfg : ∀ c, SameReply s t (f c) (g c)) :
    SameReply s t (s.onCU f) (t.onCU g) := by
  unfold State.onCU
  rw [← h]
  rcases s.unit? with _ | ⟨c | d⟩
  · exact .fault _
  · exact hfg c
  · exact .refused _

theorem onDU_same (h : s.unit? = t.unit?) {f g : DU → StepResult} (hfg : ∀ d, SameReply s t (f d) (g d)) :
    SameReply s t (s.onDU f) (t.onDU g) := by
  unfold State.onDU
  rw [← h]
  rcases s.unit? with _ | ⟨c | d⟩
  · exact .fault _
  · exact .refused _
  · exact hfg d

theorem ite_same {p : Prop} [Decidable p] {a a' b b' : StepResult} (ha : SameReply s t a a') (hb : SameReply s t b b') :
    SameReply s t (if p then a else b) (if p then a' else b') := by
  split
  · exact ha
  · exact hb

theorem finishBits_same (c : CU) (r : Except TerminalFault (CU × Nat)) :
    SameReply s t (s.finishBits c r) (t.finishBits c r) := by
  rcases r with f | ⟨c', n⟩
  · exact .raised _ f
  · exact .answered _ _ _

theorem finishDecoded_same (d : DU) (r : Except TerminalFault (Decoded × DU)) :
    SameReply s t (s.finishDecoded d r) (t.finishDecoded d r) := by
  rcases r with f | ⟨v | _, d'⟩
  · exact .raised _ f
  · exact .answered _ _ _
  · exact .answered _ _ _

theorem finishValues_same (d : DU) (r : Except TerminalFault (List U64 × DU)) :
    SameReply s t (s.finishValues d r) (t.finishValues d r) := by
  rcases r with f | ⟨vs, d'⟩
  · exact .raised _ f
  · exact .answered _ _ _

theorem putBitsOn_same (c : CU) (v n : Nat) : SameReply s t (s.putBitsOn c v n) (t.putBitsOn c v n) := by
  unfold State.putBitsOn
  rcases c.putBits v n with f | c'
  · exact ite_same (ite_same (.raised _ f) (.refused _)) (.refused _)
  · exact ite_same (ite_same (.answered _ _ _) (.refused _)) (.refused _)

theorem runCode_same (h : s.unit? = t.unit?) (i : Instr) : SameReply s t (runCode i s) (runCode i t) := by
  unfold runCode
  rw [← h]
  rcases s.unit? with _ | ⟨c | d⟩
  · exact .fault _
  · refine ite_same ?_ (.outside _)
    rcases codeCheck i c.session with _ | _ | _ | _
    · exact finishBits_same c _
    · exact .outside _
    · exact .outside _
    · exact .outside _
  · refine ite_same ?_ (.outside _)
    rcases codeCheck i d.session with _ | _ | _ | _
    · exact finishDecoded_same d _
    · exact ite_same (.raised _ _) (.raised _ _)
    · exact .outside _
    · exact .outside _

theorem runMark_same (h : s.unit? = t.unit?) (i : Instr) (v n : Nat) :
    SameReply s t (runMark i v n s) (runMark i v n t) := by
  unfold runMark
  rw [← h]
  rcases s.unit? with _ | ⟨c | d⟩
  · exact .fault _
  · exact putBitsOn_same c v n
  · exact ite_same (finishDecoded_same d _) (.outside _)

theorem execGetBuf_same (h : s.unit? = t.unit?) : SameReply s t (execGetBuf s) (execGetBuf t) :=
  onCU_same h fun c => by
    refine ite_same ?_ (.refused _)
    rcases c.memRead 0 (c.wpos / 8) with _ | bs
    · exact .fault _
    · exact .answered _ _ _

theorem execPutBits_same (h : s.unit? = t.unit?) (v : U64) (n : BitVec 7) :
    SameReply s t (execPutBits v n s) (execPutBits v n t) := by
  unfold execPutBits
  rw [← h]
  rcases s.unit? with _ | ⟨c | d⟩
  · exact .fault _
  · refine ite_same (ite_same ?_ (.outside _)) (.outside _)
    rcases c.putBits v.toNat n.toNat with f | c'
    · exact .raised _ f
    · exact .answered _ _ _
  · exact .outside _

theorem execGetBits_same (h : s.unit? = t.unit?) (n : BitVec 7) :
    SameReply s t (execGetBits n s) (execGetBits n t) := by
  unfold execGetBits
  rw [← h]
  rcases s.unit? with _ | ⟨c | d⟩
  · exact .fault _
  · exact .outside _
  · refine ite_same (ite_same ?_ (.outside _)) (.outside _)
    rcases d.getBits n.toNat with f | ⟨r, d'⟩
    · exact .raised _ f
    · exact .answered _ _ _

theorem execFlush_same (h : s.unit? = t.unit?) : SameReply s t (execFlush s) (execFlush t) := by
  unfold execFlush
  rw [← h]
  rcases s.unit? with _ | ⟨c | d⟩
  · exact .fault _
  · exact ite_same (.answered _ _ _) (.outside _)
  · exact .outside _

/-- Every instruction gets the same reply from engines that address the same unit. -/
theorem exec_same (h : s.unit? = t.unit?) (i : Instr) : SameReply s t (exec i s) (exec i t) := by
  cases i with
  | chimpFirst | chimpSame | chimpTrail | chimpReuse | chimpNewLead => exact runCode_same h _
  | elfFirst | elfSame | elfReuse | elfNewShort | elfNewLong => exact runCode_same h _
  | orchRaw | orchDec => exact runMark_same h _ _ _
  | addValue | close => exact onCU_same h fun c => ite_same (finishBits_same c _) (.refused _)
  | refreshCU => exact onCU_same h fun _ => .answered _ _ _
  | putBitsCommand v n => exact onCU_same h fun c => putBitsOn_same c _ _
  | getBuf => exact execGetBuf_same h
  | setBytes b => exact onDU_same h fun _ => ite_same (.refused _) (.answered _ _ _)
  | readValue | nextValue => exact onDU_same h fun d => ite_same (finishDecoded_same d _) (.refused _)
  | decompX | decompE => exact onDU_same h fun d => ite_same (finishValues_same d _) (.refused _)
  | refreshDU => exact onDU_same h fun _ => .answered _ _ _
  | putBits v n => exact execPutBits_same h v n
  | getBits n => exact execGetBits_same h n
  | flush => exact execFlush_same h

/-- The addressed unit after an answer, whether or not there is one. -/
theorem answer_unit?_eq_map (s : State) (w : CodecUnit) (st : Status) (r : Result) :
    (s.answer w st r).unit? = s.unit?.map fun _ => w :=
  List.getElem?_set_self'

/-- One reply shows the same to the host and leaves the same unit. -/
theorem SameReply.observed {s' : State} {q : StepResult} (hunit : s.unit? = t.unit?) (hsel : s.sel = t.sel)
    (hdraws : s.draws = t.draws) (h : SameReply s t (.next s') q) :
    ∃ t', q = .next t' ∧ t'.unit? = s'.unit? ∧ t'.out.head? = s'.out.head? ∧ t'.draws = s'.draws := by
  have hanswer (w : CodecUnit) (st : Status) (r : Result) : (t.answer w st r).unit? = (s.answer w st r).unit? := by
    rw [answer_unit?_eq_map, answer_unit?_eq_map, hunit]
  cases h with
  | answered w st r => exact ⟨_, rfl, hanswer w st r, by simp [hsel], hdraws.symm⟩
  | refused u => exact ⟨_, rfl, hunit.symm, by simp [hsel], hdraws.symm⟩
  | raised u f =>
    refine ⟨_, rfl, ?unit, by simp [hsel, hdraws], by simp [hdraws]⟩
    case unit =>
      rw [State.raise, State.raise, hdraws]
      exact hanswer (u.enterFault t.draws f) .fault .none

end

/-- Settles O7: the two engines get one reply, and a reply shows no other unit. -/
theorem answersDependOnTheAddressedUnitAlone : Obligations.AnswersDependOnTheAddressedUnitAlone := by
  intro i s t s' hunit hsel hdraws hexec
  exact SameReply.observed hunit hsel hdraws (hexec ▸ exec_same hunit i)

end Sys2Proof.Machine
end

section
/-! PROOFS. The fields of the status words CUSTAT and DUSTAT (spec/10_state.md R35, 60_exceptions.md R195). -/

namespace Sys2Proof.Machine

/-! ### Fields of an appended word -/

section
variable {n m : Nat} (x : BitVec n)

theorem getLsbD_append_above (y : BitVec m) (i : Nat) : (x ++ y).getLsbD (i + m) = x.getLsbD i := by
  rw [BitVec.getLsbD_append, if_neg (by omega), Nat.add_sub_cancel]

theorem extractLsb'_append_above (y : BitVec m) (i k : Nat) : (x ++ y).extractLsb' (i + m) k = x.extractLsb' i k := by
  rw [BitVec.extractLsb'_append_eq_of_le (Nat.le_add_left m i), Nat.add_sub_cancel]

theorem getLsbD_append_flag_zero (b : Bool) : (x ++ BitVec.ofBool b).getLsbD 0 = b := by
  rw [BitVec.getLsbD_append, if_pos Nat.one_pos, BitVec.getLsbD_ofBool, decide_eq_true rfl, Bool.true_and]

theorem getLsbD_append_flag_succ (b : Bool) (i : Nat) : (x ++ BitVec.ofBool b).getLsbD (i + 1) = x.getLsbD i :=
  getLsbD_append_above x _ i

theorem extractLsb'_append_flag_succ (b : Bool) (i k : Nat) :
    (x ++ BitVec.ofBool b).extractLsb' (i + 1) k = x.extractLsb' i k :=
  extractLsb'_append_above x _ i k

end

/-! ### The status words -/

theorem cu_statusWord_faultCode (c : CU) : c.statusWord.extractLsb' 4 4 = faultField c.faultCode := by
  calc c.statusWord.extractLsb' 4 4
    _ = (faultField c.faultCode ++ 0#1 ++ BitVec.ofBool c.session.first).extractLsb' 2 4 :=
        extractLsb'_append_above _ c.phase.field 2 4
    _ = (faultField c.faultCode ++ 0#1).extractLsb' 1 4 := extractLsb'_append_flag_succ _ _ 1 4
    _ = faultField c.faultCode := BitVec.extractLsb'_append_eq_left

theorem cu_statusWord_bit3 (c : CU) : c.statusWord.getLsbD 3 = false := by
  calc c.statusWord.getLsbD 3
    _ = (faultField c.faultCode ++ 0#1 ++ BitVec.ofBool c.session.first).getLsbD 1 :=
        getLsbD_append_above _ c.phase.field 1
    _ = (faultField c.faultCode ++ 0#1).getLsbD 0 := getLsbD_append_flag_succ _ _ 0
    _ = false := getLsbD_append_flag_zero _ false

theorem cu_statusWord_first (c : CU) : c.statusWord.getLsbD 2 = c.session.first :=
  (getLsbD_append_above _ c.phase.field 0).trans (getLsbD_append_flag_zero _ _)

theorem cu_statusWord_phase (c : CU) : c.statusWord.extractLsb' 0 2 = c.phase.field :=
  BitVec.extractLsb'_append_eq_right

/-- DUSTAT is the fault code with the four flags behind it, each a bit. -/
theorem du_statusWord_fields (d : DU) :
    d.statusWord.extractLsb' 4 4 = faultField d.faultCode ∧ d.statusWord.getLsbD 3 = d.session.first ∧
      d.statusWord.getLsbD 2 = d.faulted ∧ d.statusWord.getLsbD 1 = d.ended ∧ d.statusWord.getLsbD 0 = d.bound := by
  simp only [DU.statusWord, getLsbD_append_flag_succ, getLsbD_append_flag_zero, extractLsb'_append_flag_succ,
    BitVec.extractLsb'_eq_self, and_self]

theorem cu_reset_statusWord (g : CUConfig) : (CU.reset g).statusWord = 0b00000100#8 := by
  simp only [CU.statusWord, cu_reset_faultCode, cu_reset_session, cu_reset_phase, session_reset_first]
  decide

theorem du_reset_statusWord (g : DUConfig) : (DU.reset g).statusWord = 0b00001000#8 := by
  simp only [DU.statusWord, du_reset_faultCode, du_reset_session, du_reset_faulted, du_reset_ended, du_reset_bound,
    session_reset_first]
  decide

/-- Settles O17: each word is its fields appended, and a field is read at its place. -/
theorem statusWordsShowTheFlags : Obligations.StatusWordsShowTheFlags := by
  refine ⟨fun c => ⟨cu_statusWord_faultCode c, cu_statusWord_bit3 c, cu_statusWord_first c, ?phase⟩,
    du_statusWord_fields, rfl, rfl, rfl, rfl, rfl, cu_reset_statusWord, du_reset_statusWord⟩
  case phase =>
    rw [cu_statusWord_phase]
    cases c.phase <;> rfl

end Sys2Proof.Machine
end

section
/-! PROOFS. The decoder of wire codes is the encoder's inverse (spec/30_encoding.md R60 to R74, R80, R82): what stands at the
front of a stream is a code or a reserved encoding exactly when the decoder says so. -/

namespace Sys2Proof.Machine

/-! ### The bits of each code -/

section
variable (lc : LeadingRepresentation) (lead : Option Bucket) (trail : Option (Fin 64))

@[simp] theorem codeBits_chimpFirst (raw : U64) : codeBits lc lead trail (.chimpFirst raw) = natBits 64 raw.toNat := by
  simp [codeBits, codeFields]

@[simp] theorem codeBits_chimpSame : codeBits lc lead trail .chimpSame = natBits 2 0 := by
  simp [codeBits, codeFields]

@[simp] theorem codeBits_chimpTrail (lz : Bucket) (sig : BitVec 6) (payload : U64) :
    codeBits lc lead trail (.chimpTrail lz sig payload) =
      natBits 2 1 ++ (natBits 3 (leadCode lc lz).toNat ++ (natBits 6 sig.toNat ++ natBits sig.toNat payload.toNat)) := by
  simp [codeBits, codeFields]

@[simp] theorem codeBits_chimpReuse (b : Bucket) (payload : U64) :
    codeBits lc (some b) trail (.chimpReuse payload) =
      natBits 2 2 ++ natBits (belowLead (bucketCount b)) payload.toNat := by
  simp [codeBits, codeFields]

@[simp] theorem codeBits_chimpNewLead (lz : Bucket) (payload : U64) :
    codeBits lc lead trail (.chimpNewLead lz payload) =
      natBits 2 3 ++ (natBits 3 (leadCode lc lz).toNat ++ natBits (belowLead (bucketCount lz)) payload.toNat) := by
  simp [codeBits, codeFields]

@[simp] theorem codeBits_elfFirst (tz7 : BitVec 7) (payload : U64) :
    codeBits lc lead trail (.elfFirst tz7 payload) = natBits 7 tz7.toNat ++ natBits (64 - tz7.toNat) payload.toNat := by
  simp [codeBits, codeFields]

@[simp] theorem codeBits_elfSame : codeBits lc lead trail .elfSame = natBits 2 1 := by
  simp [codeBits, codeFields]

/-- The header that opens an ELF window is written as one access: control code, bucket, centre count (R94, R130, R131). -/
theorem natBits_windowHeader {k ctl l c : Nat} (hl : l < 2 ^ 3) (hc : c < 2 ^ k) :
    natBits (5 + k) ((ctl * 2 ^ 3 + l) * 2 ^ k + c) = natBits 2 ctl ++ (natBits 3 l ++ natBits k c) := by
  rw [natBits_fused 5 k _ c hc, natBits_fused 2 3 ctl l hl, List.append_assoc]

@[simp] theorem codeBits_elfNewShort (lz : Bucket) (cb4 : BitVec 4) (payload : U64) :
    codeBits lc lead trail (.elfNewShort lz cb4 payload) =
      natBits 2 2 ++ (natBits 3 (leadCode lc lz).toNat ++
        (natBits 4 cb4.toNat ++ natBits (centreOf4 cb4) payload.toNat)) := by
  have hheader := natBits_windowHeader (ctl := 2) (leadCode lc lz).isLt cb4.isLt
  rw [show (2 * 2 ^ 3 + (leadCode lc lz).toNat) * 2 ^ 4 + cb4.toNat =
    2 * 2 ^ 7 + (leadCode lc lz).toNat * 2 ^ 4 + cb4.toNat by ring] at hheader
  simp only [codeBits, codeFields, fieldBits_cons, fieldBits_nil, hheader, List.append_assoc, List.append_nil]

@[simp] theorem codeBits_elfNewLong (lz : Bucket) (cb6 : BitVec 6) (payload : U64) :
    codeBits lc lead trail (.elfNewLong lz cb6 payload) =
      natBits 2 3 ++ (natBits 3 (leadCode lc lz).toNat ++
        (natBits 6 cb6.toNat ++ natBits (centreOf6 cb6) payload.toNat)) := by
  have hheader := natBits_windowHeader (ctl := 3) (leadCode lc lz).isLt cb6.isLt
  rw [show (3 * 2 ^ 3 + (leadCode lc lz).toNat) * 2 ^ 6 + cb6.toNat =
    3 * 2 ^ 9 + (leadCode lc lz).toNat * 2 ^ 6 + cb6.toNat by ring] at hheader
  simp only [codeBits, codeFields, fieldBits_cons, fieldBits_nil, hheader, List.append_assoc, List.append_nil]

@[simp] theorem codeBits_orchRaw : codeBits lc lead trail .orchRaw = natBits 1 0 := by
  simp [codeBits, codeFields]

/-- The mark of the decimal mode is written as one access: the flag, then betaStar (R74, R94). -/
@[simp] theorem codeBits_orchDec (betaStar : BitVec 4) :
    codeBits lc lead trail (.orchDec betaStar) = natBits 1 1 ++ natBits 4 betaStar.toNat := by
  have hfused := natBits_fused 1 4 1 betaStar.toNat betaStar.isLt
  simpa [codeBits, codeFields] using hfused

end

/-! ### Reading one field -/

section
variable {n : Nat} {bs : List Bool} {k : Nat × List Bool → Except DecodeError (Instr × List Bool)}

/-- A field at the front is read, and decoding goes on behind it (R91). -/
theorem takeField_bind {v : Nat} (h : v < 2 ^ n) (rest : List Bool) :
    (takeField n (natBits n v ++ rest) >>= k) = k (v, rest) := by
  rw [takeField_natBits_lt h]
  rfl

theorem takeField_bind_toNat (v : BitVec n) (rest : List Bool) :
    (takeField n (natBits n v.toNat ++ rest) >>= k) = k (v.toNat, rest) :=
  takeField_bind v.isLt rest

/-- A decoding that starts with a field and does not run out of stream has the field's bits at the front. -/
theorem takeField_bind_inv {r : Except DecodeError (Instr × List Bool)} {m : Nat} (hn : n ≤ m)
    (hr : r ≠ .error .streamEnds) (h : (takeField n bs >>= k) = r) :
    ∃ (v : BitVec m) (rest : List Bool), v.toNat < 2 ^ n ∧ bs = natBits n v.toNat ++ rest ∧ k (v.toNat, rest) = r := by
  rcases hf : takeField n bs with e | ⟨v, rest⟩ <;> rw [hf] at h
  · unfold takeField at hf
    split at hf <;> cases hf
    exact absurd h.symm hr
  · obtain ⟨xs, rfl, hlen, hv⟩ := takeField_ok_iff.mp hf
    have hlt : v < 2 ^ n := hv ▸ hlen ▸ bitsToNat_lt xs
    have hfield : (BitVec.ofNat m v).toNat = v :=
      Nat.mod_eq_of_lt (Nat.lt_of_lt_of_le hlt (Nat.pow_le_pow_right Nat.two_pos hn))
    refine ⟨BitVec.ofNat m v, rest, ?_⟩
    rw [hfield]
    refine ⟨hlt, ?_, h⟩
    rw [hv, ← hlen, natBits_bitsToNat]

end

/-- A 3-bit field stands for a bucket (R62, R75). -/
theorem exists_leadCode_eq (lc : LeadingRepresentation) (c : BitVec 3) : ∃ lz, leadCode lc lz = c :=
  ⟨leadBucket lc c, leadCode_leadBucket lc c⟩

/-! ### What stands at the front of a stream -/

/-- The bits up to where the decoder knows an encoding to be one of the six reserved ones, and the name it gives it (R82). -/
inductive ReservedBits (lc : LeadingRepresentation) :
    Variant → Bool → Option Bucket → Option (Fin 64) → DecodeError → List Bool → Prop where
  | chimpReuse (trail : Option (Fin 64)) : ReservedBits lc .chimp false none trail .chimpReuseNoWindow (natBits 2 2)
  | chimpTrailEmpty (lead : Option Bucket) (trail : Option (Fin 64)) (lz : Bucket) :
      ReservedBits lc .chimp false lead trail .chimpTrailNoPayload
        (natBits 2 1 ++ natBits 3 (leadCode lc lz).toNat ++ natBits 6 0)
  | chimpTrailWide (lead : Option Bucket) (trail : Option (Fin 64)) (lz : Bucket) (sig : BitVec 6)
      (h : 64 < bucketCount lz + sig.toNat) :
      ReservedBits lc .chimp false lead trail .chimpTrailTooWide
        (natBits 2 1 ++ natBits 3 (leadCode lc lz).toNat ++ natBits 6 sig.toNat)
  | elfFirst (lead : Option Bucket) (trail : Option (Fin 64)) (tz7 : BitVec 7) (h : 64 < tz7.toNat) :
      ReservedBits lc .elf true lead trail .elfFirstTooMany (natBits 7 tz7.toNat)
  | elfReuse (lead : Option Bucket) (trail : Option (Fin 64)) (h : lead = none ∨ trail = none) :
      ReservedBits lc .elf false lead trail .elfReuseNoWindow (natBits 2 0)
  | elfNewLong (lead : Option Bucket) (trail : Option (Fin 64)) (lz : Bucket) (cb6 : BitVec 6)
      (h : 64 < bucketCount lz + centreOf6 cb6) :
      ReservedBits lc .elf false lead trail .elfNewLongTooWide
        (natBits 2 3 ++ natBits 3 (leadCode lc lz).toNat ++ natBits 6 cb6.toNat)

/-- What a stream says to a decoder that does not run out of it: a whole code, or a reserved encoding (R80, R82). -/
inductive StreamSays (lc : LeadingRepresentation) (vt : Variant) (first : Bool) (lead : Option Bucket)
    (trail : Option (Fin 64)) : List Bool → Except DecodeError (Instr × List Bool) → Prop where
  | code {i : Instr} (rest : List Bool) (hplace : i.codePlace = some (vt, first)) (hwf : i.wellFormed = true)
      (hfit : i.fitsWindow lead trail = true) :
      StreamSays lc vt first lead trail (codeBits lc lead trail i ++ rest) (.ok (i, rest))
  | reserved {e : DecodeError} {xs : List Bool} (rest : List Bool) (h : ReservedBits lc vt first lead trail e xs) :
      StreamSays lc vt first lead trail (xs ++ rest) (.error e)

/-! ### The decoder answers what the stream says -/

section
variable (lc : LeadingRepresentation) (bs : List Bool)

/-- The header of CHIMP.TRAIL is read before it is checked (R153). -/
theorem decodeChimpTrail_header (lz : Bucket) (sig : BitVec 6) :
    decodeChimpTrail lc (natBits 3 (leadCode lc lz).toNat ++ (natBits 6 sig.toNat ++ bs)) =
      if sig.toNat = 0 then .error .chimpTrailNoPayload
      else if 64 < bucketCount lz + sig.toNat then .error .chimpTrailTooWide
      else takeField sig.toNat bs >>= fun p => .ok (.chimpTrail lz sig (BitVec.ofNat 64 p.1), p.2) := by
  simp only [decodeChimpTrail, takeField_bind_toNat, BitVec.ofNat_toNat, BitVec.setWidth_eq, leadBucket_leadCode]

theorem decodeChimpNewLead_header (lz : Bucket) :
    decodeChimpNewLead lc (natBits 3 (leadCode lc lz).toNat ++ bs) =
      takeField (belowLead (bucketCount lz)) bs >>= fun p => .ok (.chimpNewLead lz (BitVec.ofNat 64 p.1), p.2) := by
  simp only [decodeChimpNewLead, takeField_bind_toNat, BitVec.ofNat_toNat, BitVec.setWidth_eq, leadBucket_leadCode]

theorem decodeElfFirst_header (tz7 : BitVec 7) :
    decodeElfFirst (natBits 7 tz7.toNat ++ bs) =
      if 64 < tz7.toNat then .error .elfFirstTooMany
      else takeField (64 - tz7.toNat) bs >>= fun p => .ok (.elfFirst tz7 (BitVec.ofNat 64 p.1), p.2) := by
  simp only [decodeElfFirst, takeField_bind_toNat, BitVec.ofNat_toNat, BitVec.setWidth_eq]

theorem decodeElfNewShort_header (lz : Bucket) (cb4 : BitVec 4) :
    decodeElfNewShort lc (natBits 3 (leadCode lc lz).toNat ++ (natBits 4 cb4.toNat ++ bs)) =
      takeField (centreOf4 cb4) bs >>= fun p => .ok (.elfNewShort lz cb4 (BitVec.ofNat 64 p.1), p.2) := by
  simp only [decodeElfNewShort, takeField_bind_toNat, BitVec.ofNat_toNat, BitVec.setWidth_eq, leadBucket_leadCode]

/-- The header of ELF.NEWLONG is read before it is checked (R165). -/
theorem decodeElfNewLong_header (lz : Bucket) (cb6 : BitVec 6) :
    decodeElfNewLong lc (natBits 3 (leadCode lc lz).toNat ++ (natBits 6 cb6.toNat ++ bs)) =
      if 64 < bucketCount lz + centreOf6 cb6 then .error .elfNewLongTooWide
      else takeField (centreOf6 cb6) bs >>= fun p => .ok (.elfNewLong lz cb6 (BitVec.ofNat 64 p.1), p.2) := by
  simp only [decodeElfNewLong, takeField_bind_toNat, BitVec.ofNat_toNat, BitVec.setWidth_eq, leadBucket_leadCode]

/-! The control code chooses the format (R151, R161). -/

theorem decodeChimpNext_same (lead : Option Bucket) :
    decodeChimpNext lc lead (natBits 2 0 ++ bs) = .ok (.chimpSame, bs) := by
  simp [decodeChimpNext, takeField_bind]

theorem decodeChimpNext_trail (lead : Option Bucket) :
    decodeChimpNext lc lead (natBits 2 1 ++ bs) = decodeChimpTrail lc bs := by
  simp [decodeChimpNext, takeField_bind]

theorem decodeChimpNext_reuse (lead : Option Bucket) :
    decodeChimpNext lc lead (natBits 2 2 ++ bs) = decodeChimpReuse lead bs := by
  simp [decodeChimpNext, takeField_bind]

theorem decodeChimpNext_newLead (lead : Option Bucket) :
    decodeChimpNext lc lead (natBits 2 3 ++ bs) = decodeChimpNewLead lc bs := by
  simp [decodeChimpNext, takeField_bind]

variable (lead : Option Bucket) (trail : Option (Fin 64))

theorem decodeElfNext_reuse : decodeElfNext lc lead trail (natBits 2 0 ++ bs) = decodeElfReuse lead trail bs := by
  simp [decodeElfNext, takeField_bind]

theorem decodeElfNext_same : decodeElfNext lc lead trail (natBits 2 1 ++ bs) = .ok (.elfSame, bs) := by
  simp [decodeElfNext, takeField_bind]

theorem decodeElfNext_newShort : decodeElfNext lc lead trail (natBits 2 2 ++ bs) = decodeElfNewShort lc bs := by
  simp [decodeElfNext, takeField_bind]

theorem decodeElfNext_newLong : decodeElfNext lc lead trail (natBits 2 3 ++ bs) = decodeElfNewLong lc bs := by
  simp [decodeElfNext, takeField_bind]

end

/-- A payload that fits its field is read back (R89). -/
theorem takeField_payload {n : Nat} {payload : U64} (h : payload.toNat < 2 ^ n) (rest : List Bool) (f : U64 → Instr) :
    (takeField n (natBits n payload.toNat ++ rest) >>= fun p => .ok (f (BitVec.ofNat 64 p.1), p.2)) =
      Except.ok (ε := DecodeError) (f payload, rest) := by
  rw [takeField_bind h, BitVec.ofNat_toNat, BitVec.setWidth_eq]

section
variable {lc : LeadingRepresentation} {vt : Variant} {first : Bool} {lead : Option Bucket} {trail : Option (Fin 64)}

/-- Every well-formed code at its place, in a window it fits, decodes to itself (R80). -/
theorem decodeCode_codeBits {i : Instr} (rest : List Bool) (hplace : i.codePlace = some (vt, first))
    (hwf : i.wellFormed = true) (hfit : i.fitsWindow lead trail = true) :
    decodeCode lc vt first lead trail (codeBits lc lead trail i ++ rest) = .ok (i, rest) := by
  cases i <;> cases hplace
  case chimpFirst raw =>
    rw [codeBits_chimpFirst]
    exact takeField_payload raw.isLt rest .chimpFirst
  case chimpSame =>
    rw [codeBits_chimpSame]
    exact decodeChimpNext_same lc rest lead
  case chimpTrail lz sig payload =>
    simp only [Instr.wellFormed, Bool.and_eq_true, decide_eq_true_eq, fits_iff] at hwf
    obtain ⟨⟨hsig, hwide⟩, hpayload⟩ := hwf
    simp only [codeBits_chimpTrail, List.append_assoc, decodeCode, decodeChimpNext_trail, decodeChimpTrail_header,
      if_neg hsig, if_neg (Nat.not_lt.mpr hwide), takeField_payload hpayload]
  case chimpReuse payload =>
    cases lead with
    | none => cases hfit
    | some b =>
      have hpayload := (fits_iff _ _).mp hfit
      simp only [codeBits_chimpReuse, List.append_assoc, decodeCode, decodeChimpNext_reuse]
      exact takeField_payload hpayload rest .chimpReuse
  case chimpNewLead lz payload =>
    have hpayload := (fits_iff _ _).mp hwf
    simp only [codeBits_chimpNewLead, List.append_assoc, decodeCode, decodeChimpNext_newLead,
      decodeChimpNewLead_header, takeField_payload hpayload]
  case elfFirst tz7 payload =>
    simp only [Instr.wellFormed, Bool.and_eq_true, decide_eq_true_eq, fits_iff] at hwf
    obtain ⟨hmany, hpayload⟩ := hwf
    simp only [codeBits_elfFirst, List.append_assoc, decodeCode, decodeElfFirst_header,
      if_neg (Nat.not_lt.mpr hmany), takeField_payload hpayload]
  case elfSame =>
    rw [codeBits_elfSame]
    exact decodeElfNext_same lc rest lead trail
  case elfReuse payload =>
    rcases lead with _ | b
    · cases hfit
    · rcases trail with _ | t
      · cases hfit
      · have hpayload := (fits_iff _ _).mp hfit
        simp only [codeBits_elfReuse hpayload, List.append_assoc, decodeCode, decodeElfNext_reuse]
        exact takeField_payload hpayload rest .elfReuse
  case elfNewShort lz cb4 payload =>
    have hpayload := (fits_iff _ _).mp hwf
    simp only [codeBits_elfNewShort, List.append_assoc, decodeCode, decodeElfNext_newShort,
      decodeElfNewShort_header, takeField_payload hpayload]
  case elfNewLong lz cb6 payload =>
    simp only [Instr.wellFormed, Bool.and_eq_true, decide_eq_true_eq, fits_iff] at hwf
    obtain ⟨hwide, hpayload⟩ := hwf
    simp only [codeBits_elfNewLong, List.append_assoc, decodeCode, decodeElfNext_newLong, decodeElfNewLong_header,
      if_neg (Nat.not_lt.mpr hwide), takeField_payload hpayload]

/-- Every reserved encoding is rejected by its name (R82). -/
theorem decodeCode_reservedBits {e : DecodeError} {xs : List Bool} (rest : List Bool)
    (h : ReservedBits lc vt first lead trail e xs) : decodeCode lc vt first lead trail (xs ++ rest) = .error e := by
  cases h with
  | chimpReuse => exact decodeChimpNext_reuse lc rest none
  | chimpTrailEmpty _ _ lz =>
    simp only [List.append_assoc, decodeCode, decodeChimpNext_trail]
    exact decodeChimpTrail_header lc rest lz 0
  | chimpTrailWide _ _ lz sig hwide =>
    have hsig : sig.toNat ≠ 0 := by
      have := bucketCount_le lz
      omega
    simp only [List.append_assoc, decodeCode, decodeChimpNext_trail, decodeChimpTrail_header, if_neg hsig, if_pos hwide]
  | elfFirst _ _ tz7 hmany => simp only [decodeCode, decodeElfFirst_header, if_pos hmany]
  | elfReuse _ _ hnone =>
    simp only [decodeCode, decodeElfNext_reuse]
    rcases hnone with rfl | rfl
    · rfl
    · cases lead <;> rfl
  | elfNewLong _ _ lz cb6 hwide =>
    simp only [List.append_assoc, decodeCode, decodeElfNext_newLong, decodeElfNewLong_header, if_pos hwide]

/-! ### The stream says what the decoder answers -/

variable {bs : List Bool} {r : Except DecodeError (Instr × List Bool)}

theorem says_code {i : Instr} {rest : List Bool} (hbits : bs = codeBits lc lead trail i ++ rest)
    (hplace : i.codePlace = some (vt, first)) (hwf : i.wellFormed = true) (hfit : i.fitsWindow lead trail = true) :
    StreamSays lc vt first lead trail bs (.ok (i, rest)) :=
  hbits ▸ .code rest hplace hwf hfit

theorem says_reserved {e : DecodeError} {xs rest : List Bool} (hbits : bs = xs ++ rest)
    (h : ReservedBits lc vt first lead trail e xs) : StreamSays lc vt first lead trail bs (.error e) :=
  hbits ▸ .reserved rest h

/-- A payload of at most 64 bits that ends a decoding stands whole at the front (R89). -/
theorem takeField_payload_inv {n : Nat} {f : U64 → Instr} (hn : n ≤ 64) (hr : r ≠ .error .streamEnds)
    (h : (takeField n bs >>= fun p => .ok (f (BitVec.ofNat 64 p.1), p.2)) = r) :
    ∃ (payload : U64) (rest : List Bool),
      payload.toNat < 2 ^ n ∧ bs = natBits n payload.toNat ++ rest ∧ r = .ok (f payload, rest) := by
  obtain ⟨payload, rest, hlt, hbits, h⟩ := takeField_bind_inv hn hr h
  refine ⟨payload, rest, hlt, hbits, ?_⟩
  rw [← h, BitVec.ofNat_toNat, BitVec.setWidth_eq]

/-- A bucket field that starts a decoding stands at the front (R75). -/
theorem takeField_bucket_inv {k : Nat × List Bool → Except DecodeError (Instr × List Bool)}
    (lc : LeadingRepresentation) (hr : r ≠ .error .streamEnds) (h : (takeField 3 bs >>= k) = r) :
    ∃ (lz : Bucket) (rest : List Bool),
      bs = natBits 3 (leadCode lc lz).toNat ++ rest ∧ k ((leadCode lc lz).toNat, rest) = r := by
  obtain ⟨l, rest, -, hbits, h⟩ := takeField_bind_inv (le_refl 3) hr h
  obtain ⟨lz, rfl⟩ := exists_leadCode_eq lc l
  exact ⟨lz, rest, hbits, h⟩

theorem decodeChimpFirst_says (hr : r ≠ .error .streamEnds) (h : decodeChimpFirst bs = r) :
    StreamSays lc .chimp true lead trail bs r := by
  obtain ⟨raw, rest, -, hbits, rfl⟩ := takeField_payload_inv (f := .chimpFirst) (le_refl 64) hr h
  exact says_code (by simp only [hbits, codeBits_chimpFirst]) rfl rfl rfl

theorem decodeChimpTrail_says (hr : r ≠ .error .streamEnds) (h : decodeChimpTrail lc bs = r) :
    StreamSays lc .chimp false lead trail (natBits 2 1 ++ bs) r := by
  obtain ⟨lz, bs, rfl, hsigField⟩ := takeField_bucket_inv lc hr h
  obtain ⟨sig, bs, -, rfl, -⟩ := takeField_bind_inv (le_refl 6) hr hsigField
  rw [decodeChimpTrail_header] at h
  split_ifs at h with hzero hwide
  · exact h ▸ says_reserved (rest := bs) (by simp only [List.append_assoc, hzero]) (.chimpTrailEmpty lead trail lz)
  · exact h ▸ says_reserved (rest := bs) (by simp only [List.append_assoc]) (.chimpTrailWide lead trail lz sig hwide)
  · obtain ⟨payload, rest, hpayload, rfl, rfl⟩ := takeField_payload_inv (by omega) hr h
    have hwf : (Instr.chimpTrail lz sig payload).wellFormed = true := by
      simp only [Instr.wellFormed, Bool.and_eq_true, decide_eq_true_eq, fits_iff]
      exact ⟨⟨hzero, Nat.le_of_not_lt hwide⟩, hpayload⟩
    exact says_code (by simp only [codeBits_chimpTrail, List.append_assoc]) rfl hwf rfl

theorem decodeChimpReuse_says (hr : r ≠ .error .streamEnds) (h : decodeChimpReuse lead bs = r) :
    StreamSays lc .chimp false lead trail (natBits 2 2 ++ bs) r := by
  cases lead with
  | none => exact h ▸ .reserved bs (.chimpReuse trail)
  | some b =>
    obtain ⟨payload, rest, hpayload, rfl, rfl⟩ :=
      takeField_payload_inv (f := .chimpReuse) (Nat.sub_le 64 (bucketCount b)) hr h
    exact says_code (by simp only [codeBits_chimpReuse, belowLead, List.append_assoc]) rfl rfl ((fits_iff _ _).mpr hpayload)

theorem decodeChimpNewLead_says (hr : r ≠ .error .streamEnds) (h : decodeChimpNewLead lc bs = r) :
    StreamSays lc .chimp false lead trail (natBits 2 3 ++ bs) r := by
  obtain ⟨lz, bs, rfl, -⟩ := takeField_bucket_inv lc hr h
  rw [decodeChimpNewLead_header] at h
  obtain ⟨payload, rest, hpayload, rfl, rfl⟩ := takeField_payload_inv (Nat.sub_le 64 (bucketCount lz)) hr h
  exact says_code (by simp only [codeBits_chimpNewLead, belowLead, List.append_assoc]) rfl ((fits_iff _ _).mpr hpayload) rfl

/-- A 2-bit control code that is none of the first three is the fourth. -/
theorem control_eq_three {ctl : BitVec 2} (h0 : ctl.toNat ≠ 0) (h1 : ctl.toNat ≠ 1) (h2 : ctl.toNat ≠ 2) :
    ctl.toNat = 3 := by
  have := ctl.isLt
  omega

theorem decodeChimpNext_says (hr : r ≠ .error .streamEnds) (h : decodeChimpNext lc lead bs = r) :
    StreamSays lc .chimp false lead trail bs r := by
  obtain ⟨ctl, bs, -, rfl, hformat⟩ := takeField_bind_inv (le_refl 2) hr h
  dsimp only at hformat
  split_ifs at hformat with h0 h1 h2
  · rw [h0, ← hformat]
    exact says_code (by rw [codeBits_chimpSame]) rfl rfl rfl
  · rw [h1]
    exact decodeChimpTrail_says hr hformat
  · rw [h2]
    exact decodeChimpReuse_says hr hformat
  · rw [control_eq_three h0 h1 h2]
    exact decodeChimpNewLead_says hr hformat

theorem decodeElfFirst_says (hr : r ≠ .error .streamEnds) (h : decodeElfFirst bs = r) :
    StreamSays lc .elf true lead trail bs r := by
  obtain ⟨tz7, bs, -, rfl, -⟩ := takeField_bind_inv (le_refl 7) hr h
  rw [decodeElfFirst_header] at h
  split_ifs at h with hmany
  · exact h ▸ .reserved bs (.elfFirst lead trail tz7 hmany)
  · obtain ⟨payload, rest, hpayload, rfl, rfl⟩ := takeField_payload_inv (Nat.sub_le 64 _) hr h
    have hwf : (Instr.elfFirst tz7 payload).wellFormed = true := by
      simp only [Instr.wellFormed, Bool.and_eq_true, decide_eq_true_eq, fits_iff]
      exact ⟨Nat.le_of_not_lt hmany, hpayload⟩
    exact says_code (by simp only [codeBits_elfFirst, List.append_assoc]) rfl hwf rfl

theorem decodeElfReuse_says (hr : r ≠ .error .streamEnds) (h : decodeElfReuse lead trail bs = r) :
    StreamSays lc .elf false lead trail (natBits 2 0 ++ bs) r := by
  rcases lead with _ | b
  · exact h ▸ .reserved bs (.elfReuse none trail (.inl rfl))
  · rcases trail with _ | t
    · exact h ▸ .reserved bs (.elfReuse (some b) none (.inr rfl))
    · have hcentre : windowCentre b t ≤ 64 := by
        unfold windowCentre
        omega
      obtain ⟨payload, rest, hpayload, rfl, rfl⟩ := takeField_payload_inv (f := .elfReuse) hcentre hr h
      exact says_code (by simp only [codeBits_elfReuse hpayload, List.append_assoc]) rfl rfl ((fits_iff _ _).mpr hpayload)

theorem decodeElfNewShort_says (hr : r ≠ .error .streamEnds) (h : decodeElfNewShort lc bs = r) :
    StreamSays lc .elf false lead trail (natBits 2 2 ++ bs) r := by
  obtain ⟨lz, bs, rfl, hcountField⟩ := takeField_bucket_inv lc hr h
  obtain ⟨cb4, bs, -, rfl, -⟩ := takeField_bind_inv (le_refl 4) hr hcountField
  have hcentre := (centreOf4_range cb4).2
  rw [decodeElfNewShort_header] at h
  obtain ⟨payload, rest, hpayload, rfl, rfl⟩ := takeField_payload_inv (by omega) hr h
  exact says_code (by simp only [codeBits_elfNewShort, List.append_assoc]) rfl ((fits_iff _ _).mpr hpayload) rfl

theorem decodeElfNewLong_says (hr : r ≠ .error .streamEnds) (h : decodeElfNewLong lc bs = r) :
    StreamSays lc .elf false lead trail (natBits 2 3 ++ bs) r := by
  obtain ⟨lz, bs, rfl, hcountField⟩ := takeField_bucket_inv lc hr h
  obtain ⟨cb6, bs, -, rfl, -⟩ := takeField_bind_inv (le_refl 6) hr hcountField
  rw [decodeElfNewLong_header] at h
  split_ifs at h with hwide
  · exact h ▸ says_reserved (rest := bs) (by simp only [List.append_assoc]) (.elfNewLong lead trail lz cb6 hwide)
  · obtain ⟨payload, rest, hpayload, rfl, rfl⟩ := takeField_payload_inv (centreOf6_range cb6).2 hr h
    have hwf : (Instr.elfNewLong lz cb6 payload).wellFormed = true := by
      simp only [Instr.wellFormed, Bool.and_eq_true, decide_eq_true_eq, fits_iff]
      exact ⟨Nat.le_of_not_lt hwide, hpayload⟩
    exact says_code (by simp only [codeBits_elfNewLong, List.append_assoc]) rfl hwf rfl

theorem decodeElfNext_says (hr : r ≠ .error .streamEnds) (h : decodeElfNext lc lead trail bs = r) :
    StreamSays lc .elf false lead trail bs r := by
  obtain ⟨ctl, bs, -, rfl, hformat⟩ := takeField_bind_inv (le_refl 2) hr h
  dsimp only at hformat
  split_ifs at hformat with h0 h1 h2
  · rw [h0]
    exact decodeElfReuse_says hr hformat
  · rw [h1, ← hformat]
    exact says_code (by rw [codeBits_elfSame]) rfl rfl rfl
  · rw [h2]
    exact decodeElfNewShort_says hr hformat
  · rw [control_eq_three h0 h1 h2]
    exact decodeElfNewLong_says hr hformat

/-- The decoder that does not run out of stream answers what the stream says, and nothing else (R80, R82). -/
theorem decodeCode_eq_iff (hr : r ≠ .error .streamEnds) :
    decodeCode lc vt first lead trail bs = r ↔ StreamSays lc vt first lead trail bs r := by
  constructor
  case mp =>
    intro h
    cases vt <;> cases first
    · exact decodeChimpNext_says hr h
    · exact decodeChimpFirst_says hr h
    · exact decodeElfNext_says hr h
    · exact decodeElfFirst_says hr h
  case mpr =>
    rintro (⟨rest, hplace, hwf, hfit⟩ | ⟨rest, hreserved⟩)
    · exact decodeCode_codeBits rest hplace hwf hfit
    · exact decodeCode_reservedBits rest hreserved

theorem decodeCode_ok_inv {i : Instr} {rest : List Bool} (h : decodeCode lc vt first lead trail bs = .ok (i, rest)) :
    bs = codeBits lc lead trail i ++ rest ∧ i.codePlace = some (vt, first) ∧ i.wellFormed = true ∧
      i.fitsWindow lead trail = true := by
  cases (decodeCode_eq_iff (by simp)).mp h with
  | code _ hplace hwf hfit => exact ⟨rfl, hplace, hwf, hfit⟩

theorem reservedBits_ne_streamEnds {e : DecodeError} {xs : List Bool} (h : ReservedBits lc vt first lead trail e xs) :
    e ≠ .streamEnds := by
  cases h <;> nofun

/-- The bits that the decoder rejects by name are the reserved encodings (R82). -/
theorem decodeCode_rejects_iff {e : DecodeError} :
    e ≠ .streamEnds ∧ decodeCode lc vt first lead trail bs = .error e ↔
      ∃ xs rest, ReservedBits lc vt first lead trail e xs ∧ bs = xs ++ rest := by
  constructor
  case mp =>
    rintro ⟨he, h⟩
    cases (decodeCode_eq_iff (by simpa using he)).mp h with
    | reserved rest hreserved => exact ⟨_, rest, hreserved, rfl⟩
  case mpr =>
    rintro ⟨xs, rest, hreserved, rfl⟩
    exact ⟨reservedBits_ne_streamEnds hreserved, decodeCode_reservedBits rest hreserved⟩

end

/-- Settles O8: format by format, the control code, the header and the payload are read back. -/
theorem wireCodesDecodeToThemselves : Obligations.WireCodesDecodeToThemselves :=
  fun _ _ _ _ _ _ rest => decodeCode_codeBits rest

/-- Settles O9: an answer that is a code is one that the stream says. -/
theorem decodedCodesEncodeBack : Obligations.DecodedCodesEncodeBack :=
  fun _ _ _ _ _ _ _ _ => decodeCode_ok_inv

/-! ### The mode marks -/

/-- The two mode marks (R73, R74). -/
def IsModeMark (i : Instr) : Prop :=
  i = .orchRaw ∨ ∃ betaStar, i = .orchDec betaStar

/-- A mark at the front of a stream decodes to itself: the flag is read, then betaStar (R73, R74). -/
theorem decodeMode_codeBits {i : Instr} (hmark : IsModeMark i) (lc : LeadingRepresentation) (lead : Option Bucket)
    (trail : Option (Fin 64)) (rest : List Bool) : decodeMode (codeBits lc lead trail i ++ rest) = .ok (i, rest) := by
  rcases hmark with rfl | ⟨betaStar, rfl⟩
  · simp [decodeMode, takeField_bind]
  · simp [decodeMode, takeField_bind, takeField_bind_toNat]

/-- What decodes as a mark is that mark's bits (R73, R74). -/
theorem decodeMode_ok_inv {i : Instr} {bs rest : List Bool} (h : decodeMode bs = .ok (i, rest)) :
    IsModeMark i ∧ ∀ lc lead trail, bs = codeBits lc lead trail i ++ rest := by
  have hok : Except.ok (i, rest) ≠ Except.error DecodeError.streamEnds := nofun
  obtain ⟨flag, bs, -, rfl, hmode⟩ := takeField_bind_inv (le_refl 1) hok h
  dsimp only at hmode
  split_ifs at hmode with hflag
  · cases hmode
    exact ⟨.inl rfl, fun lc lead trail => by rw [hflag, codeBits_orchRaw]⟩
  · obtain ⟨betaStar, bs, -, rfl, hdec⟩ := takeField_bind_inv (le_refl 4) hok hmode
    simp only [BitVec.ofNat_toNat, BitVec.setWidth_eq] at hdec
    cases hdec
    have hone : flag.toNat = 1 := by
      have := flag.isLt
      omega
    exact ⟨.inr ⟨betaStar, rfl⟩, fun lc lead trail => by rw [hone, codeBits_orchDec, List.append_assoc]⟩

/-- Settles O10: each mark is one of the two. -/
theorem modeMarksDecodeToThemselves : Obligations.ModeMarksDecodeToThemselves :=
  fun lc lead trail betaStar rest =>
    ⟨decodeMode_codeBits (.inl rfl) lc lead trail rest, decodeMode_codeBits (.inr ⟨betaStar, rfl⟩) lc lead trail rest⟩

/-- Settles O12: the five words are decoded bit by bit. -/
theorem writtenWordsDecodeAsTheSpecSays : Obligations.WrittenWordsDecodeAsTheSpecSays := by
  exact ⟨rfl, rfl, rfl, rfl, rfl⟩

end Sys2Proof.Machine
end

section
/-! PROOFS. What wire codes do when they are run: on a compressor unit they are emitted, on either kind of unit they stop where
they are no code of it (spec/30_encoding.md R80 to R82, R88, 41_compressor_contract.md R100). -/

namespace Sys2Proof.Machine

/-! ### Which codes a session takes -/

/-- Everything checking an XOR code can say: it is a reserved encoding (R82), or its payload is too wide (R89), or nothing. -/
theorem codeCheck_cases {i : Instr} (x : Session) (hplace : i.codePlace ≠ none) :
    (i.reservedIn x.lead x.trail = true ∧ ∃ n, codeCheck i x = some (.reserved n)) ∨
      (i.reservedIn x.lead x.trail = false ∧ (codeCheck i x = some .tooWide ∨ codeCheck i x = none)) := by
  cases i with
  | chimpFirst | chimpSame | elfSame => exact .inr ⟨rfl, .inr rfl⟩
  | chimpTrail lz sig payload =>
    simp only [codeCheck, chimpTrailCheck, Instr.reservedIn, Bool.or_eq_true, Bool.or_eq_false_iff, decide_eq_true_eq,
      decide_eq_false_iff_not]
    split_ifs <;> simp [*]
  | chimpReuse payload =>
    simp only [codeCheck, chimpReuseCheck, Instr.reservedIn]
    rcases x.lead with _ | b
    · simp
    · dsimp only
      split_ifs <;> simp
  | chimpNewLead lz payload =>
    simp only [codeCheck, chimpNewLeadCheck, Instr.reservedIn]
    split_ifs <;> simp
  | elfFirst tz7 payload =>
    simp only [codeCheck, elfFirstCheck, Instr.reservedIn, decide_eq_true_eq, decide_eq_false_iff_not]
    split_ifs <;> simp [*]
  | elfReuse payload =>
    simp only [codeCheck, elfReuseCheck, Instr.reservedIn]
    rcases x.lead with _ | b
    · simp
    · rcases x.trail with _ | t
      · simp
      · dsimp only
        split_ifs <;> simp
  | elfNewShort lz cb4 payload =>
    simp only [codeCheck, elfNewShortCheck, Instr.reservedIn]
    split_ifs <;> simp
  | elfNewLong lz cb6 payload =>
    simp only [codeCheck, elfNewLongCheck, Instr.reservedIn, decide_eq_true_eq, decide_eq_false_iff_not]
    split_ifs <;> simp [*]
  | _ => exact absurd rfl hplace

theorem codeCheck_reserved {i : Instr} {x : Session} (hplace : i.codePlace ≠ none)
    (hres : i.reservedIn x.lead x.trail = true) : ∃ n, codeCheck i x = some (.reserved n) := by
  rcases codeCheck_cases x hplace with ⟨-, h⟩ | ⟨h, -⟩
  · exact h
  · rw [h] at hres
    cases hres

theorem codeCheck_tooWide {i : Instr} {x : Session} (hplace : i.codePlace ≠ none)
    (hres : i.reservedIn x.lead x.trail = false)
    (hill : ¬ (i.wellFormed = true ∧ i.fitsWindow x.lead x.trail = true)) : codeCheck i x = some .tooWide := by
  rcases codeCheck_cases x hplace with ⟨h, -⟩ | ⟨-, h | h⟩
  · rw [h] at hres
    cases hres
  · exact h
  · exact absurd ((codeCheck_eq_none_iff hplace).mp h) hill

/-! ### Running a code -/

/-- The meaning of every XOR code is to run it (log 10). -/
theorem exec_eq_runCode {i : Instr} (s : State) (hplace : i.codePlace ≠ none) : exec i s = runCode i s := by
  cases i with
  | chimpFirst | chimpSame | chimpTrail | chimpReuse | chimpNewLead => rfl
  | elfFirst | elfSame | elfReuse | elfNewShort | elfNewLong => rfl
  | _ => exact absurd rfl hplace

section
variable {s : State} {i : Instr}

section
variable {c : CU} (hu : s.unit? = some (.cu c))
include hu

theorem runCode_cu_away (haway : ¬ (c.phase = .opened ∧ i.codePlace = some (c.cfg.variant, c.session.first))) :
    runCode i s = .refused .outOfPlace := by
  simp only [runCode, hu, if_neg haway]

theorem runCode_cu_reserved (hphase : c.phase = .opened)
    (hplace : i.codePlace = some (c.cfg.variant, c.session.first))
    (hres : i.reservedIn c.session.lead c.session.trail = true) : runCode i s = .refused .reservedCode := by
  obtain ⟨n, hcheck⟩ := codeCheck_reserved (by simp [hplace]) hres
  simp only [runCode, hu, if_pos (And.intro hphase hplace), hcheck]

theorem runCode_cu_tooWide (hphase : c.phase = .opened)
    (hplace : i.codePlace = some (c.cfg.variant, c.session.first))
    (hres : i.reservedIn c.session.lead c.session.trail = false)
    (hill : ¬ (i.wellFormed = true ∧ i.fitsWindow c.session.lead c.session.trail = true)) :
    runCode i s = .refused .operandTooWide := by
  have hcheck := codeCheck_tooWide (by simp [hplace]) hres hill
  simp only [runCode, hu, if_pos (And.intro hphase hplace), hcheck]

end

section
variable {d : DU} (hu : s.unit? = some (.du d))
include hu

theorem runCode_du_away (haway : ¬ (d.ready = true ∧ i.codePlace = some (d.cfg.variant, d.session.first))) :
    runCode i s = .refused .outOfPlace := by
  simp only [runCode, hu, if_neg haway]

theorem runCode_du_tooWide (hready : d.ready = true)
    (hplace : i.codePlace = some (d.cfg.variant, d.session.first))
    (hres : i.reservedIn d.session.lead d.session.trail = false)
    (hill : ¬ (i.wellFormed = true ∧ i.fitsWindow d.session.lead d.session.trail = true)) :
    runCode i s = .refused .operandTooWide := by
  have hcheck := codeCheck_tooWide (by simp [hplace]) hres hill
  simp only [runCode, hu, if_pos (And.intro hready hplace), hcheck]

end

/-- An instruction for a unit that is not there faults, whatever it is (R209, log 15). -/
theorem exec_noUnit (i : Instr) (hu : s.unit? = none) : exec i s = .fault .noSuchUnit := by
  have hcode (j : Instr) : runCode j s = .fault .noSuchUnit := by simp only [runCode, hu]
  have hmark (j : Instr) (v n : Nat) : runMark j v n s = .fault .noSuchUnit := by simp only [runMark, hu]
  have hcu (f : CU → StepResult) : s.onCU f = .fault .noSuchUnit := by simp only [State.onCU, hu]
  have hdu (f : DU → StepResult) : s.onDU f = .fault .noSuchUnit := by simp only [State.onDU, hu]
  cases i with
  | chimpFirst | chimpSame | chimpTrail | chimpReuse | chimpNewLead => exact hcode _
  | elfFirst | elfSame | elfReuse | elfNewShort | elfNewLong => exact hcode _
  | orchRaw | orchDec => exact hmark _ _ _
  | addValue | close | refreshCU | putBitsCommand | getBuf => exact hcu _
  | setBytes | readValue | nextValue | decompX | decompE | refreshDU => exact hdu _
  | putBits v n => simp only [exec, execPutBits, hu]
  | getBits n => simp only [exec, execGetBits, hu]
  | flush => simp only [exec, execFlush, hu]

/-! ### Emitting a code -/

/-- Writing the value that stands in `storedVal` changes nothing. -/
theorem with_storedVal_eq {x : Session} {v : U64} (h : x.storedVal = v) : { x with storedVal := v } = x := by
  subst h
  rfl

/-- Appending a value is emitting the code chosen for it: that code leaves the value in `storedVal` (R81, R100, R137). -/
theorem append_eq_emit (c : CU) (v : U64) : c.append v = c.emit (c.chosen v) := by
  have hvalue : (codeNext (c.chosen v) c.session).storedVal = v := (chosen_legal c v).2
  unfold CU.append
  rcases emit_cases c (c.chosen v) with ⟨c', -, he⟩ | he
  · simp only [he, with_storedVal_eq hvalue]
  · simp only [he]

theorem emit_of_putFields {c c' : CU}
    (h : c.putFields (codeFields c.cfg.leadCode c.session.lead c.session.trail i) = .ok c') :
    c.emit i = .ok ({ c' with session := codeNext i c.session }, c.lengthOf i) := by
  obtain ⟨-, -, -, -, hwpos, -⟩ := putFields_frame h
  simp only [CU.emit, h, hwpos, Nat.add_sub_cancel_left]
  rfl

/-- Emitting a code whose bits fit appends them and leaves the session that the code leaves (R100). -/
theorem emit_of_fits {c : CU} (hwf : c.buf.WF) (hroom : c.wpos + c.lengthOf i ≤ 8 * c.bufBytes) :
    ∃ c', c.emit i = .ok (c', c.lengthOf i) ∧
      c' = { c with session := codeNext i c.session, wpos := c'.wpos, buf := c'.buf } ∧
      c.Appended c' (c.bitsOf i) ∧ c'.buf.WF := by
  obtain ⟨c1, hput⟩ := putFields_fit hroom
  obtain ⟨hcursor, hinside, houtside, hbytes⟩ := putFields_appended hwf hput
  obtain ⟨hcfg, -, hphase, hfault, -, -, hbuf, -⟩ := putFields_frame hput
  exact ⟨_, emit_of_putFields hput, by simp [hcfg, hphase, hfault], ⟨hcursor, hinside, houtside, hbytes⟩, hbuf hwf⟩

end

/-- Settles O23: the chosen code is legal where it stands, and appending is emitting it. -/
theorem addValueRunsTheChosenCode : Obligations.AddValueRunsTheChosenCode := by
  intro s c v hu hphase
  have hplace := chosen_place c v
  calc exec (.addValue v) s
    _ = s.finishBits c (c.append v) := (onCU_cu hu _).trans (if_pos hphase)
    _ = s.finishBits c (c.emit (c.chosen v)) := by rw [append_eq_emit]
    _ = runCode (c.chosen v) s := (runCode_cu hu hphase hplace (chosen_legal c v).1).symm
    _ = exec (c.chosen v) s := (exec_eq_runCode s (by simp [hplace])).symm

/-- Settles O29: a well-formed code in a window it fits passes the check and is emitted. -/
theorem wireCodesAreEmitted : Obligations.WireCodesAreEmitted := by
  intro s c i hu hphase hwf hplace hform hfit hroom
  have hcode : i.codePlace ≠ none := by simp [hplace]
  have hcheck : codeCheck i c.session = none := (codeCheck_eq_none_iff hcode).mpr ⟨hform, hfit⟩
  obtain ⟨c', hemit, hrest⟩ := emit_of_fits hwf hroom
  refine ⟨c', ?_, hrest⟩
  rw [exec_eq_runCode s hcode, runCode_cu hu hphase hplace hcheck, hemit]
  rfl

/-- Settles O13: each format has its own lemma. -/
theorem everyCodeLengthIsInItsRange : Obligations.EveryCodeLengthIsInItsRange := by
  intro i
  cases i with
  | chimpFirst raw => exact Laws.CodeLength.chimpFirst raw
  | chimpSame => exact Laws.CodeLength.chimpSame
  | chimpTrail lz sig payload => exact Laws.CodeLength.chimpTrail lz sig payload
  | chimpReuse payload => exact Laws.CodeLength.chimpReuse payload
  | chimpNewLead lz payload => exact Laws.CodeLength.chimpNewLead lz payload
  | elfFirst tz7 payload => exact Laws.CodeLength.elfFirst tz7 payload
  | elfSame => exact Laws.CodeLength.elfSame
  | elfReuse payload => exact Laws.CodeLength.elfReuse payload
  | elfNewShort lz cb4 payload => exact Laws.CodeLength.elfNewShort lz cb4 payload
  | elfNewLong lz cb6 payload => exact Laws.CodeLength.elfNewLong lz cb6 payload
  | orchRaw => exact Laws.CodeLength.orchRaw
  | orchDec betaStar => exact Laws.CodeLength.orchDec betaStar
  | addValue | close | refreshCU | putBitsCommand | getBuf => exact Laws.CodeLength.noCode (fun _ _ _ => rfl) rfl
  | setBytes | readValue | nextValue | decompX | decompE | refreshDU =>
    exact Laws.CodeLength.noCode (fun _ _ _ => rfl) rfl
  | putBits | getBits | flush => exact Laws.CodeLength.noCode (fun _ _ _ => rfl) rfl

/-- Settles O30: a mark on a compressor unit is written by PUTBITS, and its operands fit the port. -/
theorem modeMarksAreWrittenWithPutBits : Obligations.ModeMarksAreWrittenWithPutBits := by
  intro s c betaStar hu
  have hmark (i : Instr) (v n : Nat) : runMark i v n s = s.putBitsOn c v n := by simp only [runMark, hu]
  have hcommand (v : U64) (n : BitVec 7) : exec (.putBitsCommand v n) s = s.putBitsOn c v.toNat n.toNat := onCU_cu hu _
  have hoperand : (BitVec.ofNat 64 (16 + betaStar.toNat)).toNat = 16 + betaStar.toNat :=
    Nat.mod_eq_of_lt (by have := betaStar.isLt; omega)
  refine ⟨(hmark .orchRaw 0 1).trans (hcommand 0 1).symm, ?_⟩
  rw [hcommand, hoperand]
  exact hmark (.orchDec betaStar) _ 5

/-! ### Stops -/

section
variable {s : State}

section
variable {c : CU} (hu : s.unit? = some (.cu c))
include hu

theorem execGetBits_cu (n : BitVec 7) : exec (.getBits n) s = .refused .outOfPlace := by
  simp only [exec, execGetBits, hu]

theorem execPutBits_notOpen (hphase : c.phase ≠ .opened) (v : U64) (n : BitVec 7) :
    exec (.putBits v n) s = .refused .outOfPlace := by
  simp only [exec, execPutBits, hu, if_neg hphase]

theorem execFlush_notOpen (hphase : c.phase ≠ .opened) : exec .flush s = .refused .outOfPlace := by
  simp only [exec, execFlush, hu, if_neg hphase]

theorem execPutBits_tooWide (hphase : c.phase = .opened) {v : U64} {n : BitVec 7}
    (hwide : ¬ (n.toNat ≤ 64 ∧ v.toNat < 2 ^ n.toNat)) : exec (.putBits v n) s = .refused .operandTooWide := by
  simp only [exec, execPutBits, hu, if_pos hphase, if_neg hwide]

theorem execGetBuf_outside (hphase : c.phase = .closed) (hpast : c.bufBytes < c.wpos / 8) :
    exec .getBuf s = .fault .outsideBuffer := by
  have hread : c.memRead 0 (c.wpos / 8) = none := if_neg (by omega)
  calc exec .getBuf s
    _ = _ := onCU_cu hu _
    _ = .fault .outsideBuffer := by rw [if_pos hphase, hread]

end

section
variable {d : DU} (hu : s.unit? = some (.du d))
include hu

theorem execPutBits_du (v : U64) (n : BitVec 7) : exec (.putBits v n) s = .refused .outOfPlace := by
  simp only [exec, execPutBits, hu]

theorem execFlush_du : exec .flush s = .refused .outOfPlace := by
  simp only [exec, execFlush, hu]

theorem execGetBits_notReady (hready : d.ready = false) (n : BitVec 7) :
    exec (.getBits n) s = .refused .outOfPlace := by
  simp only [exec, execGetBits, hu, hready, Bool.false_eq_true, if_false]

theorem runMark_notReady (hready : d.ready = false) (i : Instr) (v n : Nat) :
    runMark i v n s = .refused .outOfPlace := by
  simp only [runMark, hu, hready, Bool.false_eq_true, if_false]

theorem execGetBits_tooWide (hready : d.ready = true) {n : BitVec 7} (hwide : 64 < n.toNat) :
    exec (.getBits n) s = .refused .operandTooWide := by
  simp only [exec, execGetBits, hu, if_pos hready, if_neg (Nat.not_le.mpr hwide)]

end
end

/-- Settles O45: each clause is one arm of the meaning that stops there. -/
theorem stopsAreWhereTheyAreNamed : Obligations.StopsAreWhereTheyAreNamed := by
  refine ⟨fun i s => exec_noUnit i, ?codeOnCU, ?codeOnDU, ?primitiveOnCU, ?primitiveOnDU, fun s c => execGetBuf_outside⟩
  case codeOnCU =>
    intro i s c hu hcode
    rw [exec_eq_runCode s hcode]
    exact ⟨fun haway => runCode_cu_away hu (not_and_or.mpr haway), fun hphase hplace =>
      ⟨runCode_cu_reserved hu hphase hplace, runCode_cu_tooWide hu hphase hplace⟩⟩
  case codeOnDU =>
    intro i s d hu hcode
    rw [exec_eq_runCode s hcode]
    refine ⟨fun haway => runCode_du_away hu (not_and_or.mpr ?_), runCode_du_tooWide hu⟩
    rwa [Bool.not_eq_true]
  case primitiveOnCU =>
    intro s c hu
    exact ⟨execGetBits_cu hu, fun hphase => ⟨execPutBits_notOpen hu hphase, execFlush_notOpen hu hphase⟩,
      fun hphase _ _ => execPutBits_tooWide hu hphase⟩
  case primitiveOnDU =>
    intro s d hu
    exact ⟨execPutBits_du hu, execFlush_du hu, fun hready => ⟨execGetBits_notReady hu hready,
      runMark_notReady hu hready _ _ _, fun _ => runMark_notReady hu hready _ _ _⟩,
      fun hready _ => execGetBits_tooWide hu hready⟩

end Sys2Proof.Machine
end

section
/-! PROOFS. The host commands on the port of a unit: each is listed once for its kind, and what is not listed is refused
(spec/30_encoding.md R85, 60_exceptions.md R202, R204). -/

namespace Sys2Proof.Machine

/-- Settles O11: a command's code is listed for its kind of unit, with the operands it uses. -/
theorem hostCommandsDecodeToThemselves : Obligations.HostCommandsDecodeToThemselves := by
  intro unit i k hkind
  cases i with
  | addValue | close | refreshCU | putBitsCommand | getBuf =>
    cases hkind
    exact ⟨_, rfl, rfl, rfl⟩
  | setBytes | readValue | nextValue | decompX | decompE | refreshDU =>
    cases hkind
    exact ⟨_, rfl, rfl, rfl⟩
  | _ => cases hkind

theorem runCommand_error {s : State} {c : Command} {u : CodecUnit} {e : DecodeError} (hu : s.unit? = some u)
    (hd : decodeCommand u.kind c = .error e) : s.runCommand c = .next (s.refuse u) := by
  simp only [State.runCommand, hu, hd]

/-- Settles O4: the sixteen codes on each kind of unit, and the refusal of what neither table lists. -/
theorem commandCodesAreTheTabledOnes : Obligations.CommandCodesAreTheTabledOnes := by
  refine ⟨?cu, ?du, ?refused⟩
  case cu =>
    rintro ⟨unit, ⟨cmd, hcmd⟩, v, n, b⟩
    interval_cases cmd <;> rfl
  case du =>
    rintro ⟨unit, ⟨cmd, hcmd⟩, v, n, b⟩
    interval_cases cmd <;> rfl
  case refused =>
    intro s c rest u hpending hunit hdecode
    rw [step_command hpending]
    exact runCommand_error (s := s.take c.unit rest) hunit hdecode

end Sys2Proof.Machine
end

section
/-! PROOFS. What a decompressor unit sees of its source: a reserved encoding is the one cause of MALFORMED_CODE
(spec/30_encoding.md R82, 60_exceptions.md R199), and what stands behind the sentinel's code is never looked at (R84). -/

namespace Sys2Proof.Machine

/-! ### Which replies are a terminal fault -/

/-- A decode command takes exactly the fault that its decode raises. -/
theorem finishDecoded_eq_raise_iff {s : State} {d : DU} (hu : s.unit? = some (.du d)) (f : TerminalFault)
    (r : Except TerminalFault (Decoded × DU)) :
    s.finishDecoded d r = .next (s.raise (.du d) f) ↔ r = .error f := by
  have hdraws (w : CodecUnit) (st : Status) (x : Result) : s.answer w st x ≠ s.raise (.du d) f := fun h => by
    have := congrArg State.draws h
    simp at this
  rcases finishDecoded_cases s d r with ⟨v, d', rfl, hf⟩ | ⟨d', rfl, hf⟩ | ⟨g, rfl, hf⟩ <;> rw [hf]
  · simpa using hdraws _ _ _
  · simpa using hdraws _ _ _
  · constructor
    · intro h
      have hunit (g : TerminalFault) : (s.raise (.du d) g).unit? = some (.du (d.enterFault s.draws g)) :=
        answer_unit? (st := .fault) (r := .none) hu
      have hsame := congrArg State.unit? (Host.Outcome.next.inj h)
      rw [hunit, hunit] at hsame
      have hcode := congrArg DU.faultCode (CodecUnit.du.inj (Option.some.inj hsame))
      simpa using hcode
    · rintro ⟨⟩
      rfl

theorem decodeFault_eq_malformedCode_iff {e : DecodeError} : decodeFault e = .malformedCode ↔ e ≠ .streamEnds := by
  cases e <;> simp [decodeFault]

theorem fetchCode_error_iff {d : DU} {e : DecodeError} :
    d.fetchCode = .error e ↔
      decodeCode d.cfg.leadCode d.cfg.variant d.session.first d.session.lead d.session.trail d.stream = .error e := by
  unfold DU.fetchCode
  split
  next h => simp [h]
  next h => simp [h]

theorem fetchCode_ok_iff {d : DU} {i : Instr} :
    d.fetchCode = .ok i ↔ ∃ rest,
      decodeCode d.cfg.leadCode d.cfg.variant d.session.first d.session.lead d.session.trail d.stream =
        .ok (i, rest) := by
  unfold DU.fetchCode
  split
  next h => simp [h]
  next h => simp [h]

/-- Decoding raises MALFORMED_CODE exactly where the decoder rejects the bits by name (R199): executing a code never does. -/
theorem xorDecode_malformed_iff {d : DU} :
    d.xorDecode = .error .malformedCode ↔ ∃ e, e ≠ .streamEnds ∧ d.fetchCode = .error e := by
  rcases xorDecode_cases d with ⟨i, hfetch, hx⟩ | ⟨e, hfetch, hx⟩ <;> rw [hx, hfetch]
  · rcases execute_cases d i with ⟨-, he⟩ | ⟨-, ⟨-, he⟩ | ⟨-, he⟩⟩ <;> simp [he]
  · simp [decodeFault_eq_malformedCode_iff]

/-- The reserved encodings at the cursor are those the decoder has a name for (R82). -/
theorem reservedAhead_iff (d : DU) :
    d.ReservedAhead ↔ ∃ e xs rest,
      ReservedBits d.cfg.leadCode d.cfg.variant d.session.first d.session.lead d.session.trail e xs ∧
        d.stream = xs ++ rest := by
  unfold DU.ReservedAhead
  generalize d.cfg.leadCode = lc, d.cfg.variant = vt, d.session.first = first, d.session.lead = lead,
    d.session.trail = trail
  constructor
  case mp =>
    rintro (⟨rfl, rfl, rfl, rest, h⟩ | ⟨rfl, rfl, lz, rest, h⟩ | ⟨rfl, rfl, lz, sig, hwide, rest, h⟩ |
      ⟨rfl, rfl, tz7, hmany, rest, h⟩ | ⟨rfl, rfl, hnone, rest, h⟩ | ⟨rfl, rfl, lz, cb6, hwide, rest, h⟩)
    · exact ⟨_, _, rest, .chimpReuse trail, h⟩
    · exact ⟨_, _, rest, .chimpTrailEmpty lead trail lz, h⟩
    · exact ⟨_, _, rest, .chimpTrailWide lead trail lz sig hwide, h⟩
    · exact ⟨_, _, rest, .elfFirst lead trail tz7 hmany, h⟩
    · exact ⟨_, _, rest, .elfReuse lead trail hnone, h⟩
    · exact ⟨_, _, rest, .elfNewLong lead trail lz cb6 hwide, h⟩
  case mpr =>
    rintro ⟨e, xs, rest, hreserved, h⟩
    cases hreserved with
    | chimpReuse => exact .inl ⟨rfl, rfl, rfl, rest, h⟩
    | chimpTrailEmpty _ _ lz => exact .inr (.inl ⟨rfl, rfl, lz, rest, h⟩)
    | chimpTrailWide _ _ lz sig hwide => exact .inr (.inr (.inl ⟨rfl, rfl, lz, sig, hwide, rest, h⟩))
    | elfFirst _ _ tz7 hmany => exact .inr (.inr (.inr (.inl ⟨rfl, rfl, tz7, hmany, rest, h⟩)))
    | elfReuse _ _ hnone => exact .inr (.inr (.inr (.inr (.inl ⟨rfl, rfl, hnone, rest, h⟩))))
    | elfNewLong _ _ lz cb6 hwide => exact .inr (.inr (.inr (.inr (.inr ⟨rfl, rfl, lz, cb6, hwide, rest, h⟩))))

/-- The decoder rejects the bits at the cursor by name exactly when a reserved encoding stands there (R82). -/
theorem fetchCode_rejects_iff (d : DU) : (∃ e, e ≠ .streamEnds ∧ d.fetchCode = .error e) ↔ d.ReservedAhead := by
  simp only [reservedAhead_iff, fetchCode_error_iff, decodeCode_rejects_iff]

/-- Settles O14: the fault is what the decode raises, and it raises this one where the decoder rejects a reserved encoding. -/
theorem malformedExactlyOnReservedEncodings : Obligations.MalformedExactlyOnReservedEncodings := by
  intro s d hu hready
  have hexec : exec .readValue s = s.finishDecoded d d.xorDecode := (onDU_du hu _).trans (if_pos hready)
  rw [hexec, finishDecoded_eq_raise_iff hu, xorDecode_malformed_iff, fetchCode_rejects_iff]

/-! ### Decoding looks no further than its cursor -/

/-- Two sources agree on their first p bits, which the first of them has. -/
def SameUpTo (p : Nat) (src src' : List Byte) : Prop :=
  p ≤ 8 * src.length ∧ (bytesBits src).take p = (bytesBits src').take p

theorem SameUpTo.mono {p q : Nat} {src src' : List Byte} (h : SameUpTo q src src') (hpq : p ≤ q) : SameUpTo p src src' := by
  obtain ⟨hlen, htake⟩ := h
  refine ⟨by omega, ?_⟩
  rw [← Nat.min_eq_left hpq, ← List.take_take, htake, List.take_take]

/-- What a decode answers with does not depend on the source behind the cursor that it leaves: it never moves the cursor back,
keeps the source, and answers the same from any source with the same bits up to there. -/
def LooksNoFurther (decode : DU → Except TerminalFault (Decoded × DU)) : Prop :=
  ∀ {d d1 : DU} {r : Decoded}, decode d = .ok (r, d1) →
    d.rpos ≤ d1.rpos ∧ d1.src = d.src ∧
      ∀ src, SameUpTo d1.rpos src d.src → decode { d with src := src } = .ok (r, { d1 with src := src })

/-- Bits at the cursor that both sources have. -/
theorem stream_with_src {d : DU} {xs rest : List Bool} {src : List Byte} (hstream : d.stream = xs ++ rest)
    (hsame : SameUpTo (d.rpos + xs.length) src d.src) : ∃ rest', { d with src := src }.stream = xs ++ rest' := by
  have hxs : { d with src := src }.stream.take xs.length = xs := by
    calc ((bytesBits src).drop d.rpos).take xs.length
      _ = ((bytesBits src).take (d.rpos + xs.length)).drop d.rpos := List.take_drop
      _ = ((bytesBits d.src).take (d.rpos + xs.length)).drop d.rpos := by rw [hsame.2]
      _ = d.stream.take xs.length := List.take_drop.symm
      _ = xs := by rw [hstream, List.take_left]
  exact ⟨_, by rw [← List.take_append_drop xs.length (DU.stream _), hxs]⟩

/-- The code at the cursor is the same in a source that agrees up to its end. -/
theorem fetchCode_with_src {d : DU} {i : Instr} {src : List Byte} (h : d.fetchCode = .ok i)
    (hsame : SameUpTo (d.rpos + d.lengthOf i) src d.src) : { d with src := src }.fetchCode = .ok i := by
  obtain ⟨rest, hdecode⟩ := fetchCode_ok_iff.mp h
  obtain ⟨hstream, hplace, hwf, hfit⟩ := decodeCode_ok_inv hdecode
  obtain ⟨rest', hstream'⟩ := stream_with_src hstream (by rwa [codeBits_length])
  exact fetchCode_ok_iff.mpr ⟨rest', hstream' ▸ decodeCode_codeBits rest' hplace hwf hfit⟩

/-- Executing a code moves the cursor past it, and needs of the source only that it is long enough (R91, R136). -/
theorem execute_with_src {d d1 : DU} {i : Instr} {r : Decoded} (h : d.execute i = .ok (r, d1)) :
    d1.rpos = d.rpos + d.lengthOf i ∧ d1.src = d.src ∧
      ∀ src : List Byte, d1.rpos ≤ 8 * src.length → { d with src := src }.execute i = .ok (r, { d1 with src := src }) := by
  rcases execute_cases d i with ⟨-, he⟩ | ⟨-, ⟨hvalue, he⟩ | ⟨hvalue, he⟩⟩ <;> rw [he] at h <;> cases h
  · exact ⟨rfl, rfl, fun src hlen => (if_neg (Nat.not_lt.mpr hlen)).trans (if_pos hvalue)⟩
  · exact ⟨rfl, rfl, fun src hlen => (if_neg (Nat.not_lt.mpr hlen)).trans (if_neg hvalue)⟩

theorem xorDecode_looksNoFurther : LooksNoFurther DU.xorDecode := by
  intro d d1 r h
  rcases xorDecode_cases d with ⟨i, hfetch, hx⟩ | ⟨e, -, hx⟩ <;> rw [hx] at h
  · obtain ⟨hrpos, hsrc, hexec⟩ := execute_with_src h
    refine ⟨by omega, hsrc, fun src hsame => ?_⟩
    have hfetch' := fetchCode_with_src hfetch (hrpos ▸ hsame)
    calc { d with src := src }.xorDecode
      _ = { d with src := src }.execute i := by simp only [DU.xorDecode, hfetch']
      _ = _ := hexec src hsame.1
  · cases h

theorem decimalMode_looksNoFurther (b : BitVec 4) : LooksNoFurther fun d => d.decimalMode b := by
  intro d d1 r h
  dsimp only at h ⊢
  rcases decimalMode_cases d b with ⟨f, -, hm⟩ | ⟨d', hx, hm⟩ | ⟨p, d', hx, ⟨v, hv, hm⟩ | ⟨-, hm⟩⟩ <;>
    rw [hm] at h <;> cases h
  · obtain ⟨hrpos, hsrc, hsame⟩ := xorDecode_looksNoFurther hx
    exact ⟨hrpos, hsrc, fun src hup => by simp only [DU.decimalMode, hsame src hup]⟩
  · obtain ⟨hrpos, hsrc, hsame⟩ := xorDecode_looksNoFurther hx
    exact ⟨hrpos, hsrc, fun src hup => by simp only [DU.decimalMode, hsame src hup, hv]⟩

/-- A mark that stands whole in the source, then a decode behind it (R170, R196). -/
def DU.afterMark (decode : DU → Except TerminalFault (Decoded × DU)) (i : Instr) (d : DU) :
    Except TerminalFault (Decoded × DU) :=
  if 8 * d.len < d.rpos + d.lengthOf i then .error .streamError else decode (d.advance (d.lengthOf i))

theorem runMode_orchRaw (d : DU) : d.runMode .orchRaw = d.afterMark DU.xorDecode .orchRaw := rfl

theorem runMode_orchDec (d : DU) (b : BitVec 4) :
    d.runMode (.orchDec b) = d.afterMark (fun d => d.decimalMode b) (.orchDec b) := rfl

/-- The mark moves the cursor past itself, and the decode behind it looks no further than the cursor it leaves. -/
theorem afterMark_with_src {decode : DU → Except TerminalFault (Decoded × DU)} (hdecode : LooksNoFurther decode)
    {d d1 : DU} {i : Instr} {r : Decoded} (h : d.afterMark decode i = .ok (r, d1)) :
    d.rpos + d.lengthOf i ≤ d1.rpos ∧ d1.src = d.src ∧
      ∀ src, SameUpTo d1.rpos src d.src → { d with src := src }.afterMark decode i = .ok (r, { d1 with src := src }) := by
  unfold DU.afterMark at h
  split at h
  · cases h
  · obtain ⟨hrpos, hsrc, hsame⟩ := hdecode h
    refine ⟨hrpos, hsrc, fun src hup => ?_⟩
    have hfits : ¬ 8 * src.length < d.rpos + d.lengthOf i := Nat.not_lt.mpr (Nat.le_trans hrpos hup.1)
    exact (if_neg hfits).trans (hsame src hup)

theorem runMode_with_src {d d1 : DU} {i : Instr} {r : Decoded} (hmark : IsModeMark i)
    (h : d.runMode i = .ok (r, d1)) :
    d.rpos + d.lengthOf i ≤ d1.rpos ∧ d1.src = d.src ∧
      ∀ src, SameUpTo d1.rpos src d.src → { d with src := src }.runMode i = .ok (r, { d1 with src := src }) := by
  rcases hmark with rfl | ⟨b, rfl⟩
  · simp only [runMode_orchRaw] at h ⊢
    exact afterMark_with_src xorDecode_looksNoFurther h
  · simp only [runMode_orchDec] at h ⊢
    exact afterMark_with_src (decimalMode_looksNoFurther b) h

theorem orchDecode_looksNoFurther : LooksNoFurther DU.orchDecode := by
  intro d d1 r h
  rcases orchDecode_cases d with ⟨e, -, ho⟩ | ⟨i, rest, hmode, ho⟩ <;> rw [ho] at h
  · cases h
  · obtain ⟨hmark, hstream⟩ := decodeMode_ok_inv hmode
    obtain ⟨hrpos, hsrc, hsame⟩ := runMode_with_src hmark h
    refine ⟨by omega, hsrc, fun src hup => ?_⟩
    obtain ⟨rest', hstream'⟩ := stream_with_src (hstream d.cfg.leadCode d.session.lead d.session.trail)
      (hup.mono (by rwa [codeBits_length]))
    have hmode' : decodeMode { d with src := src }.stream = .ok (i, rest') :=
      hstream' ▸ decodeMode_codeBits hmark _ _ _ rest'
    calc { d with src := src }.orchDecode
      _ = { d with src := src }.runMode i := by simp only [DU.orchDecode, hmode']
      _ = _ := hsame src hup

/-- Decoding over and over looks no further than the cursor it leaves, when one decode does not. -/
theorem decodesTo_with_src {decode : DU → Except TerminalFault (Decoded × DU)} (hdecode : LooksNoFurther decode)
    {d d' : DU} {vs : List U64} (h : DecodesTo decode d vs d') :
    d.rpos ≤ d'.rpos ∧
      ∀ src, SameUpTo d'.rpos src d.src → DecodesTo decode { d with src := src } vs { d' with src := src } := by
  induction h with
  | eos h =>
    obtain ⟨hrpos, -, hsame⟩ := hdecode h
    exact ⟨hrpos, fun src hup => .eos (hsame src hup)⟩
  | value h _ ih =>
    obtain ⟨hrpos, hsrc, hsame⟩ := hdecode h
    obtain ⟨hrest, hsameRest⟩ := ih
    exact ⟨Nat.le_trans hrpos hrest, fun src hup => .value (hsame src (hup.mono hrest)) (hsameRest src (hsrc ▸ hup))⟩

/-- Settles O60: a decode looks no further than the cursor it leaves, at either level. -/
theorem bitsAfterTheSentinelAreIgnored : Obligations.BitsAfterTheSentinelAreIgnored := by
  intro d d' vs src hlen htake
  exact ⟨fun h => (decodesTo_with_src xorDecode_looksNoFurther h).2 src ⟨hlen, htake⟩,
    fun h => (decodesTo_with_src orchDecode_looksNoFurther h).2 src ⟨hlen, htake⟩⟩

end Sys2Proof.Machine
end

section
/-! PROOFS. The BitStream primitives: what PutBits appends, what GetBits reads, that split and fused accesses are one stream,
and where Flush ends (spec/40_bitstream.md R90 to R94). -/

namespace Sys2Proof.Machine

/-! ### Split and fused writes (R94) -/

/-- A field's low bits are all that writing it looks at. -/
theorem writeField_congr {v w : Nat} : ∀ {n : Nat} (m : Memory) (p : Nat),
    (∀ j < n, v.testBit j = w.testBit j) → m.writeField p v n = m.writeField p w n
  | 0, _, _, _ => rfl
  | n + 1, m, p, h => by
      simp only [Memory.writeField, h n (Nat.lt_succ_self n)]
      exact writeField_congr _ _ fun j hj => h j (Nat.lt_succ_of_lt hj)

/-- Bit j of two fields side by side is a bit of the lower field, or of the upper one. -/
theorem testBit_fused {n b : Nat} (hb : b < 2 ^ n) (a j : Nat) :
    (a * 2 ^ n + b).testBit j = if j < n then b.testBit j else a.testBit (j - n) := by
  rw [Nat.mul_comm, Nat.testBit_two_pow_mul_add a hb]

/-- Writing two fields side by side is writing one and then the other (R94). -/
theorem writeField_fused {a b n : Nat} (hb : b < 2 ^ n) : ∀ (k : Nat) (m : Memory) (p : Nat),
    m.writeField p (a * 2 ^ n + b) (k + n) = (m.writeField p a k).writeField (p + k) b n
  | 0, m, p => by
      rw [Nat.zero_add]
      exact writeField_congr m p fun j hj => by rw [testBit_fused hb, if_pos hj]
  | k + 1, m, p => by
      have hbit : (a * 2 ^ n + b).testBit (k + n) = a.testBit k := by
        rw [testBit_fused hb, if_neg (by omega), Nat.add_sub_cancel]
      rw [Nat.add_right_comm k 1 n, ← Nat.add_assoc p, Nat.add_right_comm p k 1]
      simp only [Memory.writeField, hbit]
      exact writeField_fused hb k _ _

/-- Where the first field fits, the second PutBits ends as the fused one does, overflow included (R94). -/
theorem putBits_fused {c c1 : CU} {a b m n : Nat} (hb : b < 2 ^ n) (hfirst : c.putBits a m = .ok c1) :
    c1.putBits b n = c.putBits (a * 2 ^ n + b) (m + n) := by
  obtain ⟨-, rfl⟩ := putBits_ok_iff.mp hfirst
  simp only [CU.putBits, CU.bufBytes, writeField_fused hb, Nat.add_assoc]

theorem putFields_fused {b n : Nat} (hb : b < 2 ^ n) (c : CU) (a m : Nat) :
    c.putFields [⟨a, m⟩, ⟨b, n⟩] = c.putBits (a * 2 ^ n + b) (m + n) := by
  rcases hfirst : c.putBits a m with f | c1
  · obtain ⟨hover, rfl⟩ := putBits_error_iff.mp hfirst
    simp only [CU.putFields, hfirst]
    exact (putBits_error_iff.mpr ⟨by omega, rfl⟩).symm
  · simp only [CU.putFields, hfirst, putBits_fused hb hfirst]
    cases c.putBits (a * 2 ^ n + b) (m + n) <;> rfl

/-! ### The bits of the source (R41) -/

theorem byteBits_getElem? (b : Byte) {i : Nat} (hi : i < 8) : (byteBits b)[i]? = some (b.getLsbD (7 - i)) :=
  natBits_getElem? 8 b.toNat i hi

/-- Bit p of a byte string is bit `7 - p mod 8` of byte `p / 8`; there is none behind its last byte. -/
theorem bytesBits_getElem? : ∀ (bs : List Byte) (p : Nat),
    (bytesBits bs)[p]? = bs[p / 8]?.map fun b => b.getLsbD (7 - p % 8)
  | [], _ => rfl
  | b :: bs, p => by
      show (byteBits b ++ bytesBits bs)[p]? = _
      by_cases hp : p < 8
      · rw [List.getElem?_append_left (by simpa using hp), byteBits_getElem? b hp, Nat.div_eq_of_lt hp,
          Nat.mod_eq_of_lt hp]
        rfl
      · obtain ⟨q, rfl⟩ := Nat.exists_eq_add_of_le' (Nat.le_of_not_lt hp)
        rw [List.getElem?_append_right (by simp), byteBits_length, Nat.add_sub_cancel, bytesBits_getElem? bs q,
          Nat.add_mod_right, Nat.add_div_right q (by decide)]
        rfl

theorem stream_advance (d : DU) (n : Nat) : (d.advance n).stream = d.stream.drop n :=
  List.drop_drop.symm

/-- A number read from bits has them, the first of them the most significant (R42). -/
theorem bitsToNat_testBit (xs : List Bool) {i : Nat} (hi : i < xs.length) :
    some ((bitsToNat xs).testBit (xs.length - 1 - i)) = xs[i]? := by
  rw [← natBits_getElem? _ _ i hi, natBits_bitsToNat]

/-! ### Reading (R91, R94) -/

section
variable {d d' : DU} {n r : Nat}

theorem take_stream_length (hroom : d.rpos + n ≤ 8 * d.len) : (d.stream.take n).length = n := by
  rw [List.length_take, stream_length]
  omega

theorem getBits_lt (h : d.getBits n = .ok (r, d')) : r < 2 ^ n := by
  obtain ⟨hroom, rfl, -⟩ := getBits_ok_iff.mp h
  calc bitsToNat (d.stream.take n)
    _ < 2 ^ (d.stream.take n).length := bitsToNat_lt _
    _ = 2 ^ n := by rw [take_stream_length hroom]

/-- Each bit of what GetBits answers stands in its byte of the source (R41, R42, R91). -/
theorem getBits_testBit (h : d.getBits n = .ok (r, d')) {i : Nat} (hi : i < n) :
    (d.src[(d.rpos + i) / 8]?).map (fun b => b.getLsbD (7 - (d.rpos + i) % 8)) = some (r.testBit (n - 1 - i)) := by
  obtain ⟨hroom, rfl, -⟩ := getBits_ok_iff.mp h
  have hlen := take_stream_length hroom
  calc (d.src[(d.rpos + i) / 8]?).map (fun b => b.getLsbD (7 - (d.rpos + i) % 8))
    _ = (bytesBits d.src)[d.rpos + i]? := (bytesBits_getElem? _ _).symm
    _ = (d.stream.take n)[i]? := by rw [List.getElem?_take_of_lt hi, DU.stream, List.getElem?_drop]
    _ = some ((bitsToNat (d.stream.take n)).testBit (n - 1 - i)) := by
      rw [← bitsToNat_testBit _ (hlen.symm ▸ hi), hlen]

/-- One read is two reads of its halves (R94). -/
theorem getBits_split {m : Nat} (h : d.getBits (m + n) = .ok (r, d')) :
    ∃ a b d1, d.getBits m = .ok (a, d1) ∧ d1.getBits n = .ok (b, d') ∧ r = a * 2 ^ n + b := by
  obtain ⟨hroom, rfl, rfl⟩ := getBits_ok_iff.mp h
  have hfirst : d.rpos + m ≤ 8 * d.len := by omega
  have hsecond : (d.advance m).rpos + n ≤ 8 * (d.advance m).len := by
    simp only [advance_rpos, advance_len]
    omega
  refine ⟨_, _, _, getBits_ok_iff.mpr ⟨hfirst, rfl, rfl⟩, getBits_ok_iff.mpr ⟨hsecond, rfl, ?_⟩, ?_⟩
  · simp only [DU.advance, Nat.add_assoc]
  · calc bitsToNat (d.stream.take (m + n))
      _ = bitsToNat (d.stream.take m ++ (d.advance m).stream.take n) := by rw [List.take_add, stream_advance]
      _ = _ := by rw [bitsToNat_append, take_stream_length hsecond]

end

/-! ### The primitives as instructions (log 11) -/

section
variable {s : State}

section
variable {c : CU} (hu : s.unit? = some (.cu c))
include hu

theorem execPutBitsCommand_cu (v : U64) (n : BitVec 7) :
    exec (.putBitsCommand v n) s = s.putBitsOn c v.toNat n.toNat :=
  onCU_cu hu _

/-- On an open unit and with an operand that has its width, PutBits does what the PUTBITS command does (R90, R103). -/
theorem execPutBits_eq_putBitsOn (hphase : c.phase = .opened) {v : U64} {n : BitVec 7} (hn : n.toNat ≤ 64)
    (hv : v.toNat < 2 ^ n.toNat) : exec (.putBits v n) s = s.putBitsOn c v.toNat n.toNat := by
  rcases hput : c.putBits v.toNat n.toNat with f | c'
  · simp only [exec, execPutBits, State.putBitsOn, hu, if_pos hphase, if_pos (And.intro hn hv), hput]
  · simp only [exec, execPutBits, State.putBitsOn, hu, if_pos hphase, if_pos (And.intro hn hv), hput]

theorem execFlush_open (hphase : c.phase = .opened) :
    exec .flush s = .next (s.answer (.cu c.flush) .ok (.bits (padBits c.wpos))) := by
  simp only [exec, execFlush, hu, if_pos hphase]

end

section
variable {c : CU} {v n : Nat} (hphase : c.phase = .opened) (hn : n ≤ 64) (hv : v < 2 ^ n)
include hphase hn hv

theorem putBitsOn_ok {c' : CU} (h : c.putBits v n = .ok c') :
    s.putBitsOn c v n = .next (s.answer (.cu c') .ok .none) := by
  simp only [State.putBitsOn, if_pos hphase, if_pos (And.intro hn hv), h]

theorem putBitsOn_error {f : TerminalFault} (h : c.putBits v n = .error f) :
    s.putBitsOn c v n = .next (s.raise (.cu c) f) := by
  simp only [State.putBitsOn, if_pos hphase, if_pos (And.intro hn hv), h]

end

section
variable {d : DU} {n : BitVec 7} (hu : s.unit? = some (.du d)) (hready : d.ready = true) (hn : n.toNat ≤ 64)
include hu hready hn

theorem execGetBits_ok {d' : DU} {r : Nat} (h : d.getBits n.toNat = .ok (r, d')) :
    exec (.getBits n) s = .next (s.answer (.du d') .ok (.value (BitVec.ofNat 64 r))) := by
  simp only [exec, execGetBits, hu, if_pos hready, if_pos hn, h]

theorem execGetBits_error {f : TerminalFault} (h : d.getBits n.toNat = .error f) :
    exec (.getBits n) s = .next (s.raise (.du d) f) := by
  simp only [exec, execGetBits, hu, if_pos hready, if_pos hn, h]

end
end

/-- Settles O18: both instructions are PUTBITS on the unit, which appends its field where it fits. -/
theorem putBitsAppendsItsFieldOrOverflows : Obligations.PutBitsAppendsItsFieldOrOverflows := by
  intro s c v n hu hphase hn hv
  rw [execPutBits_eq_putBitsOn hu hphase hn hv, execPutBitsCommand_cu hu]
  constructor
  · intro hwf hroom
    have hput : c.putBits v.toNat n.toNat = .ok _ := putBits_ok_iff.mpr ⟨hroom, rfl⟩
    have hok := putBitsOn_ok (s := s) hphase hn hv hput
    exact ⟨_, hok, hok, rfl, putBits_appended hwf hput, writeField_wf hwf⟩
  · intro hover
    have herror := putBitsOn_error (s := s) hphase hn hv (putBits_error_iff.mpr ⟨hover, rfl⟩)
    exact ⟨herror, herror⟩

/-- Settles O19: a fused field is written as its two halves are, and read as them. -/
theorem splitAndFusedAccessesAreOneStream : Obligations.SplitAndFusedAccessesAreOneStream := by
  refine ⟨fun c a b m n _ _ hb => putFields_fused hb c a m, fun d d' m n r _ h => ?_⟩
  obtain ⟨a, b, d1, hfirst, hsecond, hr⟩ := getBits_split h
  exact ⟨a, b, d1, hfirst, hsecond, hr, getBits_lt hsecond⟩

/-- Settles O20: the instruction answers what GetBits answers, and its bits stand in the source. -/
theorem getBitsReadsTheSourceBitsOrFaults : Obligations.GetBitsReadsTheSourceBitsOrFaults := by
  intro s d n hu hready hn
  constructor
  · intro hroom
    have hget : d.getBits n.toNat = .ok (_, d.advance n.toNat) := getBits_ok_iff.mpr ⟨hroom, rfl, rfl⟩
    exact ⟨_, execGetBits_ok hu hready hn hget, getBits_lt hget, fun i hi => getBits_testBit hget hi⟩
  · intro hover
    exact execGetBits_error hu hready hn (getBits_error_iff.mpr ⟨hover, rfl⟩)

/-- Settles O21: the pad ends at the next whole byte, and a buffer ends at a whole byte too. -/
theorem flushPadsToAWholeByte : Obligations.FlushPadsToAWholeByte := by
  intro s c hu hphase
  obtain ⟨hlt, hwhole⟩ := padBits_spec c.wpos
  exact ⟨padBits c.wpos, rfl, execFlush_open hu hphase, hwhole, hlt, by omega⟩

end Sys2Proof.Machine
end

section
/-! PROOFS. The commands of a compressor unit, one by one: what ADDVALUE and CLOSE append and leave, what REFRESH restores, what
GETBUF answers (spec/41_compressor_contract.md R100 to R105, 44_decompressor_contract.md R139). -/

namespace Sys2Proof.Machine

/-! ### ADDVALUE and CLOSE (R100, R101) -/

section
variable {c : CU}

/-- Appending a value whose code fits appends that code's bits and leaves the session that the code leaves (R100). -/
theorem append_of_fits {v : U64} (hwf : c.buf.WF)
    (hroom : c.wpos + c.lengthOf (c.chosen v) ≤ 8 * c.bufBytes) :
    ∃ c', c.append v = .ok (c', c.lengthOf (c.chosen v)) ∧
      c' = { c with
        session := { codeNext (c.chosen v) c.session with storedVal := v }, wpos := c'.wpos, buf := c'.buf } ∧
      c.Appended c' (c.bitsOf (c.chosen v)) ∧ c'.buf.WF := by
  rw [append_eq_emit, with_storedVal_eq (chosen_legal c v).2]
  exact emit_of_fits hwf hroom

/-- The field 0 is zero bits (R42). -/
theorem natBits_zero_eq_replicate : ∀ n : Nat, natBits n 0 = List.replicate n false
  | 0 => rfl
  | n + 1 => by rw [natBits, natBits_zero_eq_replicate n, Nat.zero_testBit, List.replicate_succ]

/-- Closing a block whose sentinel code and guard bits fit appends them and pads; the count leaves the pad out (R101, R104). -/
theorem closeBlock_of_fits (hwf : c.buf.WF)
    (hroom : c.wpos + c.lengthOf (c.chosen c.cfg.endSign) + c.cfg.guardBits ≤ 8 * c.bufBytes) :
    ∃ c1, c.Appended c1 (c.bitsOf (c.chosen c.cfg.endSign) ++ List.replicate c.cfg.guardBits false) ∧ c1.buf.WF ∧
      c.closeBlock = .ok ({ c with
        session := { codeNext (c.chosen c.cfg.endSign) c.session with storedVal := c.cfg.endSign }
        phase := .closed
        wpos := c1.wpos + padBits c1.wpos
        buf := c1.buf }, c.lengthOf (c.chosen c.cfg.endSign) + c.cfg.guardBits) := by
  obtain ⟨c1, happend, hc1, hcode, hwf1⟩ := append_of_fits hwf (Nat.le_trans (Nat.le_add_right _ _) hroom)
  have hguardRoom : c1.wpos + c.cfg.guardBits ≤ 8 * c1.bufBytes := by
    have hcfg : c1.bufBytes = c.bufBytes := by rw [CU.bufBytes, append_cfg happend, CU.bufBytes]
    rw [hcode.cursor, bitsOf_length, hcfg]
    exact hroom
  have hguard := putBits_ok_iff (v := 0).mpr ⟨hguardRoom, rfl⟩
  refine ⟨_, appended_trans hcode (natBits_zero_eq_replicate _ ▸ putBits_appended hwf1 hguard),
    writeField_wf hwf1, ?_⟩
  simp only [CU.closeBlock, happend, hguard]
  rw [hc1]
  rfl

variable {s : State} (hu : s.unit? = some (.cu c))
include hu

theorem execAddValue_open (hphase : c.phase = .opened) (v : U64) :
    exec (.addValue v) s = s.finishBits c (c.append v) :=
  (onCU_cu hu _).trans (if_pos hphase)

theorem execClose_open (hphase : c.phase = .opened) : exec .close s = s.finishBits c c.closeBlock :=
  (onCU_cu hu _).trans (if_pos hphase)

/-! ### GETBUF (R105) -/

theorem execGetBuf_notClosed (hphase : c.phase ≠ .closed) : exec .getBuf s = .next (s.refuse (.cu c)) :=
  (onCU_cu hu _).trans (if_neg hphase)

theorem execGetBuf_closed (hphase : c.phase = .closed) {b : List Byte} (hread : c.memRead 0 (c.wpos / 8) = some b) :
    exec .getBuf s = .next (s.answer (.cu c) .ok (.bytes b)) :=
  calc exec .getBuf s
    _ = _ := onCU_cu hu _
    _ = .next (s.answer (.cu c) .ok (.bytes b)) := by rw [if_pos hphase, hread]

/-- GETBUF goes on to a next state in two ways: it is refused, or the unit is closed and its bytes are answered. -/
theorem execGetBuf_next {t : State} (h : exec .getBuf s = .next t) :
    (c.phase ≠ .closed ∧ t = s.refuse (.cu c)) ∨
      (c.phase = .closed ∧ ∃ b, c.memRead 0 (c.wpos / 8) = some b ∧ t = s.answer (.cu c) .ok (.bytes b)) := by
  by_cases hphase : c.phase = .closed
  · rcases hread : c.memRead 0 (c.wpos / 8) with _ | b
    · have hpast : c.bufBytes < c.wpos / 8 := Nat.lt_of_not_le fun hle => by simp [CU.memRead, hle] at hread
      cases (execGetBuf_outside hu hphase hpast).symm.trans h
    · cases (execGetBuf_closed hu hphase hread).symm.trans h
      exact .inr ⟨hphase, b, rfl, rfl⟩
  · cases (execGetBuf_notClosed hu hphase).symm.trans h
    exact .inl ⟨hphase, rfl⟩

/-- Answering for the unit as it is changes nothing but the responses (R86). -/
theorem answer_same (st : Status) (r : Result) :
    s.answer (.cu c) st r = { s with out := ⟨s.sel, st, c.statusWord, r⟩ :: s.out } := by
  obtain ⟨hlt, hget⟩ := List.getElem?_eq_some_iff.mp hu
  rw [State.answer, ← hget, List.set_getElem_self, hget]
  rfl

end

/-- Settles O22: ADDVALUE appends the value, whose code fits. -/
theorem addValueAppendsTheChosenCode : Obligations.AddValueAppendsTheChosenCode := by
  rintro s c v i hu hphase hwf rfl hroom
  obtain ⟨c', happend, hrest⟩ := append_of_fits hwf hroom
  refine ⟨c', ?_, hrest⟩
  rw [execAddValue_open hu hphase, happend]
  rfl

/-- Settles O26: CLOSE closes the block, whose sentinel code and guard bits fit. -/
theorem closeEndsTheBlock : Obligations.CloseEndsTheBlock := by
  rintro s c i hu hphase hwf rfl hroom
  obtain ⟨c1, happended, hwf1, hclose⟩ := closeBlock_of_fits hwf hroom
  refine ⟨c1, _, happended, hwf1, rfl, ?_⟩
  rw [execClose_open hu hphase, hclose]
  rfl

/-- Settles O27: REFRESH has no condition on the unit of its kind. -/
theorem refreshRestoresTheSession : Obligations.RefreshRestoresTheSession :=
  ⟨fun _ _ hu => onCU_cu hu _, fun _ _ hu => onDU_du hu _⟩

/-- Settles O28: the bytes below the cursor lie in the buffer, and answering them leaves the unit as it is. -/
theorem getBufReturnsTheBlock : Obligations.GetBufReturnsTheBlock := by
  intro s c hu
  refine ⟨fun hphase hcursor => ?_, execGetBuf_notClosed hu⟩
  have hread : c.memRead 0 (c.wpos / 8) = some ((List.range (c.wpos / 8)).map fun a => c.buf.read a) :=
    memRead_eq_some_iff.mpr ⟨by omega, by simp only [Nat.zero_add]⟩
  rw [execGetBuf_closed hu hphase hread, answer_same hu]

end Sys2Proof.Machine
end

section
/-! PROOFS. Scripts of commands to a compressor unit: the block a unit answers with depends on the operands alone, and a
refreshed unit answers like a fresh one (spec/41_compressor_contract.md R106, R107). Both compare two engines that run one
script in lockstep. -/

namespace Sys2Proof.Machine

/-! ### Running a script (R8, R85) -/

/-- A run that reaches its end has taken its first step (R8). -/
theorem core_run_succ {M : Host.Core} {k : Nat} {s s' : M.State} (h : M.run (k + 1) s = .next s') :
    ∃ t, M.step s = .next t ∧ M.run k t = .next s' := by
  unfold Host.Core.run at h
  split at h
  next t hstep => exact ⟨t, hstep, h⟩
  · cases h
  · cases h

section
variable {s s' t : State} {j : Nat} {c : CU} {i : Instr}

/-- A command to a compressor unit leaves a compressor unit with the same parameters, and gives one response more. -/
theorem exec_take_frame {es : List HostEvent} (hc : s.units[j]? = some (.cu c)) (h : exec i (s.take j es) = .next t) :
    t.pending = es ∧
      ∃ c' st r, t.units[j]? = some (.cu c') ∧ c'.cfg = c.cfg ∧ t.out = ⟨j, st, c'.statusWord, r⟩ :: s.out := by
  have hresponds : Responds (s.take j es) (.next t) := h ▸ exec_responds i _
  obtain ⟨hpending, hsel, -, -, -, u, w, st, r, hu, hw, hsame, hout⟩ := hresponds.frame
  rw [State.unit?, hsel] at hw
  obtain rfl : u = .cu c := Option.some.inj (hu.symm.trans hc)
  cases w with
  | cu c' => exact ⟨hpending, c', st, r, hw, hsame, hout⟩
  | du d => exact hsame.elim

theorem runScript_nil (h : s.runScript (script j []) = .next s') : s'.out = s.out := by
  cases h
  rfl

theorem runScript_of_pending {es : List HostEvent} (h : s.pending = es) :
    s.runScript es = Sys2Proof.core.run es.length s := by
  subst h
  rfl

/-- A script that runs to its end runs its first command, and then the rest of the script. -/
theorem runScript_cons {is : List Instr} (hc : s.units[j]? = some (.cu c)) (hi : i.commandUnit = some .cu)
    (h : s.runScript (script j (i :: is)) = .next s') :
    ∃ t, exec i (s.take j (script j is)) = .next t ∧ t.runScript (script j is) = .next s' := by
  obtain ⟨cmd, hencode, rfl, hdecode⟩ := hostCommandsDecodeToThemselves j i .cu hi
  have hscript : script cmd.unit (i :: is) = .command cmd :: script cmd.unit is := by
    simp only [script, List.flatMap_cons, hostCommand, hencode, List.singleton_append]
  rw [hscript] at h
  obtain ⟨t, hstep, hrun⟩ := core_run_succ h
  have hexec : exec i (s.take cmd.unit (script cmd.unit is)) = .next t :=
    (runCommand_ok (s := s.take cmd.unit _) hc hdecode).symm.trans hstep
  obtain ⟨hpending, -⟩ := exec_take_frame hc hexec
  exact ⟨t, hexec, (runScript_of_pending hpending).trans hrun⟩

/-- Commands that run before the rest of a script leave the compressor unit its parameters (R6). -/
theorem runScript_append {rest : List Instr} : ∀ {is : List Instr} {s : State} {c : CU}, s.units[j]? = some (.cu c) →
    (∀ i ∈ is, i.commandUnit = some .cu) → s.runScript (script j (is ++ rest)) = .next s' →
      ∃ (t : State) (c' : CU), t.units[j]? = some (.cu c') ∧ c'.cfg = c.cfg ∧ t.runScript (script j rest) = .next s'
  | [], s, c, hc, _, h => ⟨s, c, hc, rfl, h⟩
  | i :: is, s, c, hc, his, h => by
      obtain ⟨t1, hexec, h1⟩ := runScript_cons hc (his i List.mem_cons_self) h
      obtain ⟨-, c1, -, -, hc1, hcfg1, -⟩ := exec_take_frame hc hexec
      obtain ⟨t, c', ht, hcfg, hrest⟩ := runScript_append hc1 (fun i hi => his i (List.mem_cons_of_mem _ hi)) h1
      exact ⟨t, c', ht, hcfg.trans hcfg1, hrest⟩

/-- After REFRESH the rest of a script runs on a unit as reset leaves it (R102). -/
theorem runScript_refresh {is : List Instr} (hc : s.units[j]? = some (.cu c))
    (h : s.runScript (script j (.refreshCU :: is)) = .next s') :
    ∃ t : State, t.units[j]? = some (.cu (.reset c.cfg)) ∧ t.runScript (script j is) = .next s' := by
  obtain ⟨t, hexec, hrest⟩ := runScript_cons hc rfl h
  cases (onCU_cu (s := s.take j _) hc _).symm.trans hexec
  exact ⟨_, answer_unit? (s := s.take j _) hc, hrest⟩

end

/-! ### The commands within a block -/

/-- The commands of a compressor unit that leave it in its block: all but REFRESH. -/
inductive WithinBlock : Instr → Prop where
  | addValue (v : U64) : WithinBlock (.addValue v)
  | close : WithinBlock .close
  | putBitsCommand (v : U64) (n : BitVec 7) : WithinBlock (.putBitsCommand v n)
  | getBuf : WithinBlock .getBuf

theorem WithinBlock.commandUnit {i : Instr} (hi : WithinBlock i) : i.commandUnit = some .cu := by
  cases hi <;> rfl

/-- The unit that a command within a block leaves if it is accepted and takes no fault (R100, R101, R103, R105). -/
inductive CU.Accepts (c : CU) : Instr → CU → Prop where
  | addValue {v : U64} {c1 : CU} {n : Nat} : c.append v = .ok (c1, n) → c.Accepts (.addValue v) c1
  | close {c1 : CU} {n : Nat} : c.closeBlock = .ok (c1, n) → c.Accepts .close c1
  | putBitsCommand {v : U64} {n : BitVec 7} {c1 : CU} :
      c.putBits v.toNat n.toNat = .ok c1 → c.Accepts (.putBitsCommand v n) c1
  | getBuf : c.Accepts .getBuf c

section
variable {s t : State} {c c1 : CU} {i : Instr} (hu : s.unit? = some (.cu c))
include hu

/-- In phase FAULT every command within a block is refused (R204). -/
theorem exec_faulted (hi : WithinBlock i) (hphase : c.phase = .faulted) : exec i s = .next (s.refuse (.cu c)) := by
  have hopened : c.phase ≠ .opened := by simp [hphase]
  cases hi with
  | addValue | close | putBitsCommand => exact (onCU_cu hu _).trans (if_neg hopened)
  | getBuf => exact execGetBuf_notClosed hu (by simp [hphase])

/-- ADDVALUE and CLOSE: refused unless the unit is open, then what they append, or a fault. -/
theorem finishBits_accepts {p : Except TerminalFault (CU × Nat)} (hunit : t.units[s.sel]? = some (.cu c1))
    (h : (if c.phase = .opened then s.finishBits c p else .next (s.refuse (.cu c))) = .next t)
    (hp : ∀ n, p = .ok (c1, n) → c.Accepts i c1) :
    (c.phase ≠ .opened ∧ c1 = c) ∨ (c.phase = .opened ∧ c.Accepts i c1) ∨ c1.phase = .faulted := by
  by_cases hphase : c.phase = .opened
  · rw [if_pos hphase] at h
    rcases finishBits_cases s c p with ⟨c', n, rfl, hf⟩ | ⟨f, -, hf⟩ <;> rw [hf] at h <;> cases h
    · cases (answer_unit? hu).symm.trans hunit
      exact .inr (.inl ⟨hphase, hp n rfl⟩)
    · cases (answer_unit? (st := .fault) (r := .none) hu).symm.trans hunit
      exact .inr (.inr rfl)
  · rw [if_neg hphase] at h
    cases h
    cases hu.symm.trans hunit
    exact .inl ⟨hphase, rfl⟩

/-- Everything a command within a block can leave: the unit as it is where R197 refuses it, else the unit it makes, or a
fault. -/
theorem exec_withinBlock (hi : WithinBlock i) (h : exec i s = .next t) (hunit : t.units[s.sel]? = some (.cu c1)) :
    (i.refusedOn (.cu c) = true ∧ c1 = c) ∨ (i.refusedOn (.cu c) = false ∧ c.Accepts i c1) ∨ c1.phase = .faulted := by
  cases hi with
  | addValue v =>
    simpa only [Instr.refusedOn, decide_eq_true_eq, decide_eq_false_iff_not, not_not] using
      finishBits_accepts hu hunit ((onCU_cu hu _).symm.trans h) fun _ => .addValue
  | close =>
    simpa only [Instr.refusedOn, decide_eq_true_eq, decide_eq_false_iff_not, not_not] using
      finishBits_accepts hu hunit ((onCU_cu hu _).symm.trans h) fun _ => .close
  | putBitsCommand v n =>
    rw [execPutBitsCommand_cu hu] at h
    rcases putBitsOn_cases s c v.toNat n.toNat with ⟨hrefuse, hp⟩ | ⟨hphase, hn, hv, ⟨c', hput, hp⟩ | ⟨-, hp⟩⟩ <;>
      rw [hp] at h <;> cases h
    · cases hu.symm.trans hunit
      exact .inl ⟨by simpa [Instr.refusedOn, imp_iff_not_or, or_assoc] using hrefuse, rfl⟩
    · cases (answer_unit? hu).symm.trans hunit
      exact .inr (.inl ⟨by simp [Instr.refusedOn, hphase, hn, hv], .putBitsCommand hput⟩)
    · cases (answer_unit? (st := .fault) (r := .none) hu).symm.trans hunit
      exact .inr (.inr rfl)
  | getBuf =>
    rcases execGetBuf_next hu h with ⟨hphase, rfl⟩ | ⟨hphase, b, -, rfl⟩
    · cases hu.symm.trans hunit
      exact .inl ⟨by simp [Instr.refusedOn, hphase], rfl⟩
    · cases (answer_unit? hu).symm.trans hunit
      exact .inr (.inl ⟨by simp [Instr.refusedOn, hphase], .getBuf⟩)

end

/-! ### Two engines in lockstep -/

/-- Two engines that both run this command, on their units j and k, keep a relation that may count the commands. -/
def KeptBy (j k : Nat) (P : Nat → State → State → Prop) (i : Instr) : Prop :=
  ∀ ⦃n s t s1 t1 es es'⦄, P n s t → exec i (s.take j es) = .next s1 → exec i (t.take k es') = .next t1 → P (n + 1) s1 t1

/-- Two engines whose compressor units j and k are related. -/
def BothHold (j k : Nat) (R : CU → CU → Prop) (s t : State) : Prop :=
  ∃ c c', s.units[j]? = some (.cu c) ∧ t.units[k]? = some (.cu c') ∧ R c c'

/-- What each command keeps, the commands that both engines run before the rest of a script keep. -/
theorem runScript_lockstep {j k : Nat} {P : Nat → State → State → Prop} {rest : List Instr} {s' t' : State}
    (hholds : ∀ {n s t}, P n s t → BothHold j k (fun _ _ => True) s t)
    (hkept : ∀ {i}, WithinBlock i → KeptBy j k P i) :
    ∀ {is : List Instr} {n : Nat} {s t : State}, (∀ i ∈ is, WithinBlock i) → P n s t →
      s.runScript (script j (is ++ rest)) = .next s' → t.runScript (script k (is ++ rest)) = .next t' →
        ∃ s1 t1, P (n + is.length) s1 t1 ∧
          s1.runScript (script j rest) = .next s' ∧ t1.runScript (script k rest) = .next t'
  | [], _, s, t, _, hP, hs, ht => ⟨s, t, hP, hs, ht⟩
  | i :: is, n, s, t, his, hP, hs, ht => by
      have hi := his i List.mem_cons_self
      obtain ⟨c, c', hc, hc', -⟩ := hholds hP
      obtain ⟨s1, hexecs, hs1⟩ := runScript_cons hc hi.commandUnit hs
      obtain ⟨t1, hexect, ht1⟩ := runScript_cons hc' hi.commandUnit ht
      rw [List.length_cons, Nat.add_comm is.length, ← Nat.add_assoc]
      exact runScript_lockstep (P := P) hholds hkept (fun i hi => his i (List.mem_cons_of_mem _ hi))
        (hkept hi hP hexecs hexect) hs1 ht1

/-! ### The same commands on a buffer of another size (R106) -/

/-- The unit with another CAPACITY and another size of its buffer. -/
def CU.resized (c : CU) (capacity bufBytes : Nat) : CU :=
  { c with cfg := { c.cfg with capacity := capacity, bufBytes := bufBytes } }

section
variable {c c1 c2 : CU} {m b : Nat}

theorem refusedOn_resized (i : Instr) : i.refusedOn (.cu (c.resized m b)) = i.refusedOn (.cu c) := by
  cases i <;> rfl

theorem putBits_resized {v n : Nat} (h : c.putBits v n = .ok c1) (h' : (c.resized m b).putBits v n = .ok c2) :
    c2 = c1.resized m b := by
  obtain ⟨-, rfl⟩ := putBits_ok_iff.mp h
  obtain ⟨-, rfl⟩ := putBits_ok_iff.mp h'
  rfl

theorem putFields_resized : ∀ {fs : List Field} {c : CU}, c.putFields fs = .ok c1 →
    (c.resized m b).putFields fs = .ok c2 → c2 = c1.resized m b
  | [], _, h, h' => by
      cases h
      cases h'
      rfl
  | f :: fs, c, h, h' => by
      simp only [CU.putFields] at h h'
      split at h
      · cases h
      next c3 h3 =>
        split at h'
        · cases h'
        next c4 h4 =>
          cases putBits_resized h3 h4
          exact putFields_resized h h'

theorem append_resized {v : U64} {k k' : Nat} (h : c.append v = .ok (c1, k))
    (h' : (c.resized m b).append v = .ok (c2, k')) : c2 = c1.resized m b := by
  rw [append_eq_emit] at h h'
  rcases emit_cases c (c.chosen v) with ⟨c3, h3, he⟩ | he <;> rw [he] at h <;> cases h
  rcases emit_cases (c.resized m b) ((c.resized m b).chosen v) with ⟨c4, h4, he'⟩ | he' <;> rw [he'] at h' <;> cases h'
  cases putFields_resized h3 h4
  rfl

theorem closeBlock_resized {k k' : Nat} (h : c.closeBlock = .ok (c1, k))
    (h' : (c.resized m b).closeBlock = .ok (c2, k')) : c2 = c1.resized m b := by
  rcases closeBlock_cases c with ⟨c3, n, c5, h3, h5, hc⟩ | hc <;> rw [hc] at h <;> cases h
  rcases closeBlock_cases (c.resized m b) with ⟨c4, n', c6, h4, h6, hc'⟩ | hc' <;> rw [hc'] at h' <;> cases h'
  cases append_resized h3 h4
  cases putBits_resized h5 h6
  rfl

/-- Only whether a command overflows depends on the size of the buffer, not what it makes of the unit. -/
theorem accepts_resized {i : Instr} (h : c.Accepts i c1) (h' : (c.resized m b).Accepts i c2) : c2 = c1.resized m b := by
  cases h with
  | addValue h =>
    obtain ⟨h'⟩ := h'
    exact append_resized h h'
  | close h =>
    obtain - | ⟨h'⟩ := h'
    exact closeBlock_resized h h'
  | putBitsCommand h =>
    obtain - | - | ⟨h'⟩ := h'
    exact putBits_resized h h'
  | getBuf =>
    cases h'
    rfl

end

/-- Two units that have written the same block into buffers of any size, unless one of them has overflowed. -/
def CU.SameBlock (c c' : CU) : Prop :=
  c.phase = .faulted ∨ c'.phase = .faulted ∨ ∃ m b, c' = c.resized m b

theorem withinBlock_keeps_sameBlock {j k : Nat} {i : Instr} (hi : WithinBlock i) :
    KeptBy j k (fun _ => BothHold j k CU.SameBlock) i := by
  rintro - s t s1 t1 es es' ⟨c, c', hc, hc', hsame⟩ hs ht
  obtain ⟨-, c1, -, -, hc1, -⟩ := exec_take_frame hc hs
  obtain ⟨-, c1', -, -, hc1', -⟩ := exec_take_frame hc' ht
  refine ⟨c1, c1', hc1, hc1', ?_⟩
  rcases hsame with hfault | hfault | ⟨m, b, rfl⟩
  · cases (exec_faulted (s := s.take j es) hc hi hfault).symm.trans hs
    cases hc.symm.trans hc1
    exact .inl hfault
  · cases (exec_faulted (s := t.take k es') hc' hi hfault).symm.trans ht
    cases hc'.symm.trans hc1'
    exact .inr (.inl hfault)
  · have hleft := exec_withinBlock (s := s.take j es) hc hi hs hc1
    have hright := exec_withinBlock (s := t.take k es') hc' hi ht hc1'
    rw [refusedOn_resized] at hright
    rcases hleft with ⟨hr, rfl⟩ | ⟨hr, ha⟩ | hfault
    · rcases hright with ⟨-, rfl⟩ | ⟨hr', -⟩ | hfault
      · exact .inr (.inr ⟨m, b, rfl⟩)
      · simp [hr] at hr'
      · exact .inr (.inl hfault)
    · rcases hright with ⟨hr', -⟩ | ⟨-, ha'⟩ | hfault
      · simp [hr] at hr'
      · exact .inr (.inr ⟨m, b, accepts_resized ha ha'⟩)
      · exact .inr (.inl hfault)
    · exact .inl hfault

section
variable {s s' : State} {j : Nat} {c : CU}

/-- A script that begins with REFRESH, or is run on a unit fresh from reset, runs its commands on a unit as reset leaves it. -/
theorem runScript_start {start is : List Instr} (hc : s.units[j]? = some (.cu c))
    (hstart : start = [.refreshCU] ∨ start = [] ∧ c = .reset c.cfg)
    (h : s.runScript (script j (start ++ is)) = .next s') :
    ∃ t : State, t.units[j]? = some (.cu (.reset c.cfg)) ∧ t.runScript (script j is) = .next s' := by
  rcases hstart with rfl | ⟨rfl, hreset⟩
  · exact runScript_refresh hc h
  · exact ⟨s, hreset ▸ hc, h⟩

/-- GETBUF answers bytes on a closed unit alone, and they are those below the cursor (R105). -/
theorem runScript_getBuf {x : Nat} {w : BitVec 8} {b : List Byte} (hc : s.units[j]? = some (.cu c))
    (h : s.runScript (script j [.getBuf]) = .next s') (hout : s'.out.head? = some ⟨x, .ok, w, .bytes b⟩) :
    c.phase = .closed ∧ b = (List.range (c.wpos / 8)).map fun i => c.buf.read (0 + i) := by
  obtain ⟨t, hexec, hrest⟩ := runScript_cons hc rfl h
  rw [runScript_nil hrest] at hout
  rcases execGetBuf_next (s := s.take j _) hc hexec with ⟨-, rfl⟩ | ⟨hphase, b, hread, rfl⟩
  · cases hout
  · cases hout
    exact ⟨hphase, (memRead_eq_some_iff.mp hread).2⟩

end

/-- Settles O57: both units are as reset leaves them, but for the size of the buffer; every command keeps that, unless one
overflows, and then its GETBUF answers no bytes. -/
theorem bytesDependOnTheOperandsAlone : Obligations.BytesDependOnTheOperandsAlone := by
  intro s t s' t' j k c c' start start' is w w' b b' hc hc' hcfg hstart hstart' his hs ht hb hb'
  obtain ⟨s0, hs0, hs⟩ := runScript_start hc hstart hs
  obtain ⟨t0, ht0, ht⟩ := runScript_start hc' hstart' ht
  have hsame : CU.SameBlock (.reset c.cfg) (.reset c'.cfg) := .inr (.inr ⟨_, _, congrArg CU.reset hcfg⟩)
  have hcommands : ∀ i ∈ is ++ [Instr.close], WithinBlock i := by
    intro i hi
    rcases List.mem_append.mp hi with hi | hi
    · obtain ⟨v, rfl⟩ | ⟨v, n, rfl⟩ := his i hi
      · exact .addValue v
      · exact .putBitsCommand v n
    · obtain rfl := List.mem_singleton.mp hi
      exact .close
  rw [List.append_cons] at hs ht
  obtain ⟨s1, t1, ⟨d, d', hd, hd', hblock⟩, hs1, ht1⟩ :=
    runScript_lockstep (P := fun _ => BothHold j k CU.SameBlock) (n := 0)
      (fun ⟨c, c', hc, hc', _⟩ => ⟨c, c', hc, hc', trivial⟩) withinBlock_keeps_sameBlock hcommands
      ⟨_, _, hs0, ht0, hsame⟩ hs ht
  obtain ⟨hclosed, hbytes⟩ := runScript_getBuf hd hs1 hb
  obtain ⟨hclosed', hbytes'⟩ := runScript_getBuf hd' ht1 hb'
  rcases hblock with hfault | hfault | ⟨m, n, rfl⟩
  · simp [hclosed] at hfault
  · simp [hclosed'] at hfault
  · exact hbytes.trans hbytes'.symm

/-! ### The same commands after another block (R107) -/

/-- Two units that answer alike until REFRESH: they are the same, or both stand in a fault, whose free values no answer shows. -/
def CU.Alike (c c' : CU) : Prop :=
  c' = c ∨ (c.phase = .faulted ∧ c'.phase = .faulted)

/-- Two engines whose last n responses show the host the same statuses and results. -/
def SameAnswers (n : Nat) (s t : State) : Prop :=
  (s.answers n).map Prod.snd = (t.answers n).map Prod.snd

theorem sameAnswers_succ {n : Nat} {s t s1 t1 : State} {x y : Response} (h : SameAnswers n s t)
    (hs : s1.out = x :: s.out) (ht : t1.out = y :: t.out) (hstatus : x.status = y.status) (hresult : x.result = y.result) :
    SameAnswers (n + 1) s1 t1 := by
  have hcons : ∀ {a b : State} {r : Response}, a.out = r :: b.out →
      (a.answers (n + 1)).map Prod.snd = (r.status, r.result) :: (b.answers n).map Prod.snd := by
    intro a b r h
    rw [State.answers, h]
    rfl
  rw [SameAnswers, hcons hs, hcons ht, hstatus, hresult, h]

/-- One reply of two engines to a command on the same unit leaves units that answer alike, and shows the host the same. -/
theorem sameReply_alike {j k : Nat} {s t s1 t1 : State} {es es' : List HostEvent} {c c1 c1' : CU}
    (hc : s.units[j]? = some (.cu c)) (hc' : t.units[k]? = some (.cu c)) (hc1 : s1.units[j]? = some (.cu c1))
    (hc1' : t1.units[k]? = some (.cu c1')) (h : SameReply (s.take j es) (t.take k es') (.next s1) (.next t1)) :
    c1.Alike c1' ∧ ∃ x y, s1.out = x :: s.out ∧ t1.out = y :: t.out ∧ x.status = y.status ∧ x.result = y.result := by
  cases h with
  | answered w st r =>
    cases (answer_unit? (s := s.take j es) hc).symm.trans hc1
    cases (answer_unit? (s := t.take k es') hc').symm.trans hc1'
    exact ⟨.inl rfl, _, _, rfl, rfl, rfl, rfl⟩
  | refused u =>
    cases hc.symm.trans hc1
    cases hc'.symm.trans hc1'
    exact ⟨.inl rfl, _, _, rfl, rfl, rfl, rfl⟩
  | raised u f =>
    have hfault := (answer_unit? (s := s.take j es) (st := .fault) (r := .none) hc).symm.trans hc1
    have hfault' := (answer_unit? (s := t.take k es') (st := .fault) (r := .none) hc').symm.trans hc1'
    cases u with
    | cu d =>
      cases hfault
      cases hfault'
      exact ⟨.inr ⟨rfl, rfl⟩, _, _, rfl, rfl, rfl, rfl⟩
    | du d => cases hfault

theorem withinBlock_keeps_alike {j k : Nat} {i : Instr} (hi : WithinBlock i) :
    KeptBy j k (fun n s t => BothHold j k CU.Alike s t ∧ SameAnswers n s t) i := by
  rintro n s t s1 t1 es es' ⟨⟨c, c', hc, hc', halike⟩, hanswers⟩ hs ht
  rcases halike with rfl | ⟨hfault, hfault'⟩
  · have hreply := exec_same (s := s.take j es) (t := t.take k es') (hc.trans hc'.symm) i
    rw [hs, ht] at hreply
    obtain ⟨-, c1, -, -, hc1, -⟩ := exec_take_frame hc hs
    obtain ⟨-, c1', -, -, hc1', -⟩ := exec_take_frame hc' ht
    obtain ⟨halike, x, y, hx, hy, hstatus, hresult⟩ := sameReply_alike hc hc' hc1 hc1' hreply
    exact ⟨⟨c1, c1', hc1, hc1', halike⟩, sameAnswers_succ hanswers hx hy hstatus hresult⟩
  · cases (exec_faulted (s := s.take j es) hc hi hfault).symm.trans hs
    cases (exec_faulted (s := t.take k es') hc' hi hfault').symm.trans ht
    exact ⟨⟨c, c', hc, hc', .inr ⟨hfault, hfault'⟩⟩, sameAnswers_succ hanswers rfl rfl rfl rfl⟩

/-- Adding values stays within a block (R100). -/
theorem addValues_withinBlock {vs : List U64} {last : List Instr} (hlast : ∀ i ∈ last, WithinBlock i) :
    ∀ i ∈ vs.map Instr.addValue ++ last, WithinBlock i := by
  intro i hi
  rcases List.mem_append.mp hi with hi | hi
  · obtain ⟨v, -, rfl⟩ := List.mem_map.mp hi
    exact .addValue v
  · exact hlast i hi

/-- Settles O58: REFRESH leaves the unit as reset does, and from there on the two units answer alike. -/
theorem reuseIsLikeAFreshUnit : Obligations.ReuseIsLikeAFreshUnit := by
  intro s t s' t' j k c as bs hc hc' hs ht
  have hfirst : ∀ i ∈ as.map Instr.addValue ++ [.close], WithinBlock i := addValues_withinBlock (by simp [WithinBlock.close])
  have hsecond : ∀ i ∈ bs.map Instr.addValue ++ [.close, .getBuf], WithinBlock i :=
    addValues_withinBlock (by simp [WithinBlock.close, WithinBlock.getBuf])
  rw [List.append_cons] at hs
  obtain ⟨s0, c0, hs0, hcfg, hs⟩ := runScript_append hc (fun i hi => (hfirst i hi).commandUnit) hs
  obtain ⟨s1, hs1, hs⟩ := runScript_refresh hs0 hs
  rw [← List.append_nil (bs.map Instr.addValue ++ _)] at hs ht
  obtain ⟨s2, t2, ⟨-, hanswers⟩, hs2, ht2⟩ :=
    runScript_lockstep (P := fun n s t => BothHold j k CU.Alike s t ∧ SameAnswers n s t) (n := 0)
      (fun ⟨⟨c, c', hc, hc', _⟩, _⟩ => ⟨c, c', hc, hc', trivial⟩) withinBlock_keeps_alike hsecond
      ⟨⟨_, _, hs1, hc', .inl (congrArg CU.reset hcfg.symm)⟩, rfl⟩ hs ht
  have hcount : 0 + (bs.map Instr.addValue ++ [Instr.close, Instr.getBuf]).length = bs.length + 2 := by simp
  rwa [hcount, SameAnswers, State.answers, State.answers, ← runScript_nil hs2, ← runScript_nil ht2] at hanswers

end Sys2Proof.Machine
end

section
/-! PROOFS. The code that CHIMP takes for a value (spec/42_chimp_compress.md R115 to R120): the rows of its table in their
order, and the session registers after the code of each row. -/

namespace Sys2Proof.Machine

section
variable {g : CUConfig} {x : Session} {v : U64}

/-! ### The rows of the table (R116) -/

theorem selectCode_chimp (hg : g.variant = .chimp) : selectCode g x v = chimpSelect g x v := by
  simp only [selectCode, hg]

theorem chimpSelect_first (hfirst : x.first = true) : chimpSelect g x v = .chimpFirst v :=
  if_pos hfirst

theorem chimpSelect_same (hfirst : x.first = false) (hxor : x.storedVal ^^^ v = 0) : chimpSelect g x v = .chimpSame := by
  simp only [chimpSelect, hfirst, hxor, Bool.false_eq_true, if_false, if_true]

theorem chimpSelect_trail (hfirst : x.first = false) (hxor : x.storedVal ^^^ v ≠ 0)
    (htz : g.tzThreshold < ctz64 (x.storedVal ^^^ v)) :
    chimpSelect g x v =
      .chimpTrail (leadRound g.leadRound (clz64 (x.storedVal ^^^ v)))
        (BitVec.ofNat 6
          (64 - bucketCount (leadRound g.leadRound (clz64 (x.storedVal ^^^ v))) - ctz64 (x.storedVal ^^^ v)))
        ((x.storedVal ^^^ v) >>> ctz64 (x.storedVal ^^^ v)) := by
  simp only [chimpSelect, hfirst, hxor, htz, Bool.false_eq_true, if_false, if_true]

theorem chimpSelect_reuse (hfirst : x.first = false) (hxor : x.storedVal ^^^ v ≠ 0)
    (htz : ctz64 (x.storedVal ^^^ v) ≤ g.tzThreshold)
    (hlead : x.lead = some (leadRound g.leadRound (clz64 (x.storedVal ^^^ v)))) :
    chimpSelect g x v = .chimpReuse (x.storedVal ^^^ v) := by
  simp only [chimpSelect, hfirst, hxor, Nat.not_lt.mpr htz, hlead, Bool.false_eq_true, if_false, if_true]

theorem chimpSelect_newLead (hfirst : x.first = false) (hxor : x.storedVal ^^^ v ≠ 0)
    (htz : ctz64 (x.storedVal ^^^ v) ≤ g.tzThreshold)
    (hlead : x.lead ≠ some (leadRound g.leadRound (clz64 (x.storedVal ^^^ v)))) :
    chimpSelect g x v =
      .chimpNewLead (leadRound g.leadRound (clz64 (x.storedVal ^^^ v))) (x.storedVal ^^^ v) := by
  simp only [chimpSelect, hfirst, hxor, Nat.not_lt.mpr htz, hlead, Bool.false_eq_true, if_false]

/-! ### The session after the code, and the count of significant bits -/

/-- The code selected for a value stands for it (R137), so a code that shows what it does to the window and to `first` shows
the whole session. -/
theorem codeNext_of_selectCode {i : Instr} {lead : Option Bucket} (hsel : selectCode g x v = i)
    (hnext : codeNext i x = { x with storedVal := (codeNext i x).storedVal, lead := lead, first := false }) :
    codeNext i x = { x with storedVal := v, lead := lead, first := false } := by
  have hvalue : (codeNext i x).storedVal = v := hsel ▸ (selectCode_legal g x v).2
  rwa [hvalue] at hnext

end

/-- The significant bits of a xor with a trailing zero are at most 63, which the field of TRAIL holds unwrapped (R76). -/
theorem toNat_significantBits (r : LeadingRound) (a : U64) (htz : 0 < ctz64 a) :
    (BitVec.ofNat 6 (64 - bucketCount (leadRound r (clz64 a)) - ctz64 a)).toNat =
      64 - bucketCount (leadRound r (clz64 a)) - ctz64 a := by
  rw [BitVec.toNat_ofNat, Nat.mod_eq_of_lt (by omega)]

/-- Settles O24: each row of the table is selected under its condition, and the code of every row stands for the value. -/
theorem chimpChoosesByTheTable : Obligations.ChimpChoosesByTheTable := by
  refine ⟨fun _ => rfl, fun g x v hg => ?_⟩
  intro xor lz tz
  have hselect := selectCode_chimp (x := x) (v := v) hg
  have hfits : xor.toNat < 2 ^ (64 - bucketCount lz) := toNat_lt_leadRound g.leadRound xor
  refine ⟨fun hfirst => ?first, fun hfirst hxor => ?same, fun hfirst hxor htz => ?trail,
    fun hfirst hxor htz hlead => ?reuse, fun hfirst hxor htz hlead => ?newLead⟩
  case first => exact ⟨hselect.trans (chimpSelect_first hfirst), rfl⟩
  case same =>
    have hsame := hselect.trans (chimpSelect_same hfirst hxor)
    exact ⟨hsame, codeNext_of_selectCode hsame rfl⟩
  case trail =>
    have hsig : (BitVec.ofNat 6 (64 - bucketCount lz - tz)).toNat = 64 - bucketCount lz - tz :=
      toNat_significantBits g.leadRound xor (Nat.zero_lt_of_lt htz)
    have hcentre : bucketCount lz + tz < 64 := lead_trail_lt g.leadRound xor hxor
    have htrail := hselect.trans (chimpSelect_trail hfirst hxor htz)
    refine ⟨_, hsig, ?_, ?_, ?_, htrail, codeNext_of_selectCode htrail rfl⟩ <;> rw [hsig]
    · omega
    · omega
    · exact shift_fits g.leadRound xor tz
  case reuse =>
    have hreuse := hselect.trans (chimpSelect_reuse hfirst hxor htz hlead)
    exact ⟨hfits, hreuse, codeNext_of_selectCode hreuse rfl⟩
  case newLead =>
    have hnewLead := hselect.trans (chimpSelect_newLead hfirst hxor htz hlead)
    exact ⟨hfits, hnewLead, codeNext_of_selectCode hnewLead rfl⟩

end Sys2Proof.Machine
end

section
/-! PROOFS. The code that ELF takes for a value (spec/43_elf_compress.md R125 to R131): when the remembered window takes a
xor, the branches of the choice in their order, and the session registers after the code of each. -/

namespace Sys2Proof.Machine

/-- The remembered window takes a xor that has its rounded leading count and at least its trailing zeros (R126, R11). -/
theorem windowTakes_iff {x : Session} {lz : Bucket} {tz : Nat} :
    windowTakes x lz tz = true ↔ x.lead = some lz ∧ ∃ t : Fin 64, x.trail = some t ∧ t.val ≤ tz := by
  unfold windowTakes
  split
  next b t hlead htrail => simp [hlead, htrail, eq_comm (a := lz)]
  next hnone => exact ⟨nofun, fun ⟨hlead, t, htrail, _⟩ => (hnone lz t hlead htrail).elim⟩

section
variable {g : CUConfig} {x : Session} {v xor : U64} {lz : Bucket} {tz cb : Nat}

/-! ### The branches of the choice (R125, R126, R129) -/

theorem selectCode_elf (hg : g.variant = .elf) : selectCode g x v = elfSelect g x v := by
  simp only [selectCode, hg]

theorem elfSelect_first (hfirst : x.first = true) :
    elfSelect g x v = .elfFirst (BitVec.ofNat 7 (ctz64 v)) (v >>> ctz64 v) :=
  if_pos hfirst

theorem elfSelect_same (hfirst : x.first = false) (hxor : x.storedVal ^^^ v = 0) : elfSelect g x v = .elfSame := by
  simp only [elfSelect, hfirst, hxor, Bool.false_eq_true, if_false, if_true]

theorem elfSelect_reuse {t : Fin 64} (hfirst : x.first = false) (hxor : x.storedVal ^^^ v = xor) (hne : xor ≠ 0)
    (hlead : x.lead = some (leadRound g.leadRound (clz64 xor))) (htrail : x.trail = some t) (ht : t.val ≤ ctz64 xor) :
    elfSelect g x v = .elfReuse (xor >>> t.val) := by
  have htakes := windowTakes_iff.mpr ⟨hlead, t, htrail, ht⟩
  simp only [elfSelect, hfirst, hxor, hne, htakes, htrail, Option.elim_some, Bool.false_eq_true, if_false, if_true]

/-- A later value whose xor the remembered window does not take opens a new one, in the form its centre bits ask for. -/
theorem elfSelect_window (hfirst : x.first = false) (hxor : x.storedVal ^^^ v = xor) (hne : xor ≠ 0)
    (hlz : leadRound g.leadRound (clz64 xor) = lz) (htz : ctz64 xor = tz)
    (hwindow : ¬ (x.lead = some lz ∧ ∃ t : Fin 64, x.trail = some t ∧ t.val ≤ tz)) (hcb : 64 - bucketCount lz - tz = cb) :
    elfSelect g x v =
      if cb ≤ 16 then .elfNewShort lz (BitVec.ofNat 4 cb) (xor >>> tz) else .elfNewLong lz (BitVec.ofNat 6 cb) (xor >>> tz) := by
  have htakes := mt windowTakes_iff.mp hwindow
  simp only [elfSelect, hfirst, hxor, hne, hlz, htz, htakes, hcb, Bool.false_eq_true, if_false]

/-! ### The session after the code (R125, R128, R130, R131) -/

/-- The count of ELF.FIRST is at most 64, which its field holds unwrapped (R78). -/
theorem toNat_ctz64_field (v : U64) : (BitVec.ofNat 7 (ctz64 v)).toNat = ctz64 v := by
  have hle := ctz64_le v
  rw [BitVec.toNat_ofNat, Nat.mod_eq_of_lt (by omega)]

theorem codeNext_elfFirst (x : Session) (v : U64) :
    codeNext (.elfFirst (BitVec.ofNat 7 (ctz64 v)) (v >>> ctz64 v)) x = x.took v := by
  simp only [codeNext, elfFirstNext, toNat_ctz64_field, placed_shift v _ le_rfl]

/-- The xor without its trailing zeros still stands for the value (R89). -/
theorem xor_placed_shift {a : U64} {n : Nat} (hxor : a ^^^ v = xor) (hn : n ≤ ctz64 xor) : a ^^^ placed (xor >>> n) n = v := by
  rw [placed_shift xor n hn, ← hxor, xor_cancel]

theorem codeNext_elfReuse {t : Fin 64} (hxor : x.storedVal ^^^ v = xor) (htrail : x.trail = some t) (ht : t.val ≤ ctz64 xor) :
    codeNext (.elfReuse (xor >>> t.val)) x = x.took v := by
  simp only [codeNext, elfReuseNext, htrail, xor_placed_shift hxor ht]

/-- A new window remembers both counts of the xor, the trailing one exactly (R129). -/
theorem elfWindowNext_xor (hxor : x.storedVal ^^^ v = xor) (htz : ctz64 xor = tz) (hcentre : bucketCount lz + tz < 64) :
    elfWindowNext lz (64 - bucketCount lz - tz) (xor >>> tz) x = ⟨v, some lz, some (Fin.ofNat 64 tz), false⟩ := by
  simp only [elfWindowNext, trailReg, trailOf_centre hcentre, xor_placed_shift hxor htz.ge]
  rfl

end

/-- Settles O25: each branch of the choice is taken under its condition, and its code leaves the value and the window. -/
theorem elfChoosesByTheRules : Obligations.ElfChoosesByTheRules := by
  intro g x v hg xor lz tz cb
  have hselect := selectCode_elf (x := x) (v := v) hg
  refine ⟨fun hfirst => ?first, fun hfirst hxor => ?same, fun t hfirst hne hlead htrail ht => ?reuse,
    fun hfirst hne hwindow => ?window⟩
  case first =>
    exact ⟨_, toNat_ctz64_field v, BitVec.toNat_ushiftRight_lt v _ (ctz64_le v), hselect.trans (elfSelect_first hfirst),
      codeNext_elfFirst x v⟩
  case same =>
    have hsame := hselect.trans (elfSelect_same hfirst hxor)
    exact ⟨hsame, codeNext_of_selectCode hsame rfl⟩
  case reuse =>
    exact ⟨shift_fits g.leadRound xor t.val, hselect.trans (elfSelect_reuse hfirst rfl hne hlead htrail ht),
      codeNext_elfReuse rfl htrail ht⟩
  case window =>
    have hcentre : bucketCount lz + tz < 64 := lead_trail_lt g.leadRound xor hne
    have hpos : 1 ≤ cb := by omega
    have hle : cb ≤ 64 := by omega
    have hopens := hselect.trans (elfSelect_window hfirst rfl hne rfl rfl hwindow rfl)
    have hnext : elfWindowNext lz cb (xor >>> tz) x = ⟨v, some lz, some (Fin.ofNat 64 tz), false⟩ :=
      elfWindowNext_xor rfl rfl hcentre
    refine ⟨hpos, hle, shift_fits g.leadRound xor tz, fun hshort => ?short, fun hlong => ?long⟩
    case short =>
      have hfield : centreOf4 (BitVec.ofNat 4 cb) = cb := centreOf4_ofNat hpos hshort
      refine ⟨_, BitVec.toNat_ofNat .., hfield, hopens.trans (if_pos hshort), ?_⟩
      rw [codeNext, elfNewShortNext, hfield, hnext]
    case long =>
      have hfield : centreOf6 (BitVec.ofNat 6 cb) = cb := centreOf6_ofNat hpos hle
      refine ⟨_, BitVec.toNat_ofNat .., hfield, hopens.trans (if_neg (Nat.not_le.mpr hlong)), ?_⟩
      rw [codeNext, elfNewLongNext, hfield, hnext]

end Sys2Proof.Machine
end

section
/-! PROOFS. The commands of a decompressor unit, one by one: what SETBYTES binds, what READVALUE decodes, that decoding mirrors
encoding, that bulk decoding ends and what DECOMPX collects (spec/44_decompressor_contract.md R135 to R138). -/

namespace Sys2Proof.Machine

/-! ### SETBYTES (R135) -/

/-- Settles O31: SETBYTES looks at `faulted` alone. -/
theorem setBytesBindsTheSource : Obligations.SetBytesBindsTheSource := by
  intro s d b hu
  have hexec : exec (.setBytes b) s = _ := onDU_du hu _
  exact ⟨fun hfaulted => hexec.trans (if_neg (by simp [hfaulted])), fun hfaulted => hexec.trans (if_pos hfaulted)⟩

/-! ### The code at the cursor (R80, R136) -/

/-- No code is shorter than a control code of two bits, in whatever window (R80). -/
theorem two_le_codeLength {lc : LeadingRepresentation} {lead : Option Bucket} {trail : Option (Fin 64)} {i : Instr}
    (hplace : i.codePlace ≠ none) (hfit : i.fitsWindow lead trail = true) : 2 ≤ codeLength lc lead trail i := by
  rw [← codeBits_length]
  cases i with
  | chimpFirst | chimpSame | chimpTrail | chimpNewLead => simp
  | elfSame | elfNewShort | elfNewLong => simp
  | elfFirst => simp; omega
  | chimpReuse payload =>
    cases lead with
    | none => cases hfit
    | some b => simp
  | elfReuse payload =>
    cases lead with
    | none => cases hfit
    | some b =>
      cases trail with
      | none => cases hfit
      | some t => rw [codeBits_length, codeLength_elfReuse]; omega
  | _ => exact absurd rfl hplace

section
variable {d : DU} {i : Instr}

/-- A code that stands at the cursor is one that the unit executes, and it stands there whole. -/
theorem fetchCode_ok_inv (h : d.fetchCode = .ok i) :
    i.codePlace = some (d.cfg.variant, d.session.first) ∧ codeCheck i d.session = none ∧ 2 ≤ d.lengthOf i ∧
      d.rpos + d.lengthOf i ≤ 8 * d.len := by
  obtain ⟨rest, hdecode⟩ := fetchCode_ok_iff.mp h
  obtain ⟨hstream, hplace, hwf, hfit⟩ := decodeCode_ok_inv hdecode
  have hcode : i.codePlace ≠ none := by simp [hplace]
  have htwo : 2 ≤ d.lengthOf i := two_le_codeLength hcode hfit
  have hlength : 8 * d.len - d.rpos = d.lengthOf i + rest.length := by
    rw [← stream_length, hstream, List.length_append, codeBits_length, DU.lengthOf]
  exact ⟨hplace, (codeCheck_eq_none_iff hcode).mpr ⟨hwf, hfit⟩, htwo, by omega⟩

/-- Where the bits of a legal code stand at the cursor, that code is fetched (R80). -/
theorem fetchCode_of_stream {rest : List Bool} (hplace : i.codePlace = some (d.cfg.variant, d.session.first))
    (hcheck : codeCheck i d.session = none)
    (hstream : d.stream = codeBits d.cfg.leadCode d.session.lead d.session.trail i ++ rest) : d.fetchCode = .ok i := by
  obtain ⟨hwf, hfit⟩ := (codeCheck_eq_none_iff (by simp [hplace])).mp hcheck
  exact fetchCode_ok_iff.mpr ⟨rest, hstream ▸ decodeCode_codeBits rest hplace hwf hfit⟩

/-- The unit after a code that stands for a value: the code's session, and the cursor past the code (R136). -/
def DU.afterValue (d : DU) (n : Nat) (x : Session) : DU :=
  { d with session := x, rpos := d.rpos + n }

/-- The unit after the sentinel's code (R136). -/
def DU.afterEnd (d : DU) (n : Nat) (x : Session) : DU :=
  { d with session := x, rpos := d.rpos + n, ended := true }

/-- Decoding a code that stands at the cursor is executing it: its value or END, and the session that it leaves (R136). -/
theorem xorDecode_of_fetchCode (h : d.fetchCode = .ok i) :
    d.xorDecode =
      if (codeNext i d.session).storedVal = d.cfg.endSign then
        .ok (.eos, d.afterEnd (d.lengthOf i) (codeNext i d.session))
      else .ok (.value (codeNext i d.session).storedVal, d.afterValue (d.lengthOf i) (codeNext i d.session)) := by
  obtain ⟨-, -, -, hroom⟩ := fetchCode_ok_inv h
  have hexecute : d.xorDecode = d.execute i := by simp only [DU.xorDecode, h]
  exact hexecute.trans (if_neg (Nat.not_lt.mpr hroom))

/-- Answering with what the decode gave delivers the code's value or END (R136). -/
theorem finishDecoded_xorDecode (s : State) (h : d.fetchCode = .ok i) :
    s.finishDecoded d d.xorDecode = .next (s.delivered d (d.lengthOf i) (codeNext i d.session)) := by
  rw [xorDecode_of_fetchCode h, State.delivered]
  split_ifs <;> rfl

end

/-- Settles O32: the code fetched is one that the unit takes at its place, so that running it is the same decode. -/
theorem readValueRunsTheCodeAhead : Obligations.ReadValueRunsTheCodeAhead := by
  intro s d hu hready
  have hread : exec .readValue s = s.finishDecoded d d.xorDecode := (onDU_du hu _).trans (if_pos hready)
  refine ⟨fun i hfetch => ⟨?_, hread.trans (finishDecoded_xorDecode s hfetch)⟩, fun e hfetch => ?_⟩
  · obtain ⟨hplace, hcheck, -, -⟩ := fetchCode_ok_inv hfetch
    calc exec .readValue s
      _ = s.finishDecoded d (d.execute i) := by rw [hread]; simp only [DU.xorDecode, hfetch]
      _ = runCode i s := (runCode_du hu hready hplace hcheck).symm
      _ = exec i s := (exec_eq_runCode s (by simp [hplace])).symm
  · have hfault : decodeFault e = if e = .streamEnds then .streamError else .malformedCode := by cases e <;> rfl
    rw [hread, ← hfault]
    simp only [DU.xorDecode, hfetch]
    rfl

/-! ### Decoding mirrors encoding (R137) -/

/-- What appending a value has done: the session is the chosen code's, and the count is its length (R100, R104). -/
theorem append_ok_inv {c c' : CU} {v : U64} {n : Nat} (h : c.append v = .ok (c', n)) :
    c'.session = codeNext (c.chosen v) c.session ∧ n = c.lengthOf (c.chosen v) := by
  rw [append_eq_emit] at h
  rcases emit_cases c (c.chosen v) with ⟨c1, -, he⟩ | he <;> rw [he] at h <;> cases h
  exact ⟨rfl, rfl⟩

/-- A decompressor unit stands where a compressor unit stood: the same format, the same session (R137). -/
structure DU.Mirrors (d : DU) (c : CU) : Prop where
  variant  : d.cfg.variant = c.cfg.variant
  leadCode : d.cfg.leadCode = c.cfg.leadCode
  session  : d.session = c.session

section
variable {c c' : CU} {d : DU} {v : U64} {n : Nat} {rest : List Bool}

theorem DU.Mirrors.lengthOf (h : d.Mirrors c) (i : Instr) : d.lengthOf i = c.lengthOf i := by
  rw [DU.lengthOf, CU.lengthOf, h.leadCode, h.session]

/-- The code that the compressor chose for a value is fetched where its bits stand. -/
theorem DU.Mirrors.fetchCode (h : d.Mirrors c) (hstream : d.stream = c.bitsOf (c.chosen v) ++ rest) :
    d.fetchCode = .ok (c.chosen v) := by
  refine fetchCode_of_stream (rest := rest) ?_ ?_ ?_
  · rw [h.variant, h.session, chosen_place]
  · rw [h.session, (chosen_legal c v).1]
  · rw [hstream, CU.bitsOf, h.leadCode, h.session]

/-- The mirror property: decoding the code appended for a value gives the value, or END, and the compressor's session. -/
theorem DU.Mirrors.xorDecode (h : d.Mirrors c) (happend : c.append v = .ok (c', n))
    (hstream : d.stream = c.bitsOf (c.chosen v) ++ rest) :
    d.xorDecode =
      if v = d.cfg.endSign then .ok (.eos, d.afterEnd n c'.session) else .ok (.value v, d.afterValue n c'.session) := by
  obtain ⟨hsession, rfl⟩ := append_ok_inv happend
  rw [xorDecode_of_fetchCode (h.fetchCode hstream), h.session, ← hsession, h.lengthOf, hsession, (chosen_legal c v).2]

end

/-- Settles O54: the decode leaves the cursor behind the code's bits, at the rest of the stream. -/
theorem decodingMirrorsEncoding : Obligations.DecodingMirrorsEncoding := by
  intro c c' d v n rest happend hvariant hleadCode hsession hstream
  have hdecode := DU.Mirrors.xorDecode ⟨hvariant, hleadCode, hsession⟩ happend hstream
  have hn : n = (c.bitsOf (c.chosen v)).length := by rw [bitsOf_length, (append_ok_inv happend).2]
  have hrest : (d.advance n).stream = rest := by rw [stream_advance, hstream, hn, List.drop_left]
  split_ifs at hdecode ⊢
  · exact ⟨_, hdecode, rfl, rfl, hrest, rfl, rfl⟩
  · exact ⟨_, hdecode, rfl, rfl, hrest, rfl, rfl⟩

/-! ### Bulk decoding ends (R138, R176) -/

/-- A decode that answers has taken two bits or more, all of them from the source. -/
def TakesTwoBits (decode : DU → Except TerminalFault (Decoded × DU)) : Prop :=
  ∀ {d d1 : DU} {r : Decoded}, decode d = .ok (r, d1) → d.rpos + 2 ≤ d1.rpos ∧ d1.rpos ≤ 8 * d1.len ∧ d1.len = d.len

theorem xorDecode_takesTwoBits : TakesTwoBits DU.xorDecode := by
  intro d d1 r h
  rcases xorDecode_cases d with ⟨i, hfetch, -⟩ | ⟨e, -, hx⟩
  · obtain ⟨-, -, htwo, hroom⟩ := fetchCode_ok_inv hfetch
    rw [xorDecode_of_fetchCode hfetch] at h
    split_ifs at h <;> cases h
    · exact ⟨Nat.add_le_add_left htwo _, hroom, rfl⟩
    · exact ⟨Nat.add_le_add_left htwo _, hroom, rfl⟩
  · rw [hx] at h
    cases h

theorem decimalMode_takesTwoBits (b : BitVec 4) : TakesTwoBits fun d => d.decimalMode b := by
  intro d d1 r h
  dsimp only at h
  rcases decimalMode_cases d b with ⟨f, -, hm⟩ | ⟨d', hx, hm⟩ | ⟨p, d', hx, ⟨v, -, hm⟩ | ⟨-, hm⟩⟩ <;>
    rw [hm] at h <;> cases h
  · exact xorDecode_takesTwoBits hx
  · exact xorDecode_takesTwoBits hx

/-- A decode behind a mode mark takes its two bits behind the mark. -/
theorem takesTwoBits_advance {decode : DU → Except TerminalFault (Decoded × DU)} (hdecode : TakesTwoBits decode) (n : Nat) :
    TakesTwoBits fun d => decode (d.advance n) := by
  intro d d1 r h
  obtain ⟨htwo, hroom, hlen⟩ := hdecode h
  exact ⟨Nat.le_trans (Nat.add_le_add_right (Nat.le_add_right _ _) 2) htwo, hroom, hlen⟩

theorem orchDecode_takesTwoBits : TakesTwoBits DU.orchDecode := by
  intro d d1 r h
  rcases orchDecode_cases d with ⟨e, -, ho⟩ | ⟨i, rest, -, ho⟩ <;> rw [ho] at h
  · cases h
  · rcases runMode_cases d i with hm | ⟨b, hm⟩ | hm <;> rw [hm] at h
    · cases h
    · exact takesTwoBits_advance (decimalMode_takesTwoBits b) _ h
    · exact takesTwoBits_advance xorDecode_takesTwoBits _ h

/-- Fuel for one decode more than the two-bit pieces of what is left of the source (R138). -/
def DU.Fuelled (d : DU) (k : Nat) : Prop :=
  0 < k ∧ 8 * d.len < d.rpos + 2 * k

theorem fuelled_decodeBound (d : DU) : d.Fuelled d.decodeBound := by
  unfold DU.Fuelled DU.decodeBound
  omega

theorem not_fuelled_zero (d : DU) : ¬ d.Fuelled 0 :=
  fun h => Nat.lt_irrefl 0 h.1

section
variable {decode : DU → Except TerminalFault (Decoded × DU)} (hdecode : TakesTwoBits decode)
include hdecode

theorem fuelled_succ {d d1 : DU} {r : Decoded} {k : Nat} (h : decode d = .ok (r, d1)) (hk : d.Fuelled (k + 1)) :
    d1.Fuelled k := by
  obtain ⟨htwo, hroom, hlen⟩ := hdecode h
  obtain ⟨-, hfuel⟩ := hk
  unfold DU.Fuelled
  omega

/-- Fuelled decoding meets END before its fuel is used up, or a fault (R138, R176). -/
theorem decodes_of_fuelled : ∀ {k : Nat} {d : DU}, d.Fuelled k →
    (∃ vs d', DecodesTo decode d vs d' ∧ vs.length < k) ∨ ∃ f, DecodesInto decode d f
  | 0, d, hk => absurd hk (not_fuelled_zero d)
  | k + 1, d, hk => by
      rcases h : decode d with f | ⟨v | _, d1⟩
      · exact .inr ⟨f, .now h⟩
      · rcases decodes_of_fuelled (fuelled_succ hdecode h hk) with ⟨vs, d', hto, hlt⟩ | ⟨f, hinto⟩
        · exact .inl ⟨v :: vs, d', .value h hto, Nat.succ_lt_succ hlt⟩
        · exact .inr ⟨f, .later h hinto⟩
      · exact .inl ⟨[], d1, .eos h, Nat.succ_pos k⟩

/-- The fuel of a bulk command is enough to answer the values that decoding over and over gives (R138, R176). -/
theorem decompLoop_of_decodesTo : ∀ {k : Nat} {d d' : DU} {vs : List U64}, d.Fuelled k → DecodesTo decode d vs d' →
    decompLoop decode k d = .ok (vs, d')
  | 0, d, _, _, hk, _ => absurd hk (not_fuelled_zero d)
  | k + 1, _, _, _, hk, hto => by
      cases hto with
      | eos h => simp only [decompLoop, h]
      | value h hto => simp only [decompLoop, h, decompLoop_of_decodesTo (fuelled_succ hdecode h hk) hto]

/-- The fuel of a bulk command is enough to meet the fault that decoding over and over meets (R138, R176). -/
theorem decompLoop_of_decodesInto : ∀ {k : Nat} {d : DU} {f : TerminalFault}, d.Fuelled k → DecodesInto decode d f →
    decompLoop decode k d = .error f
  | 0, d, _, hk, _ => absurd hk (not_fuelled_zero d)
  | k + 1, _, _, hk, hinto => by
      cases hinto with
      | now h => simp only [decompLoop, h]
      | later h hinto => simp only [decompLoop, h, decompLoop_of_decodesInto (fuelled_succ hdecode h hk) hinto]

theorem decodes_within_decodeBound (d : DU) :
    (∃ vs d', DecodesTo decode d vs d' ∧ vs.length ≤ 4 * d.len) ∨ ∃ f, DecodesInto decode d f := by
  rcases decodes_of_fuelled hdecode (fuelled_decodeBound d) with ⟨vs, d', hto, hlt⟩ | hinto
  · exact .inl ⟨vs, d', hto, Nat.le_of_lt_succ hlt⟩
  · exact .inr hinto

end

/-- Settles O37: at either level a decode takes two bits or more, so that the bound of R138 is fuel enough. -/
theorem bulkDecodingTerminates : Obligations.BulkDecodingTerminates :=
  fun d => ⟨decodes_within_decodeBound xorDecode_takesTwoBits d, decodes_within_decodeBound orchDecode_takesTwoBits d⟩

/-- Settles O35: within its fuel DECOMPX does what decoding over and over does. -/
theorem decompXCollectsTheValues : Obligations.DecompXCollectsTheValues := by
  intro s d hu hready
  have hexec : exec .decompX s = s.finishValues d (decompLoop DU.xorDecode d.decodeBound d) :=
    (onDU_du hu _).trans (if_pos hready)
  rw [hexec]
  refine ⟨fun vs d' hto => ?_, fun f hinto => ?_⟩
  · rw [decompLoop_of_decodesTo xorDecode_takesTwoBits (fuelled_decodeBound d) hto]
    rfl
  · rw [decompLoop_of_decodesInto xorDecode_takesTwoBits (fuelled_decodeBound d) hinto]
    rfl

end Sys2Proof.Machine
end

section
/-! PROOFS. The round trip (spec/44_decompressor_contract.md R140): the bits that a compressor unit has written stand in the
bytes that GETBUF returns, and decoding takes the values back from them one by one. -/

namespace Sys2Proof.Machine

/-! ### The bits that a compressor unit has written -/

/-- The bits of the buffer below the write cursor, in stream order (R41). -/
def CU.written (c : CU) : List Bool :=
  (List.range c.wpos).map c.buf.bit

section
variable {c c' : CU} {v : U64} {n : Nat}

@[simp] theorem written_length (c : CU) : c.written.length = c.wpos := by simp [CU.written]

/-- Appended bits stand behind what was written before. -/
theorem written_of_appended {bits : List Bool} (h : c.Appended c' bits) : c'.written = c.written ++ bits := by
  have hbefore : (List.range c.wpos).map c'.buf.bit = c.written :=
    List.map_congr_left fun p hp => h.outside p (.inl (List.mem_range.mp hp))
  have hbehind : (List.range bits.length).map (fun i => c'.buf.bit (c.wpos + i)) = bits := by
    refine List.ext_getElem (by simp) fun i _ hi => ?_
    have hbit := h.inside (c.wpos + i) (Nat.le_add_right _ _) (Nat.add_lt_add_left hi _)
    rw [Nat.add_sub_cancel_left, List.getElem?_eq_getElem hi] at hbit
    simpa using (Option.some.inj hbit).symm
  calc c'.written
    _ = (List.range c.wpos).map c'.buf.bit ++ (List.range bits.length).map (fun i => c'.buf.bit (c.wpos + i)) := by
      rw [CU.written, h.cursor, List.range_add, List.map_append, List.map_map]
      rfl
    _ = c.written ++ bits := by rw [hbefore, hbehind]

theorem written_prefix_of_appended {bits : List Bool} (h : c.Appended c' bits) : c.written <+: c'.written :=
  written_of_appended h ▸ List.prefix_append _ _

/-- The pad of Flush leaves what was written where it is (R92). -/
theorem written_prefix_flush (c : CU) : c.written <+: c.flush.written := by
  rw [CU.written, CU.written, flush_wpos, List.range_add, List.map_append]
  exact List.prefix_append _ _

/-- Appending a value appends the bits of the code chosen for it (R100). -/
theorem append_appended (hwf : c.buf.WF) (h : c.append v = .ok (c', n)) : c.Appended c' (c.bitsOf (c.chosen v)) := by
  rw [append_eq_emit] at h
  rcases emit_cases c (c.chosen v) with ⟨c1, hput, he⟩ | he <;> rw [he] at h <;> cases h
  obtain ⟨hcursor, hinside, houtside, hbytes⟩ := putFields_appended hwf hput
  exact ⟨hcursor, hinside, houtside, hbytes⟩

/-- A closed block begins with what was written before it, and the sentinel's code (R101). -/
theorem closeBlock_written (hopen : c.OpenInv) (h : c.closeBlock = .ok (c', n)) :
    ∃ c1 k, c.append c.cfg.endSign = .ok (c1, k) ∧ c1.written <+: c'.written := by
  rcases closeBlock_cases c with ⟨c1, k, c2, happend, hguard, hc⟩ | hc <;> rw [hc] at h <;> cases h
  have hwf1 : c1.buf.WF := (append_openInv hopen happend).1.stream.buffer
  have hguardBits : c1.written <+: c2.written := written_prefix_of_appended (putBits_appended hwf1 hguard)
  exact ⟨c1, k, happend, hguardBits.trans (written_prefix_flush c2)⟩

/-- The bytes of a buffer up to a cursor at a whole byte have the bits that were written (R41, R105). -/
theorem bytesBits_read (hwhole : c.wpos % 8 = 0) :
    bytesBits ((List.range (c.wpos / 8)).map fun a => c.buf.read (0 + a)) = c.written := by
  refine List.ext_getElem? fun p => ?_
  rw [bytesBits_getElem?, CU.written]
  by_cases hp : p < c.wpos
  · have hbyte : p / 8 < c.wpos / 8 := by omega
    simp [hp, hbyte, Memory.bit]
  · have hbyte : ¬ p / 8 < c.wpos / 8 := by omega
    simp [hp, hbyte]

end

/-! ### Appending values one after another -/

/-- Appending these values, each in the state that the one before left, leaves `c'` (R100). -/
inductive CU.Takes : CU → List U64 → CU → Prop where
  | nil (c : CU) : c.Takes [] c
  | cons {c c1 c' : CU} {v : U64} {vs : List U64} {n : Nat} :
      c.append v = .ok (c1, n) → c1.Takes vs c' → c.Takes (v :: vs) c'

/-- Appending values keeps the parameters, an open unit, and what was written before. -/
theorem CU.Takes.frame {c c' : CU} {vs : List U64} (h : c.Takes vs c') (hopen : c.OpenInv) :
    c'.cfg = c.cfg ∧ c'.OpenInv ∧ c.written <+: c'.written := by
  induction h with
  | nil c => exact ⟨rfl, hopen, List.prefix_rfl⟩
  | cons happend _ ih =>
    obtain ⟨hcfg, hopen', hprefix⟩ := ih (append_openInv hopen happend).1
    have hcode := written_prefix_of_appended (append_appended hopen.stream.buffer happend)
    exact ⟨hcfg.trans (append_cfg happend), hopen', hcode.trans hprefix⟩

/-! ### Decoding what was written (R137) -/

/-- A decompressor unit that mirrors a compressor unit, its read cursor where the other's write cursor was. -/
structure DU.Follows (d : DU) (c : CU) : Prop extends d.Mirrors c where
  cursor : d.rpos = c.wpos

/-- The unit at the end of the stream, in the session and at the cursor of the compressor unit it followed. -/
def DU.endedWith (d : DU) (c : CU) : DU :=
  { d with session := c.session, rpos := c.wpos, ended := true }

section
variable {c c1 c2 : CU} {d : DU} {v : U64} {n : Nat}

/-- Where the source begins with what the compressor wrote, the code that it appended stands at the cursor. -/
theorem DU.Follows.stream (h : d.Follows c) (hopen : c.OpenInv) (happend : c.append v = .ok (c1, n))
    (hsrc : c1.written <+: bytesBits d.src) : ∃ rest, d.stream = c.bitsOf (c.chosen v) ++ rest := by
  obtain ⟨rest, hrest⟩ := hsrc
  refine ⟨rest, ?_⟩
  rw [DU.stream, ← hrest, written_of_appended (append_appended hopen.stream.buffer happend), h.cursor,
    List.append_assoc, ← written_length c, List.drop_left]

/-- The cursors of both units move past the same code. -/
theorem DU.Follows.cursor_append (h : d.Follows c) (hopen : c.OpenInv) (happend : c.append v = .ok (c1, n)) :
    d.rpos + n = c1.wpos := by
  rw [(append_appended hopen.stream.buffer happend).cursor, bitsOf_length, ← (append_ok_inv happend).2, h.cursor]

/-- After one value the decompressor unit follows the compressor unit still. -/
theorem DU.Follows.afterValue (h : d.Follows c) (hopen : c.OpenInv) (happend : c.append v = .ok (c1, n)) :
    (d.afterValue n c1.session).Follows c1 where
  variant := by rw [append_cfg happend]; exact h.variant
  leadCode := by rw [append_cfg happend]; exact h.leadCode
  session := rfl
  cursor := h.cursor_append hopen happend

/-- Decoding gives back the values that were appended before the sentinel, none of which was it (R140). -/
theorem decodesTo_of_takes {vs : List U64} (htakes : c.Takes vs c1) (hend : c1.append d.cfg.endSign = .ok (c2, n))
    (hopen : c.OpenInv) (hfollows : d.Follows c) (hsrc : c2.written <+: bytesBits d.src) (hdata : d.cfg.endSign ∉ vs) :
    DecodesTo DU.xorDecode d vs (d.endedWith c2) := by
  induction htakes generalizing d with
  | nil c =>
    obtain ⟨rest, hstream⟩ := hfollows.stream hopen hend hsrc
    have hended : d.endedWith c2 = d.afterEnd n c2.session := by
      rw [DU.endedWith, ← hfollows.cursor_append hopen hend, DU.afterEnd]
    rw [hended]
    exact .eos ((hfollows.xorDecode hend hstream).trans (if_pos rfl))
  | @cons c ca c1 v vs m happend htakes ih =>
    obtain ⟨hv, hvs⟩ := List.ne_and_not_mem_of_not_mem_cons hdata
    have hopena := (append_openInv hopen happend).1
    obtain ⟨-, hopen1, hprefix⟩ := htakes.frame hopena
    have hprefixEnd := written_prefix_of_appended (append_appended hopen1.stream.buffer hend)
    obtain ⟨rest, hstream⟩ := hfollows.stream hopen happend ((hprefix.trans hprefixEnd).trans hsrc)
    exact .value ((hfollows.xorDecode happend hstream).trans (if_neg hv.symm))
      (ih (d := d.afterValue m ca.session) hend hopena (hfollows.afterValue hopen happend) hsrc hvs)

end

/-! ### COMPRESS (R88) -/

section
variable {s s' t : State} {j k x : Nat} {c : CU} {w : BitVec 8} {b : List Byte}

/-- A script to one compressor unit leaves the others as they are (R20). -/
theorem runScript_others (hkj : k ≠ j) : ∀ {is : List Instr} {s : State} {c : CU}, s.units[j]? = some (.cu c) →
    (∀ i ∈ is, i.commandUnit = some .cu) → s.runScript (script j is) = .next s' → s'.units[k]? = s.units[k]?
  | [], _, _, _, _, h => by
      cases h
      rfl
  | i :: is, s, c, hc, his, h => by
      obtain ⟨t, hexec, hrest⟩ := runScript_cons hc (his i List.mem_cons_self) h
      obtain ⟨-, c', -, -, hc', -⟩ := exec_take_frame hc hexec
      have hresponds : Responds (s.take j (script j is)) (.next t) := hexec ▸ exec_responds i _
      obtain ⟨-, -, -, hothers, -⟩ := hresponds.frame
      exact (runScript_others hkj hc' (fun i hi => his i (List.mem_cons_of_mem _ hi)) hrest).trans (hothers k hkj)

/-- The last command of a block is refused if a fault stands before it (R204). -/
theorem runScript_faulted : ∀ {is : List Instr} {i : Instr} {s : State}, s.units[j]? = some (.cu c) →
    c.phase = .faulted → (∀ i' ∈ i :: is, WithinBlock i') → s.runScript (script j (i :: is)) = .next s' →
      s'.out.head? = some ⟨j, .refused, c.statusWord, .none⟩
  | is, i, s, hc, hphase, his, h => by
      obtain ⟨hi, hrest⟩ := List.forall_mem_cons.mp his
      obtain ⟨t, hexec, hrun⟩ := runScript_cons hc hi.commandUnit h
      cases (exec_faulted (s := s.take j _) hc hi hphase).symm.trans hexec
      cases is with
      | nil => rw [runScript_nil hrun]; rfl
      | cons i' is => exact runScript_faulted (s := (s.take j _).refuse _) hc hphase hrest hrun

/-- A command of an open block behind which GETBUF answers bytes has been accepted (R105, R203). -/
theorem accepts_of_bytes {i i' : Instr} {is : List Instr} (hc : s.units[j]? = some (.cu c))
    (hopened : i.refusedOn (.cu c) = false) (his : ∀ i₀ ∈ i :: i' :: is, WithinBlock i₀)
    (h : s.runScript (script j (i :: i' :: is)) = .next s') (hout : s'.out.head? = some ⟨x, .ok, w, .bytes b⟩) :
    ∃ (t : State) (c1 : CU), t.units[j]? = some (.cu c1) ∧ c.Accepts i c1 ∧
      t.runScript (script j (i' :: is)) = .next s' := by
  obtain ⟨hi, hrest⟩ := List.forall_mem_cons.mp his
  obtain ⟨t, hexec, hrun⟩ := runScript_cons hc hi.commandUnit h
  obtain ⟨-, c1, -, -, hc1, -⟩ := exec_take_frame hc hexec
  rcases exec_withinBlock (s := s.take j _) hc hi hexec hc1 with ⟨hrefused, -⟩ | ⟨-, haccepts⟩ | hfaulted
  · rw [hopened] at hrefused
    cases hrefused
  · exact ⟨t, c1, hc1, haccepts, hrun⟩
  · rw [runScript_faulted hc1 hfaulted hrest hrun] at hout
    cases hout

theorem closing_withinBlock : ∀ i ∈ [Instr.close, .getBuf], WithinBlock i := by
  simp [WithinBlock.close, WithinBlock.getBuf]

/-- COMPRESS that answers bytes has appended the values and the sentinel, and their bits begin the bytes (R88, R105). -/
theorem takes_of_bytes : ∀ {vs : List U64} {s : State} {c : CU}, s.units[j]? = some (.cu c) → c.OpenInv →
    s.runScript (script j (vs.map Instr.addValue ++ [.close, .getBuf])) = .next s' →
    s'.out.head? = some ⟨x, .ok, w, .bytes b⟩ →
      ∃ c1 c2 n, c.Takes vs c1 ∧ c1.append c.cfg.endSign = .ok (c2, n) ∧ c2.written <+: bytesBits b
  | [], s, c, hc, hopen, h, hout => by
      have hopened : Instr.close.refusedOn (.cu c) = false := by simp [Instr.refusedOn, hopen.phase]
      obtain ⟨t, c1, hc1, haccepts, hrun⟩ := accepts_of_bytes hc hopened closing_withinBlock h hout
      obtain - | ⟨hclose⟩ := haccepts
      obtain ⟨hclosed, rfl⟩ := runScript_getBuf hc1 hrun hout
      obtain ⟨c2, n, happend, hprefix⟩ := closeBlock_written hopen hclose
      exact ⟨c, c2, n, .nil c, happend, bytesBits_read ((closeBlock_inv hopen hclose).whole hclosed) ▸ hprefix⟩
  | v :: vs, s, c, hc, hopen, h, hout => by
      have hblock : ∀ i ∈ (v :: vs).map Instr.addValue ++ [.close, .getBuf], WithinBlock i :=
        addValues_withinBlock closing_withinBlock
      obtain ⟨i', is, hcons⟩ : ∃ i' is, vs.map Instr.addValue ++ [.close, .getBuf] = i' :: is :=
        List.exists_cons_of_ne_nil (by simp)
      rw [List.map_cons, List.cons_append, hcons] at h hblock
      have hopened : (Instr.addValue v).refusedOn (.cu c) = false := by simp [Instr.refusedOn, hopen.phase]
      obtain ⟨t, c1, hc1, haccepts, hrun⟩ := accepts_of_bytes hc hopened hblock h hout
      obtain ⟨happend⟩ := haccepts
      rw [← hcons] at hrun
      obtain ⟨c2, c3, n, htakes, hend, hprefix⟩ := takes_of_bytes hc1 (append_openInv hopen happend).1 hrun hout
      exact ⟨c2, c3, n, .cons happend htakes, append_cfg happend ▸ hend, hprefix⟩

/-! ### DECOMPRESS (R88) -/

theorem core_run_of_step {M : Host.Core} {s t : M.State} (h : M.step s = .next t) (m : Nat) : M.run (m + 1) s = M.run m t := by
  simp only [Host.Core.run, h]

/-- A script whose first command goes on to a next state runs the rest of the script from there. -/
theorem runScript_of_exec {u : CodecUnit} {i : Instr} {is : List Instr} (hu : s.units[k]? = some u)
    (hi : i.commandUnit = some u.kind) (h : exec i (s.take k (script k is)) = .next t) :
    s.runScript (script k (i :: is)) = t.runScript (script k is) := by
  obtain ⟨cmd, hencode, rfl, hdecode⟩ := hostCommandsDecodeToThemselves k i u.kind hi
  have hscript : script cmd.unit (i :: is) = .command cmd :: script cmd.unit is := by
    simp only [script, List.flatMap_cons, hostCommand, hencode, List.singleton_append]
  have hstep : step { s with pending := script cmd.unit (i :: is) } = .next t := by
    rw [step_command hscript]
    exact (runCommand_ok (s := s.take cmd.unit _) hu hdecode).trans h
  have hresponds : Responds (s.take cmd.unit (script cmd.unit is)) (.next t) := h ▸ exec_responds i _
  have hpending : t.pending = script cmd.unit is := hresponds.frame.1
  have hlength : (script cmd.unit (i :: is)).length = (script cmd.unit is).length + 1 := by rw [hscript, List.length_cons]
  rw [runScript_of_pending hpending, State.runScript, hlength]
  exact core_run_of_step hstep _

/-- A command that a decompressor unit answers, whatever the rest of the engine is, goes on to the rest of the script. -/
theorem runScript_answered {d d' : DU} {i : Instr} {is : List Instr} {st : Status} {r : Result}
    (hd : s.units[k]? = some (.du d)) (hi : i.commandUnit = some .du)
    (hexec : ∀ s : State, s.unit? = some (.du d) → exec i s = .next (s.answer (.du d') st r)) :
    ∃ t : State, t.units[k]? = some (.du d') ∧ t.out.head? = some ⟨k, st, d'.statusWord, r⟩ ∧
      s.runScript (script k (i :: is)) = t.runScript (script k is) :=
  ⟨_, answer_unit? (s := s.take k _) hd, rfl, runScript_of_exec hd hi (hexec (s.take k _) hd)⟩

/-- DECOMPRESS answers the values that decoding the bytes over and over gives, on a unit in whatever state (R88, R138). -/
theorem decompress_of_decodesTo {d d' : DU} {vs : List U64} (hd : s.units[k]? = some (.du d))
    (hto : DecodesTo DU.xorDecode (d.refresh.bind b) vs d') :
    ∃ t', s.runScript (decompressScript k b) = .next t' ∧ t'.out.head? = some ⟨k, .ok, d'.statusWord, .values vs⟩ := by
  obtain ⟨s1, hd1, -, hrun1⟩ := runScript_answered hd rfl (i := .refreshDU) fun s => refreshRestoresTheSession.2 s d
  obtain ⟨s2, hd2, -, hrun2⟩ := runScript_answered hd1 rfl (i := .setBytes b) fun s hu =>
    (setBytesBindsTheSource s _ b hu).1 rfl
  obtain ⟨s3, -, hout, hrun3⟩ := runScript_answered hd2 rfl (i := .decompX) (is := []) fun s hu =>
    (decompXCollectsTheValues s _ hu rfl).1 vs d' hto
  exact ⟨_, hrun1.trans (hrun2.trans hrun3), hout⟩

end

/-- A refreshed unit with a source bound stands where a compressor unit fresh from reset does. -/
theorem follows_reset {d : DU} {g : CUConfig} (b : List Byte) (hvariant : d.cfg.variant = g.variant)
    (hleadCode : d.cfg.leadCode = g.leadCode) : (d.refresh.bind b).Follows (.reset g) :=
  ⟨⟨hvariant, hleadCode, rfl⟩, rfl⟩

/-- DUSTAT after a block: bound and ended, no fault, a value taken (R35). -/
theorem statusWord_endedWith {d : DU} {c : CU} (b : List Byte) (hfirst : c.session.first = false) :
    ((d.refresh.bind b).endedWith c).statusWord = 0x03#8 := by
  have hstatus : ((d.refresh.bind b).endedWith c).statusWord =
      faultField none ++ BitVec.ofBool c.session.first ++ BitVec.ofBool false ++ BitVec.ofBool true ++ BitVec.ofBool true :=
    rfl
  rw [hstatus, hfirst]
  rfl

/-- Settles O55: COMPRESS has written the codes of the values and of the sentinel from the reset session on, and DECOMPRESS
starts in that session at the first of them. -/
theorem decompressInvertsCompress : Obligations.DecompressInvertsCompress := by
  intro s t j k c d vs stat b hc hd hvariant hendSign hleadCode hdata hcompress hout
  have hkj : k ≠ j := by
    rintro rfl
    cases hc.symm.trans hd
  have hcommands : ∀ i ∈ .refreshCU :: (vs.map Instr.addValue ++ [.close, .getBuf]), i.commandUnit = some .cu :=
    List.forall_mem_cons.mpr ⟨rfl, fun i hi => (addValues_withinBlock closing_withinBlock i hi).commandUnit⟩
  have hdt : t.units[k]? = some (.du d) := (runScript_others hkj hc hcommands hcompress).trans hd
  obtain ⟨s0, hs0, hblock⟩ := runScript_refresh hc hcompress
  have hopen := cu_reset_openInv c.cfg
  obtain ⟨c1, c2, n, htakes, hend, hbytes⟩ := takes_of_bytes hs0 hopen hblock hout
  obtain ⟨-, hopen1, -⟩ := htakes.frame hopen
  obtain ⟨-, hfirst⟩ := append_openInv hopen1 hend
  have hto : DecodesTo DU.xorDecode (d.refresh.bind b) vs ((d.refresh.bind b).endedWith c2) :=
    decodesTo_of_takes htakes (hendSign ▸ hend) hopen (follows_reset b hvariant hleadCode) hbytes (hendSign ▸ hdata)
  exact statusWord_endedWith b hfirst ▸ decompress_of_decodesTo hdt hto

end Sys2Proof.Machine
end

section
/-! PROOFS. The CHIMP codes run on a decompressor unit (spec/45_chimp_decompress.md R150 to R155): what running a code delivers,
how long each code is, and the session that it leaves. -/

namespace Sys2Proof.Machine

/-! ### Running a code that stands whole in the source (R136, log 10) -/

section
variable {s : State} {d : DU} {i : Instr}

/-- Executing a code that stands whole in the source delivers its value or END (R136). -/
theorem finishDecoded_execute (s : State) (hroom : d.rpos + d.lengthOf i ≤ 8 * d.len) :
    s.finishDecoded d (d.execute i) = .next (s.delivered d (d.lengthOf i) (codeNext i d.session)) := by
  rcases execute_cases d i with ⟨hshort, -⟩ | ⟨-, ⟨hend, hexecute⟩ | ⟨hvalue, hexecute⟩⟩
  · omega
  · rw [hexecute, State.delivered, if_pos hend]
    rfl
  · rw [hexecute, State.delivered, if_neg hvalue]
    rfl

/-- A legal code of either variant, run at its place on a unit that accepts value commands, with all its bits in the source:
what it delivers, from its length and the session that it leaves. -/
theorem exec_code_delivers {n : Nat} {x : Session} (hu : s.unit? = some (.du d)) (hready : d.ready = true)
    (hplace : i.codePlace = some (d.cfg.variant, d.session.first)) (hcheck : codeCheck i d.session = none)
    (hlength : d.lengthOf i = n) (hnext : codeNext i d.session = x) (hroom : d.rpos + n ≤ 8 * d.len) :
    exec i s = .next (s.delivered d n x) := by
  subst hlength hnext
  calc exec i s
    _ = runCode i s := exec_eq_runCode s (by simp [hplace])
    _ = s.finishDecoded d (d.execute i) := runCode_du hu hready hplace hcheck
    _ = .next (s.delivered d (d.lengthOf i) (codeNext i d.session)) := finishDecoded_execute s hroom

end

/-! ### The lengths of the CHIMP codes (R63 to R67, R80) -/

section
variable (lc : LeadingRepresentation) (lead : Option Bucket) (trail : Option (Fin 64))

@[simp] theorem codeLength_chimpFirst (raw : U64) : codeLength lc lead trail (.chimpFirst raw) = 64 := rfl

@[simp] theorem codeLength_chimpSame : codeLength lc lead trail .chimpSame = 2 := rfl

@[simp] theorem codeLength_chimpTrail (lz : Bucket) (sig : BitVec 6) (payload : U64) :
    codeLength lc lead trail (.chimpTrail lz sig payload) = 11 + sig.toNat := by
  simp only [codeLength, codeFields, fieldLength_cons, fieldLength_nil]
  omega

@[simp] theorem codeLength_chimpReuse (b : Bucket) (payload : U64) :
    codeLength lc (some b) trail (.chimpReuse payload) = 2 + (64 - bucketCount b) := rfl

@[simp] theorem codeLength_chimpNewLead (lz : Bucket) (payload : U64) :
    codeLength lc lead trail (.chimpNewLead lz payload) = 5 + (64 - bucketCount lz) := by
  simp only [codeLength, codeFields, fieldLength_cons, fieldLength_nil, belowLead]
  omega

end

/-! ### The field values that are legal (R82, R89) -/

theorem chimpTrailCheck_eq_none {lz : Bucket} {sig : BitVec 6} {payload : U64} (hpos : 1 ≤ sig.toNat)
    (hwidth : bucketCount lz + sig.toNat ≤ 64) (hpayload : payload.toNat < 2 ^ sig.toNat) :
    chimpTrailCheck lz sig payload = none := by
  rw [chimpTrailCheck, if_neg (Nat.one_le_iff_ne_zero.mp hpos), if_neg (Nat.not_lt.mpr hwidth),
    if_pos ((fits_iff ..).mpr hpayload)]

theorem chimpReuseCheck_eq_none {x : Session} {b : Bucket} {payload : U64} (hlead : x.lead = some b)
    (hpayload : payload.toNat < 2 ^ (64 - bucketCount b)) : chimpReuseCheck payload x = none := by
  simp only [chimpReuseCheck, hlead, if_pos ((fits_iff payload (belowLead (bucketCount b))).mpr hpayload)]

theorem chimpNewLeadCheck_eq_none {lz : Bucket} {payload : U64} (hpayload : payload.toNat < 2 ^ (64 - bucketCount lz)) :
    chimpNewLeadCheck lz payload = none :=
  if_pos ((fits_iff ..).mpr hpayload)

/-! ### The session after a later code of a block (R152 to R155) -/

section
variable {x : Session} (hfirst : x.first = false)
include hfirst

/-- After the first code of a block, taking a value writes `storedVal` alone (R136). -/
theorem took_of_not_first (v : U64) : x.took v = { x with storedVal := v } := by
  rw [Session.took, ← hfirst]

theorem chimpSameNext_of_not_first : chimpSameNext x = { x with lead := none } := by
  rw [chimpSameNext, took_of_not_first hfirst]

theorem chimpTrailNext_of_not_first (lz : Bucket) (sig : BitVec 6) (payload : U64) :
    chimpTrailNext lz sig payload x =
      { x with storedVal := x.storedVal ^^^ payload <<< (64 - bucketCount lz - sig.toNat), lead := none } := by
  rw [chimpTrailNext, took_of_not_first hfirst, placed, trailOf]

theorem chimpReuseNext_of_not_first (payload : U64) :
    chimpReuseNext payload x = { x with storedVal := x.storedVal ^^^ payload } :=
  took_of_not_first hfirst _

theorem chimpNewLeadNext_of_not_first (lz : Bucket) (payload : U64) :
    chimpNewLeadNext lz payload x = { x with storedVal := x.storedVal ^^^ payload, lead := some lz } := by
  rw [chimpNewLeadNext, took_of_not_first hfirst]

end

/-- Settles O33: each code is legal at its place, so that running it delivers what its decode rule says. -/
theorem chimpCodesExecute : Obligations.ChimpCodesExecute := by
  intro s d hu hready hvariant
  have hplace {first : Bool} (hfirst : d.session.first = first) :
      some (Variant.chimp, first) = some (d.cfg.variant, d.session.first) := by rw [hvariant, hfirst]
  refine ⟨fun raw hfirst hroom => ?first, fun hfirst hroom => ?same,
    fun lz sig p hfirst hpos hwidth hpayload hroom => ?trail, fun b p hfirst hlead hpayload hroom => ?reuse,
    fun lz p hfirst hpayload hroom => ?newLead⟩
  case first => exact exec_code_delivers hu hready (hplace hfirst) rfl (codeLength_chimpFirst ..) rfl hroom
  case same =>
    exact exec_code_delivers hu hready (hplace hfirst) rfl (codeLength_chimpSame ..) (chimpSameNext_of_not_first hfirst) hroom
  case trail =>
    exact exec_code_delivers hu hready (hplace hfirst) (chimpTrailCheck_eq_none hpos hwidth hpayload)
      (codeLength_chimpTrail ..) (chimpTrailNext_of_not_first hfirst lz sig p) (by omega)
  case reuse =>
    have hlength : d.lengthOf (.chimpReuse p) = 2 + (64 - bucketCount b) := by rw [DU.lengthOf, hlead, codeLength_chimpReuse]
    exact exec_code_delivers hu hready (hplace hfirst) (chimpReuseCheck_eq_none hlead hpayload) hlength
      (chimpReuseNext_of_not_first hfirst p) (by omega)
  case newLead =>
    exact exec_code_delivers hu hready (hplace hfirst) (chimpNewLeadCheck_eq_none hpayload) (codeLength_chimpNewLead ..)
      (chimpNewLeadNext_of_not_first hfirst lz p) (by omega)

end Sys2Proof.Machine
end

section
/-! PROOFS. The ELF codes run on a decompressor unit (spec/46_elf_decompress.md R160 to R165): how long each code is, which field
values are legal, and the session that each code leaves. -/

namespace Sys2Proof.Machine

/-! ### The lengths of the ELF codes (R68 to R72, R80) -/

section
variable (lc : LeadingRepresentation) (lead : Option Bucket) (trail : Option (Fin 64))

@[simp] theorem codeLength_elfFirst (tz7 : BitVec 7) (payload : U64) :
    codeLength lc lead trail (.elfFirst tz7 payload) = 7 + (64 - tz7.toNat) := rfl

@[simp] theorem codeLength_elfSame : codeLength lc lead trail .elfSame = 2 := rfl

@[simp] theorem codeLength_elfNewShort (lz : Bucket) (cb4 : BitVec 4) (payload : U64) :
    codeLength lc lead trail (.elfNewShort lz cb4 payload) = 9 + centreOf4 cb4 := rfl

@[simp] theorem codeLength_elfNewLong (lz : Bucket) (cb6 : BitVec 6) (payload : U64) :
    codeLength lc lead trail (.elfNewLong lz cb6 payload) = 11 + centreOf6 cb6 := rfl

end

/-! ### The field values that are legal (R82, R89) -/

theorem elfFirstCheck_eq_none {tz7 : BitVec 7} {payload : U64} (hcount : tz7.toNat ≤ 64)
    (hpayload : payload.toNat < 2 ^ (64 - tz7.toNat)) : elfFirstCheck tz7 payload = none := by
  rw [elfFirstCheck, if_neg (Nat.not_lt.mpr hcount), if_pos ((fits_iff ..).mpr hpayload)]

theorem elfReuseCheck_eq_none {x : Session} {b : Bucket} {t : Fin 64} {payload : U64} (hlead : x.lead = some b)
    (htrail : x.trail = some t) (hpayload : payload.toNat < 2 ^ windowCentre b t) : elfReuseCheck payload x = none := by
  simp only [elfReuseCheck, hlead, htrail, if_pos ((fits_iff ..).mpr hpayload)]

theorem elfNewShortCheck_eq_none {cb4 : BitVec 4} {payload : U64} (hpayload : payload.toNat < 2 ^ centreOf4 cb4) :
    elfNewShortCheck cb4 payload = none :=
  if_pos ((fits_iff ..).mpr hpayload)

theorem elfNewLongCheck_eq_none {lz : Bucket} {cb6 : BitVec 6} {payload : U64} (hwidth : bucketCount lz + centreOf6 cb6 ≤ 64)
    (hpayload : payload.toNat < 2 ^ centreOf6 cb6) : elfNewLongCheck lz cb6 payload = none := by
  rw [elfNewLongCheck, if_neg (Nat.not_lt.mpr hwidth), if_pos ((fits_iff ..).mpr hpayload)]

/-! ### The session after a later code of a block (R162 to R165) -/

/-- ELF.SAME after the first code of a block writes no register (R162). -/
theorem elfSameNext_of_not_first {x : Session} (hfirst : x.first = false) : elfSameNext x = x :=
  took_of_not_first hfirst x.storedVal

/-- ELF.REUSE writes `storedVal` alone: the remembered trailing count says where the payload stands (R163). -/
theorem elfReuseNext_of_not_first {x : Session} {t : Fin 64} (hfirst : x.first = false) (htrail : x.trail = some t)
    (payload : U64) : elfReuseNext payload x = { x with storedVal := x.storedVal ^^^ payload <<< t.val } := by
  simp only [elfReuseNext, htrail, took_of_not_first hfirst, placed]

/-- A code that opens a window writes every register (R164, R165). -/
theorem elfWindowNext_eq (lz : Bucket) (cb : Nat) (payload : U64) (x : Session) :
    elfWindowNext lz cb payload x =
      ⟨x.storedVal ^^^ payload <<< (64 - bucketCount lz - cb), some lz, some (Fin.ofNat 64 (64 - bucketCount lz - cb)), false⟩ :=
  rfl

/-- Settles O34: each code is legal at its place, so that running it delivers what its decode rule says. -/
theorem elfCodesExecute : Obligations.ElfCodesExecute := by
  intro s d hu hready hvariant
  have hplace {first : Bool} (hfirst : d.session.first = first) :
      some (Variant.elf, first) = some (d.cfg.variant, d.session.first) := by rw [hvariant, hfirst]
  refine ⟨fun tz7 p hfirst hcount hpayload hroom => ?first, fun hfirst hroom => ?same,
    fun b t p hfirst hlead htrail hpayload hroom => ?reuse, fun lz cb4 p hfirst hpayload hroom => ?newShort,
    fun lz cb6 p hfirst hwidth hpayload hroom => ?newLong⟩
  case first =>
    exact exec_code_delivers hu hready (hplace hfirst) (elfFirstCheck_eq_none hcount hpayload) (codeLength_elfFirst ..) rfl
      (by omega)
  case same =>
    exact exec_code_delivers hu hready (hplace hfirst) rfl (codeLength_elfSame ..) (elfSameNext_of_not_first hfirst) hroom
  case reuse =>
    have hlength : d.lengthOf (.elfReuse p) = 2 + (64 - bucketCount b - t.val) := by
      rw [DU.lengthOf, hlead, htrail, codeLength_elfReuse, windowCentre]
    exact exec_code_delivers hu hready (hplace hfirst) (elfReuseCheck_eq_none hlead htrail hpayload) hlength
      (elfReuseNext_of_not_first hfirst htrail p) (by omega)
  case newShort =>
    exact exec_code_delivers hu hready (hplace hfirst) (elfNewShortCheck_eq_none hpayload) (codeLength_elfNewShort ..)
      (elfWindowNext_eq lz (centreOf4 cb4) p d.session) (by omega)
  case newLong =>
    exact exec_code_delivers hu hready (hplace hfirst) (elfNewLongCheck_eq_none hwidth hpayload) (codeLength_elfNewLong ..)
      (elfWindowNext_eq lz (centreOf6 cb6) p d.session) (by omega)

end Sys2Proof.Machine
end

section
/-! PROOFS. The orchestrator on a decompressor unit (spec/47_elf_orchestrator.md R170 to R178): what decoding a mode mark and
the code behind it answers, the stages of the reconstruction, and the commands NEXTVALUE and DECOMPE. -/

namespace Sys2Proof.Machine

/-! ### DECOMPE (R176) -/

/-- Settles O36: within its fuel DECOMPE does what decoding marks and codes over and over does. -/
theorem decompECollectsTheValues : Obligations.DecompECollectsTheValues := by
  intro s d hu hready
  have hexec : exec .decompE s = s.finishValues d (decompLoop DU.orchDecode d.decodeBound d) :=
    (onDU_du hu _).trans (if_pos hready)
  refine ⟨fun vs d' hto => ?_, fun f hinto => ?_⟩
  · rw [hexec, decompLoop_of_decodesTo orchDecode_takesTwoBits (fuelled_decodeBound d) hto]
    rfl
  · rw [hexec, decompLoop_of_decodesInto orchDecode_takesTwoBits (fuelled_decodeBound d) hinto]
    rfl

/-! ### The mark at the cursor (R170) -/

/-- Decoding a mark has no other error than that the stream ends in it: every bit string of its length is a mark (R196). -/
theorem decodeMode_error {bs : List Bool} {e : DecodeError} (h : decodeMode bs = .error e) : e = .streamEnds := by
  by_contra hne
  have herror : (Except.error e : Except DecodeError (Instr × List Bool)) ≠ .error .streamEnds := by simpa using hne
  obtain ⟨flag, bs, -, -, hmode⟩ := takeField_bind_inv (le_refl 1) herror h
  dsimp only at hmode
  split_ifs at hmode
  obtain ⟨betaStar, bs, -, -, hdec⟩ := takeField_bind_inv (le_refl 4) herror hmode
  cases hdec

section
variable {d : DU} {rest : List Bool}

/-- A mark that is decoded stands whole in the source (R91). -/
theorem decodeMode_room {i : Instr} (h : decodeMode d.stream = .ok (i, rest)) : d.rpos + d.lengthOf i ≤ 8 * d.len := by
  obtain ⟨hmark, hstream⟩ := decodeMode_ok_inv h
  have hlength : 8 * d.len - d.rpos = d.lengthOf i + rest.length := by
    rw [← stream_length, hstream d.cfg.leadCode d.session.lead d.session.trail, List.length_append,
      codeBits_length, DU.lengthOf]
  have hpos : 0 < d.lengthOf i := by
    rcases hmark with rfl | ⟨betaStar, rfl⟩
    · exact Nat.one_pos
    · exact Nat.succ_pos 4
  omega

theorem orchDecode_eq_runMode {i : Instr} (h : decodeMode d.stream = .ok (i, rest)) : d.orchDecode = d.runMode i := by
  simp only [DU.orchDecode, h]

/-- Behind mark 0 the orchestrator's decode is the XOR layer's (R171). -/
theorem orchDecode_raw (h : decodeMode d.stream = .ok (.orchRaw, rest)) : d.orchDecode = (d.advance 1).xorDecode :=
  (orchDecode_eq_runMode h).trans (if_neg (Nat.not_lt.mpr (decodeMode_room h)))

/-- Behind mark 1 and betaStar it is the decimal mode (R172). -/
theorem orchDecode_dec {betaStar : BitVec 4} (h : decodeMode d.stream = .ok (.orchDec betaStar, rest)) :
    d.orchDecode = (d.advance 5).decimalMode betaStar :=
  (orchDecode_eq_runMode h).trans (if_neg (Nat.not_lt.mpr (decodeMode_room h)))

end

/-! ### The code behind the mark (R136, R172) -/

section
variable {d : DU} {i : Instr} {e : DecodeError}

theorem decodeFault_eq (e : DecodeError) : decodeFault e = if e = .streamEnds then .streamError else .malformedCode := by
  cases e <;> rfl

theorem xorDecode_of_fetchCode_error (h : d.fetchCode = .error e) : d.xorDecode = .error (decodeFault e) := by
  simp only [DU.xorDecode, h]

theorem decimalMode_of_fetchCode_error (h : d.fetchCode = .error e) (betaStar : BitVec 4) :
    d.decimalMode betaStar = .error (decodeFault e) := by
  simp only [DU.decimalMode, xorDecode_of_fetchCode_error h]

/-- The decimal mode of a code that stands at the cursor: the sentinel is END, any other pattern the proxy of the reconstructed
value, and the session is the code's in both cases (R172, R175, R200). -/
theorem decimalMode_of_fetchCode (h : d.fetchCode = .ok i) (betaStar : BitVec 4) :
    d.decimalMode betaStar =
      if (codeNext i d.session).storedVal = d.cfg.endSign then
        .ok (.eos, d.afterEnd (d.lengthOf i) (codeNext i d.session))
      else (reconstruct d.cfg betaStar (codeNext i d.session).storedVal).elim (.error .reconDomain) fun v =>
        .ok (.value v, d.afterValue (d.lengthOf i) (codeNext i d.session)) := by
  simp only [DU.decimalMode, xorDecode_of_fetchCode h]
  by_cases hend : (codeNext i d.session).storedVal = d.cfg.endSign
  · simp only [if_pos hend]
  · simp only [if_neg hend]
    cases reconstruct d.cfg betaStar (codeNext i d.session).storedVal <;> rfl

/-- The unit from which a decode set out matters to the answer only when it is to take a fault. -/
theorem finishDecoded_of_ok (s : State) (d d1 : DU) (r : Decoded × DU) :
    s.finishDecoded d (.ok r) = s.finishDecoded d1 (.ok r) := by
  obtain ⟨_ | _, _⟩ := r <;> rfl

/-- Answering with a code that stands behind n bits delivers its value or END (R136). -/
theorem finishDecoded_advance_xorDecode {n : Nat} (s : State) (h : (d.advance n).fetchCode = .ok i) :
    s.finishDecoded d (d.advance n).xorDecode =
      .next (s.delivered (d.advance n) (d.lengthOf i) (codeNext i d.session)) := by
  refine Eq.trans ?_ (finishDecoded_xorDecode s h)
  rw [xorDecode_of_fetchCode h]
  split_ifs <;> exact finishDecoded_of_ok ..

end

/-! ### NEXTVALUE, and the marks as instructions (R170, log 10) -/

section
variable {s : State} {d : DU} (hu : s.unit? = some (.du d)) (hready : d.ready = true)
include hu hready

theorem exec_nextValue_eq_finishDecoded : exec .nextValue s = s.finishDecoded d d.orchDecode :=
  (onDU_du hu _).trans (if_pos hready)

/-- Running the mark that stands at the cursor is NEXTVALUE. -/
theorem runMark_eq_nextValue {i : Instr} {rest : List Bool} (h : decodeMode d.stream = .ok (i, rest)) (v n : Nat) :
    runMark i v n s = exec .nextValue s := by
  rw [exec_nextValue_eq_finishDecoded hu hready, orchDecode_eq_runMode h]
  simp only [runMark, hu, hready, if_true]

end

/-- Settles O38: behind mark 0 stands a code that the XOR layer delivers. -/
theorem rawModePassesThePatternThrough : Obligations.RawModePassesThePatternThrough := by
  intro s d rest i hu hready hmode hfetch
  refine ⟨?_, runMark_eq_nextValue hu hready hmode 0 1⟩
  calc exec .nextValue s
    _ = s.finishDecoded d (d.advance 1).xorDecode := by
      rw [exec_nextValue_eq_finishDecoded hu hready, orchDecode_raw hmode]
    _ = .next (s.delivered (d.advance 1) (d.lengthOf i) (codeNext i d.session)) :=
      finishDecoded_advance_xorDecode s hfetch

/-- Settles O39: the three outcomes of the decimal mode, for the sentinel, a proxy in the domain and one outside it. -/
theorem decimalModeReconstructsTheValue : Obligations.DecimalModeReconstructsTheValue := by
  intro s d rest betaStar i x hu hready hmode hfetch hx
  subst hx
  have hnext : exec .nextValue s = s.finishDecoded d ((d.advance 5).decimalMode betaStar) := by
    rw [exec_nextValue_eq_finishDecoded hu hready, orchDecode_dec hmode]
  rw [decimalMode_of_fetchCode hfetch, advance_session, advance_cfg] at hnext
  refine ⟨runMark_eq_nextValue hu hready hmode _ 5, fun hend => ?sentinel, fun v hproxy hvalue => ?inDomain,
    fun hproxy hnone => ?outside⟩
  case sentinel =>
    rw [hnext, if_pos hend, State.delivered, advance_cfg, if_pos hend]
    rfl
  case inDomain =>
    rw [hnext, if_neg hproxy, hvalue]
    rfl
  case outside =>
    rw [hnext, if_neg hproxy, hnone]
    rfl

/-- Settles O40: each of the three decodes is an error, and NEXTVALUE takes its fault. -/
theorem nextValueFaultsOnABadStream : Obligations.NextValueFaultsOnABadStream := by
  intro s d hu hready
  have hnext := exec_nextValue_eq_finishDecoded hu hready
  refine ⟨fun e hmode => ?noMark, fun rest e hmode hfetch => ?raw, fun rest betaStar e hmode hfetch => ?dec⟩
  case noMark =>
    have hdecode : d.orchDecode = .error .streamError := by
      simp only [DU.orchDecode, hmode, decodeMode_error hmode, decodeFault]
    rw [hnext, hdecode]
    rfl
  case raw =>
    rw [hnext, orchDecode_raw hmode, xorDecode_of_fetchCode_error hfetch, decodeFault_eq]
    rfl
  case dec =>
    rw [hnext, orchDecode_dec hmode, decimalMode_of_fetchCode_error hfetch, decodeFault_eq]
    rfl

/-! ### The stages of the reconstruction (R172 to R174, R178, R179) -/

theorem inP10Range_iff {n : Int} : inP10Range n = true ↔ -323 ≤ n ∧ n ≤ 308 := by
  simp [inP10Range]

theorem regular_iff {p : U64} : regular p = true ↔ expField p ≠ 2047 ∧ p.toNat % 2 ^ 63 ≠ 0 := by
  simp [regular]

section
variable {g : DUConfig} {b : BitVec 4} {p : U64}

/-- A proxy that is NaN, infinite or zero has no reconstruction (R179). -/
theorem reconstruct_of_not_regular (h : ¬ regular p = true) : reconstruct g b p = none :=
  if_neg h

/-- betaStar 0 takes the power-of-ten path (R173). -/
theorem reconstruct_zero (h : regular p = true) :
    reconstruct g 0 p = reconPowerOfTen g p (getSP g.getSP (absPattern p)) :=
  (if_pos h).trans (if_pos rfl)

/-- Any other betaStar takes the rounding path (R174). -/
theorem reconstruct_of_ne_zero (h : regular p = true) (hb : b ≠ 0) :
    reconstruct g b p = reconRound g p (getSP g.getSP (absPattern p)) b :=
  (if_pos h).trans (if_neg hb)

end

/-- Settles O51: the domain of the proxy, then the path that betaStar chooses and the range of its exponent. -/
theorem reconstructionFollowsThePipeline : Obligations.ReconstructionFollowsThePipeline := by
  rintro g b p sp rfl
  refine ⟨fun hout => ?outside, fun hfinite hnonzero hb => ?powerOfTen, fun hfinite hnonzero hb => ?rounded⟩
  case outside =>
    refine reconstruct_of_not_regular fun hregular => ?_
    obtain ⟨hfinite, hnonzero⟩ := regular_iff.mp hregular
    exact hout.elim hfinite hnonzero
  case powerOfTen =>
    subst hb
    rw [reconstruct_zero (regular_iff.mpr ⟨hfinite, hnonzero⟩)]
    exact ⟨fun hrange => if_pos (inP10Range_iff.mpr hrange), fun hrange => if_neg (mt inP10Range_iff.mp hrange)⟩
  case rounded =>
    rw [reconstruct_of_ne_zero (regular_iff.mpr ⟨hfinite, hnonzero⟩) hb]
    exact ⟨fun hrange => if_pos (inP10Range_iff.mpr hrange), fun hrange => if_neg (mt inP10Range_iff.mp hrange)⟩

end Sys2Proof.Machine
end

section
/-! PROOFS. Reset and REFRESH (spec/70_reset_and_hazards.md R220, R221), and what a step does with nothing issued. -/

namespace Sys2Proof.Machine

/-- Every unit that the engine has after reset is as reset leaves it. -/
theorem state_reset_units {u : CodecUnit} (h : u ∈ State.reset.units) :
    (∃ g, u = .cu (.reset g)) ∨ ∃ g, u = .du (.reset g) := by
  simp only [State.reset, List.mem_cons, List.not_mem_nil, or_false] at h
  rcases h with rfl | rfl | rfl | rfl
  · exact .inl ⟨_, rfl⟩
  · exact .inr ⟨_, rfl⟩
  · exact .inl ⟨_, rfl⟩
  · exact .inr ⟨_, rfl⟩

/-- DUSTAT of a refreshed unit: only `first` and `bound` can be set (R35, R139). -/
theorem du_refresh_statusWord (d : DU) : d.refresh.statusWord = 0b00001000#8 ||| (if d.bound then 1#8 else 0#8) := by
  have hword : d.refresh.statusWord =
      faultField none ++ BitVec.ofBool true ++ BitVec.ofBool false ++ BitVec.ofBool false ++ BitVec.ofBool d.bound := rfl
  rw [hword]
  cases d.bound <;> rfl

/-- Settles O1: every element by its definition; the status words of a reset and of a refreshed unit by their lemmas. -/
theorem resetAndRefreshLeaveTheTabledValues : Obligations.ResetAndRefreshLeaveTheTabledValues :=
  ⟨fun g => ⟨rfl, rfl, rfl, rfl, rfl, rfl, rfl, rfl, fun _ => rfl, cu_reset_statusWord g⟩,
    fun _ => ⟨rfl, rfl⟩,
    fun g => ⟨rfl, rfl, rfl, rfl, rfl, rfl, rfl, rfl, rfl, rfl, rfl, rfl, du_reset_statusWord g⟩,
    fun d => ⟨rfl, rfl, rfl, rfl, rfl, rfl, rfl, rfl, rfl, rfl, rfl, rfl, du_refresh_statusWord d⟩⟩

/-- Settles O2: the four units of the engine are reset units. -/
theorem resetEngineMeetsTheInvariant : Obligations.ResetEngineMeetsTheInvariant := by
  intro u hu
  rcases state_reset_units hu with ⟨g, rfl⟩ | ⟨g, rfl⟩
  · exact (cu_reset_openInv g).inv
  · exact du_reset_inv g

/-- Settles O5: the arms of a step in which no command is run. -/
theorem stepWaitsOrResets : Obligations.StepWaitsOrResets := by
  refine ⟨fun s hempty => ?waits, fun s k rest u hpending hunit => ?resets⟩
  case waits => simp only [step, hempty]
  case resets =>
    have htake : (s.take k rest).unit? = some u := hunit
    simp only [step, hpending, State.runReset, htake]
    rfl

end Sys2Proof.Machine
end

section
/-! PROOFS. Refusals and faults (spec/60_exceptions.md R197, R198, R202 to R207): which commands are refused, what taking a
terminal fault defines, and how a unit leaves its fault state. -/

namespace Sys2Proof.Machine

/-! ### The commands that a port lists (R85) -/

/-- REFRESH, as the command of a unit's kind. -/
def refreshCommand : UnitKind → Instr
  | .cu => .refreshCU
  | .du => .refreshDU

/-- What a port's command decodes to is a command of the unit's kind, and is REFRESH exactly for the code 3. -/
theorem decodeCommand_ok {k : UnitKind} {c : Command} {i : Instr} (h : decodeCommand k c = .ok i) :
    i.commandUnit = some k ∧ (i = refreshCommand k ↔ c.cmd = 0x3) := by
  obtain ⟨hcu, hdu, -⟩ := commandCodesAreTheTabledOnes
  cases k with
  | cu =>
    rw [hcu] at h
    split_ifs at h with h1 h2 h3 h4 h5 <;> cases h <;> simp [Instr.commandUnit, refreshCommand, *]
  | du =>
    rw [hdu] at h
    split_ifs at h with h3 h8 h9 hA hB hC <;> cases h <;> simp [Instr.commandUnit, refreshCommand, *]

theorem decodeCommand_refresh {k : UnitKind} {c : Command} (h : c.cmd = 0x3) :
    decodeCommand k c = .ok (refreshCommand k) := by
  obtain ⟨hcu, hdu, -⟩ := commandCodesAreTheTabledOnes
  cases k with
  | cu => rw [hcu, h]; rfl
  | du => rw [hdu, h]; rfl

/-- REFRESH is answered with the refreshed unit, whatever state the unit is in (R102, R139). -/
theorem exec_refreshCommand {s : State} {u : CodecUnit} (hu : s.unit? = some u) :
    exec (refreshCommand u.kind) s = .next (s.answer u.refreshed .ok .none) := by
  obtain ⟨hcu, hdu⟩ := refreshRestoresTheSession
  cases u with
  | cu c => exact hcu s c hu
  | du d => exact hdu s d hu

/-! ### The causes of a refusal (R197) -/

theorem ready_eq_false_iff {d : DU} : d.ready = false ↔ (d.faulted || !d.bound || d.ended) = true := by
  cases hf : d.faulted <;> cases hb : d.bound <;> cases he : d.ended <;> simp [DU.ready, hf, hb, he]

/-- On a listed cause a command is refused (R197, R204). -/
theorem exec_of_refusedOn {s : State} {u : CodecUnit} {i : Instr} (hu : s.unit? = some u) (h : i.refusedOn u = true) :
    exec i s = .next (s.refuse u) := by
  cases u with
  | cu c =>
    cases i with
    | addValue | close => exact (onCU_cu hu _).trans (if_neg (of_decide_eq_true h))
    | getBuf => exact execGetBuf_notClosed hu (of_decide_eq_true h)
    | putBitsCommand v n =>
      rw [execPutBitsCommand_cu hu]
      rcases putBitsOn_cases s c v.toNat n.toNat with ⟨-, hrefuse⟩ | ⟨hphase, hn, hv, -⟩
      · exact hrefuse
      · simp [Instr.refusedOn, hphase, Nat.not_lt.mpr hn, Nat.not_le.mpr hv] at h
    | setBytes | readValue | nextValue | decompX | decompE | refreshDU => exact onDU_cu hu _
    | _ => cases h
  | du d =>
    cases i with
    | setBytes b => exact (onDU_du hu _).trans (if_pos h)
    | readValue | nextValue | decompX | decompE =>
      have hready : ¬ d.ready = true := by simpa using ready_eq_false_iff.mpr h
      exact (onDU_du hu _).trans (if_neg hready)
    | addValue | close | refreshCU | putBitsCommand | getBuf => exact onCU_du hu _
    | _ => cases h

/-- An outcome that is no refusal by the unit: if the run goes on, the latest response has another status (R86). -/
def NoRefusal (r : StepResult) : Prop :=
  ∀ t, r = .next t → ∀ x ∈ t.out.head?, x.status ≠ .refused

theorem noRefusal_answer (s : State) (u : CodecUnit) {st : Status} (r : Result) (h : st ≠ .refused) :
    NoRefusal (.next (s.answer u st r)) := by
  rintro _ ⟨⟩ x hx
  cases hx
  exact h

theorem noRefusal_raise (s : State) (u : CodecUnit) (f : TerminalFault) : NoRefusal (.next (s.raise u f)) := by
  rintro _ ⟨⟩ x hx
  cases hx
  simp

theorem not_noRefusal_refuse (s : State) (u : CodecUnit) : ¬ NoRefusal (.next (s.refuse u)) :=
  fun h => h _ rfl _ rfl rfl

theorem noRefusal_finishBits (s : State) (c : CU) (r : Except TerminalFault (CU × Nat)) :
    NoRefusal (s.finishBits c r) := by
  rcases finishBits_cases s c r with ⟨c', n, -, h⟩ | ⟨f, -, h⟩ <;> rw [h]
  · exact noRefusal_answer _ _ _ (by simp)
  · exact noRefusal_raise _ _ _

theorem noRefusal_finishDecoded (s : State) (d : DU) (r : Except TerminalFault (Decoded × DU)) :
    NoRefusal (s.finishDecoded d r) := by
  rcases finishDecoded_cases s d r with ⟨v, d', -, h⟩ | ⟨d', -, h⟩ | ⟨f, -, h⟩ <;> rw [h]
  · exact noRefusal_answer _ _ _ (by simp)
  · exact noRefusal_answer _ _ _ (by simp)
  · exact noRefusal_raise _ _ _

theorem noRefusal_finishValues (s : State) (d : DU) (r : Except TerminalFault (List U64 × DU)) :
    NoRefusal (s.finishValues d r) := by
  rcases finishValues_cases s d r with ⟨vs, d', -, h⟩ | ⟨f, -, h⟩ <;> rw [h]
  · exact noRefusal_answer _ _ _ (by simp)
  · exact noRefusal_raise _ _ _

/-- A compressor command without a listed cause is not refused (R197). -/
theorem exec_cu_noRefusal {s : State} {c : CU} {i : Instr} (hu : s.unit? = some (.cu c))
    (hkind : i.commandUnit = some .cu) (h : i.refusedOn (.cu c) = false) : NoRefusal (exec i s) := by
  cases i with
  | addValue v =>
    rw [execAddValue_open hu (by simpa [Instr.refusedOn] using h)]
    exact noRefusal_finishBits _ _ _
  | close =>
    rw [execClose_open hu (by simpa [Instr.refusedOn] using h)]
    exact noRefusal_finishBits _ _ _
  | refreshCU =>
    rw [show exec .refreshCU s = _ from exec_refreshCommand hu]
    exact noRefusal_answer _ _ _ (by simp)
  | putBitsCommand v n =>
    rw [execPutBitsCommand_cu hu]
    rcases putBitsOn_cases s c v.toNat n.toNat with ⟨hcause, -⟩ | ⟨-, -, -, ⟨c', -, hput⟩ | ⟨-, hput⟩⟩
    · simp only [Instr.refusedOn, Bool.or_eq_false_iff, decide_eq_false_iff_not, not_not, not_lt, not_le] at h
      obtain ⟨⟨hphase, hn⟩, hv⟩ := h
      exact absurd hcause (by simp [hphase, hn, hv])
    · rw [hput]
      exact noRefusal_answer _ _ _ (by simp)
    · rw [hput]
      exact noRefusal_raise _ _ _
  | getBuf =>
    intro t ht
    rcases execGetBuf_next hu ht with ⟨hphase, -⟩ | ⟨-, b, -, rfl⟩
    · simp [Instr.refusedOn, hphase] at h
    · exact noRefusal_answer s (.cu c) _ (by simp) _ rfl
  | _ => cases hkind

/-- A decompressor command without a listed cause is not refused (R197). -/
theorem exec_du_noRefusal {s : State} {d : DU} {i : Instr} (hu : s.unit? = some (.du d))
    (hkind : i.commandUnit = some .du) (h : i.refusedOn (.du d) = false) : NoRefusal (exec i s) := by
  have hready (hcause : (d.faulted || !d.bound || d.ended) = false) : d.ready = true := by
    simpa [hcause] using (ready_eq_false_iff (d := d)).not
  cases i with
  | setBytes b =>
    rw [(setBytesBindsTheSource s d b hu).1 h]
    exact noRefusal_answer _ _ _ (by simp)
  | readValue =>
    rw [show exec .readValue s = _ from (onDU_du hu _).trans (if_pos (hready h))]
    exact noRefusal_finishDecoded _ _ _
  | nextValue =>
    rw [show exec .nextValue s = _ from (onDU_du hu _).trans (if_pos (hready h))]
    exact noRefusal_finishDecoded _ _ _
  | decompX =>
    rw [show exec .decompX s = _ from (onDU_du hu _).trans (if_pos (hready h))]
    exact noRefusal_finishValues _ _ _
  | decompE =>
    rw [show exec .decompE s = _ from (onDU_du hu _).trans (if_pos (hready h))]
    exact noRefusal_finishValues _ _ _
  | refreshDU =>
    rw [show exec .refreshDU s = _ from exec_refreshCommand hu]
    exact noRefusal_answer _ _ _ (by simp)
  | _ => cases hkind

/-- A command of the unit's kind is refused exactly on its listed cause (R197). -/
theorem exec_refuse_iff {s : State} {u : CodecUnit} {i : Instr} (hu : s.unit? = some u)
    (hkind : i.commandUnit = some u.kind) : exec i s = .next (s.refuse u) ↔ i.refusedOn u = true := by
  refine ⟨fun hexec => ?_, exec_of_refusedOn hu⟩
  by_contra hcause
  have hfree : i.refusedOn u = false := by simpa using hcause
  refine not_noRefusal_refuse s u (hexec ▸ ?_)
  cases u with
  | cu c => exact exec_cu_noRefusal hu hkind hfree
  | du d => exact exec_du_noRefusal hu hkind hfree

/-- Settles O41: a step runs what the command decodes to, which is refused on its listed cause, or refuses the code itself. -/
theorem refusalsAreTheTabledOnes : Obligations.RefusalsAreTheTabledOnes := by
  intro s c rest u hpending hunit
  have hu : (s.take c.unit rest).unit? = some u := hunit
  rw [step_command hpending]
  split
  next i hdecode =>
    rw [runCommand_ok hu hdecode]
    exact exec_refuse_iff hu (decodeCommand_ok hdecode).1
  next e hdecode => exact iff_true_intro (runCommand_error hu hdecode)

/-! ### Taking a terminal fault (R198, R202, R203) -/

/-- Settles O42: what fault entry defines, and the free values inside their types. -/
theorem faultEntrySetsTheFaultState : Obligations.FaultEntrySetsTheFaultState := by
  intro s u f _
  refine ⟨u.enterFault s.draws f, rfl, rfl, rfl, ?_, ?_⟩
  · rintro c rfl
    exact ⟨_, rfl, rfl, rfl, rfl, Nat.le_of_lt_succ (Nat.mod_lt _ (Nat.succ_pos _)), freeBuffer_wf _ _,
      freeBuffer_inside _ _⟩
  · rintro d rfl
    exact ⟨_, rfl, rfl, rfl, rfl, rfl, Nat.le_of_lt_succ (Nat.mod_lt _ (Nat.succ_pos _))⟩

/-- An appended code moves the cursor on by its length (R100). -/
theorem append_wpos {c c' : CU} {v : U64} {n : Nat} (h : c.append v = .ok (c', n)) : c'.wpos = c.wpos + n := by
  rw [append_eq_emit] at h
  rcases emit_cases c (c.chosen v) with ⟨c1, hput, he⟩ | he <;> rw [he] at h <;> cases h
  obtain ⟨-, -, -, -, hwpos, -⟩ := putFields_frame hput
  exact hwpos

/-- A value whose code does not fit the buffer overflows it (R198). -/
theorem append_overflow {c : CU} {v : U64} (hcursor : c.wpos ≤ 8 * c.bufBytes)
    (h : 8 * c.bufBytes < c.wpos + c.lengthOf (c.chosen v)) : c.append v = .error .bufferOverflow := by
  have hput : c.putFields _ = .error .bufferOverflow := putFields_overflow hcursor h
  rw [append_eq_emit, CU.emit, hput]

/-- So does a block whose sentinel code and guard bits do not fit: at the code, or at the guard bits (R198, R202). -/
theorem closeBlock_overflow {c : CU}
    (h : 8 * c.bufBytes < c.wpos + c.lengthOf (c.chosen c.cfg.endSign) + c.cfg.guardBits) :
    c.closeBlock = .error .bufferOverflow := by
  rcases closeBlock_cases c with ⟨c1, n, c2, happend, hguard, -⟩ | hclose
  · obtain ⟨hroom, -⟩ := putBits_ok_iff.mp hguard
    obtain ⟨-, hlength⟩ := append_ok_inv happend
    rw [append_wpos happend, CU.bufBytes, append_cfg happend, hlength] at hroom
    exact absurd h (Nat.not_lt.mpr hroom)
  · exact hclose

/-- Settles O43: the unit is open, and what ADDVALUE and CLOSE append overflows. -/
theorem codesPastTheBufferOverflow : Obligations.CodesPastTheBufferOverflow := by
  intro s c hu hphase hcursor
  refine ⟨fun v hover => ?addValue, fun hover => ?close⟩
  case addValue =>
    rw [execAddValue_open hu hphase, append_overflow hcursor hover]
    rfl
  case close =>
    rw [execClose_open hu hphase, closeBlock_overflow hover]
    rfl

/-! ### The fault state, and the ways out of it (R205, R207) -/

/-- In the fault state every command of the unit's kind but REFRESH has a listed cause of refusal. -/
theorem refusedOn_of_isFaulted {u : CodecUnit} {i : Instr} (hfault : u.isFaulted = true)
    (hkind : i.commandUnit = some u.kind) (hrefresh : i ≠ refreshCommand u.kind) : i.refusedOn u = true := by
  cases u with
  | cu c =>
    have hphase : c.phase = .faulted := of_decide_eq_true hfault
    cases i with
    | addValue | close | putBitsCommand | getBuf => simp [Instr.refusedOn, hphase]
    | refreshCU => exact absurd rfl hrefresh
    | _ => cases hkind
  | du d =>
    have hfaulted : d.faulted = true := hfault
    cases i with
    | setBytes | readValue | nextValue | decompX | decompE => simp [Instr.refusedOn, hfaulted]
    | refreshDU => exact absurd rfl hrefresh
    | _ => cases hkind

/-- A command that is not REFRESH is refused by a unit in its fault state, whether its code is listed or not (R207). -/
theorem runCommand_of_isFaulted {s : State} {u : CodecUnit} {c : Command} (hu : s.unit? = some u)
    (hfault : u.isFaulted = true) (hcmd : c.cmd ≠ 0x3) : s.runCommand c = .next (s.refuse u) := by
  rcases hdecode : decodeCommand u.kind c with e | i
  · exact runCommand_error hu hdecode
  · obtain ⟨hkind, hrefresh⟩ := decodeCommand_ok hdecode
    rw [runCommand_ok hu hdecode]
    exact exec_of_refusedOn hu (refusedOn_of_isFaulted hfault hkind (mt hrefresh.mp hcmd))

/-- Settles O44: in the fault state only the code 3 is not refused, and it is REFRESH; the rest are the two resets' values. -/
theorem faultStandsUntilRefresh : Obligations.FaultStandsUntilRefresh := by
  refine ⟨?step, fun c => ⟨rfl, rfl⟩, fun d => ⟨rfl, rfl⟩⟩
  intro s t c rest u hpending hunit hfault hstep
  have hu : (s.take c.unit rest).unit? = some u := hunit
  rw [step_command hpending] at hstep
  refine ⟨fun hcmd => ?other, fun hcmd => ?refresh⟩
  case other =>
    cases (runCommand_of_isFaulted hu hfault hcmd).symm.trans hstep
    exact ⟨rfl, rfl⟩
  case refresh =>
    cases ((runCommand_ok hu (decodeCommand_refresh hcmd)).trans (exec_refreshCommand hu)).symm.trans hstep
    exact ⟨answer_unit? hu, rfl⟩

end Sys2Proof.Machine
end

section
/-! PROOFS. COMPRESS as a whole (spec/30_encoding.md R88): every command of a block that fits is answered OK, a block of at
most CAPACITY values fits (spec/70_reset_and_hazards.md R229), and a sentinel among the values ends decoding (R206, R226). -/

namespace Sys2Proof.Machine

/-! ### Appending one list of values after another -/

theorem CU.Takes.of_append {c c' : CU} {vs ws : List U64} (h : c.Takes (vs ++ ws) c') :
    ∃ c1, c.Takes vs c1 ∧ c1.Takes ws c' := by
  induction vs generalizing c with
  | nil => exact ⟨c, .nil c, h⟩
  | cons v vs ih =>
    obtain - | ⟨happend, h⟩ := h
    obtain ⟨c1, htakes, hrest⟩ := ih h
    exact ⟨c1, .cons happend htakes, hrest⟩

/-! ### A block whose commands are all answered OK -/

/-- Between two states n responses have been given, each with status OK (R86). -/
def State.OkSince (s t : State) (n : Nat) : Prop :=
  ∃ rs : List Response, t.out = rs ++ s.out ∧ rs.length = n ∧ ∀ r ∈ rs, r.status = .ok

theorem okSince_refl (s : State) : s.OkSince s 0 :=
  ⟨[], rfl, rfl, nofun⟩

theorem State.OkSince.succ {s t t1 : State} {n : Nat} {x : Response} (hfirst : t.out = x :: s.out)
    (hok : x.status = .ok) (h : t.OkSince t1 n) : s.OkSince t1 (n + 1) := by
  obtain ⟨rs, hout, hlength, hall⟩ := h
  refine ⟨rs ++ [x], by rw [hout, hfirst, List.append_cons], by rw [List.length_append, hlength]; rfl, fun r hr => ?_⟩
  rcases List.mem_append.mp hr with hr | hr
  · exact hall r hr
  · rw [List.mem_singleton.mp hr, hok]

theorem State.OkSince.answers {s t : State} {n : Nat} (h : s.OkSince t n) : ∀ r ∈ t.answers n, r.2.1 = .ok := by
  obtain ⟨rs, hout, rfl, hall⟩ := h
  intro r hr
  rw [State.answers, hout, List.take_left] at hr
  obtain ⟨x, hx, rfl⟩ := List.mem_map.mp hr
  exact hall x hx

section
variable {s t : State} {j x : Nat} {c c1 c2 : CU} {vs : List U64} {w : BitVec 8} {b : List Byte}

/-- A command that a compressor unit answers OK, whatever the rest of the engine is, goes on to the rest of the script. -/
theorem runScript_answered_ok {i : Instr} {r : Result} (is : List Instr) (hc : s.units[j]? = some (.cu c))
    (hi : i.commandUnit = some .cu)
    (hexec : ∀ s : State, s.unit? = some (.cu c) → exec i s = .next (s.answer (.cu c1) .ok r)) :
    ∃ t : State, t.units[j]? = some (.cu c1) ∧ t.out = ⟨j, .ok, c1.statusWord, r⟩ :: s.out ∧
      s.runScript (script j (i :: is)) = t.runScript (script j is) :=
  ⟨_, answer_unit? (s := s.take j _) hc, rfl, runScript_of_exec hc hi (hexec (s.take j _) hc)⟩

/-- The values that an open unit takes are answered OK one by one (R100). -/
theorem runScript_of_takes (is : List Instr) (htakes : c.Takes vs c1) (hopen : c.OpenInv)
    (hc : s.units[j]? = some (.cu c)) :
    ∃ t : State, t.units[j]? = some (.cu c1) ∧ s.OkSince t vs.length ∧
      s.runScript (script j (vs.map Instr.addValue ++ is)) = t.runScript (script j is) := by
  induction htakes generalizing s with
  | nil c => exact ⟨s, hc, okSince_refl s, rfl⟩
  | @cons c ca c1 v vs n happend htakes ih =>
    obtain ⟨s1, hc1, hout, hrun⟩ := runScript_answered_ok (vs.map Instr.addValue ++ is) hc rfl (i := .addValue v)
      fun s hu => by rw [execAddValue_open hu hopen.phase, happend]; rfl
    obtain ⟨t, ht, hok, hrest⟩ := ih (append_openInv hopen happend).1 hc1
    exact ⟨t, ht, hok.succ hout rfl, hrun.trans hrest⟩

/-- CUSTAT of a closed block: no fault, a value taken (R35). -/
theorem statusWord_closed (hinv : c.Inv) (hclosed : c.phase = .closed) : c.statusWord = 0x01#8 := by
  rw [CU.statusWord, hinv.noFault (by simp [hclosed]), hinv.taken hclosed, hclosed]
  rfl

/-- A block that an open unit can close is answered OK, and then its bytes are (R101, R105). -/
theorem runScript_of_closeBlock {n : Nat} (hopen : c.OpenInv) (hclose : c.closeBlock = .ok (c1, n))
    (hc : s.units[j]? = some (.cu c)) :
    ∃ t b, s.runScript (script j [.close, .getBuf]) = .next t ∧ t.out.head? = some ⟨j, .ok, 0x01#8, .bytes b⟩ ∧
      s.OkSince t 2 := by
  have hinv := closeBlock_inv hopen hclose
  have hclosed : c1.phase = .closed := by
    rcases closeBlock_cases c with ⟨_, _, _, -, -, h⟩ | h <;> rw [h] at hclose <;> cases hclose
    rfl
  have hcursor := hinv.cursor
  have hread : c1.memRead 0 (c1.wpos / 8) = some _ := memRead_eq_some_iff.mpr ⟨by omega, rfl⟩
  obtain ⟨s1, hc1, hout1, hrun1⟩ := runScript_answered_ok [.getBuf] hc rfl (i := .close)
    fun s hu => by rw [execClose_open hu hopen.phase, hclose]; rfl
  obtain ⟨s2, -, hout2, hrun2⟩ := runScript_answered_ok [] hc1 rfl (i := .getBuf)
    fun s hu => execGetBuf_closed hu hclosed hread
  rw [statusWord_closed hinv hclosed] at hout2
  exact ⟨{ s2 with pending := [] }, _, hrun1.trans hrun2, by rw [hout2]; rfl,
    .succ hout1 rfl (.succ hout2 rfl (okSince_refl s2))⟩

theorem State.OkSince.trans {t1 : State} {m n : Nat} (h1 : s.OkSince t m) (h2 : t.OkSince t1 n) :
    s.OkSince t1 (m + n) := by
  obtain ⟨rs1, hout1, rfl, hall1⟩ := h1
  obtain ⟨rs2, hout2, rfl, hall2⟩ := h2
  refine ⟨rs2 ++ rs1, by rw [hout2, hout1, List.append_assoc], by rw [List.length_append, Nat.add_comm], fun r hr => ?_⟩
  exact (List.mem_append.mp hr).elim (hall2 r) (hall1 r)

/-- COMPRESS of values that a reset unit takes and then closes answers each command OK, the last with bytes (R88). -/
theorem compress_of_takes {n : Nat} (hc : s.units[j]? = some (.cu c)) (htakes : (CU.reset c.cfg).Takes vs c1)
    (hclose : c1.closeBlock = .ok (c2, n)) :
    ∃ t b, s.runScript (compressScript j vs) = .next t ∧ t.out.head? = some ⟨j, .ok, 0x01#8, .bytes b⟩ ∧
      s.OkSince t (vs.length + 3) := by
  obtain ⟨-, hopen1, -⟩ := htakes.frame (cu_reset_openInv _)
  obtain ⟨s0, hc0, hout0, hrun0⟩ := runScript_answered_ok (vs.map Instr.addValue ++ [.close, .getBuf]) hc rfl
    (i := .refreshCU) fun s hu => refreshRestoresTheSession.1 s c hu
  obtain ⟨s1, hc1, hok1, hrun1⟩ := runScript_of_takes [.close, .getBuf] htakes (cu_reset_openInv _) hc0
  obtain ⟨t, b, hrun, hout, hok⟩ := runScript_of_closeBlock hopen1 hclose hc1
  exact ⟨t, b, hrun0.trans (hrun1.trans hrun), hout, .succ hout0 rfl (hok1.trans hok)⟩

/-- COMPRESS that answers bytes has closed the block behind its values (R101, R105). -/
theorem closeBlock_of_bytes (hc : s.units[j]? = some (.cu c)) (hopen : c.OpenInv) (htakes : c.Takes vs c1)
    (h : s.runScript (script j (vs.map Instr.addValue ++ [.close, .getBuf])) = .next t)
    (hout : t.out.head? = some ⟨x, .ok, w, .bytes b⟩) : ∃ c2 n, c1.closeBlock = .ok (c2, n) := by
  obtain ⟨-, hopen1, -⟩ := htakes.frame hopen
  obtain ⟨s1, hc1, -, hrun⟩ := runScript_of_takes [.close, .getBuf] htakes hopen hc
  have hopened : Instr.close.refusedOn (.cu c1) = false := by simp [Instr.refusedOn, hopen1.phase]
  obtain ⟨-, c2, -, haccepts, -⟩ := accepts_of_bytes hc1 hopened closing_withinBlock (hrun.symm.trans h) hout
  obtain - | ⟨hclose⟩ := haccepts
  exact ⟨c2, _, hclose⟩

end

/-- Settles O59: the commands are those of a block that was closed, and decoding meets the sentinel behind the values that
stand before it. -/
theorem sentinelInDataEndsTheStream : Obligations.SentinelInDataEndsTheStream := by
  intro s t j k c d vs ws stat b hc hd hvariant hendSign hleadCode hdata hcompress hout
  have hopen := cu_reset_openInv c.cfg
  obtain ⟨s0, hc0, hblock⟩ := runScript_refresh hc hcompress
  obtain ⟨c1, c2, n, htakes, hend, hbytes⟩ := takes_of_bytes hc0 hopen hblock hout
  constructor
  · obtain ⟨c3, m, hclose⟩ := closeBlock_of_bytes hc0 hopen htakes hblock hout
    obtain ⟨t1, b1, hrun, -, hok⟩ := compress_of_takes hc htakes hclose
    cases hcompress.symm.trans hrun
    have hlength : (vs ++ c.cfg.endSign :: ws).length + 3 = vs.length + ws.length + 4 := by
      rw [List.length_append, List.length_cons]
      omega
    exact hlength ▸ hok.answers
  · have hkj : k ≠ j := by
      rintro rfl
      cases hc.symm.trans hd
    have hcommands : ∀ i ∈ .refreshCU :: ((vs ++ c.cfg.endSign :: ws).map Instr.addValue ++ [.close, .getBuf]),
        i.commandUnit = some .cu :=
      List.forall_mem_cons.mpr ⟨rfl, fun i hi => (addValues_withinBlock closing_withinBlock i hi).commandUnit⟩
    have hdt : t.units[k]? = some (.du d) := (runScript_others hkj hc hcommands hcompress).trans hd
    obtain ⟨ca, hbefore, hrest⟩ := htakes.of_append
    obtain ⟨-, hopena, -⟩ := hbefore.frame hopen
    cases hrest with | @cons _ cb _ _ _ m hsentinel hafter =>
    obtain ⟨hopenb, hfirst⟩ := append_openInv hopena hsentinel
    obtain ⟨-, hopen1, hprefix⟩ := hafter.frame hopenb
    have hprefixEnd := written_prefix_of_appended (append_appended hopen1.stream.buffer hend)
    have hto : DecodesTo DU.xorDecode (d.refresh.bind b) vs ((d.refresh.bind b).endedWith cb) :=
      decodesTo_of_takes hbefore (hendSign ▸ hsentinel) hopen (follows_reset b hvariant hleadCode)
        ((hprefix.trans hprefixEnd).trans hbytes) (hendSign ▸ hdata)
    exact statusWord_endedWith b hfirst ▸ decompress_of_decodesTo hdt hto

/-! ### A block within CAPACITY (R229) -/

/-- No code is longer than ELF.NEWLONG with 64 centre bits (R80). -/
theorem lengthRange_le (i : Instr) : (Sys2Proof.Laws.lengthRange i).2 ≤ 75 := by
  cases i <;> simp [Sys2Proof.Laws.lengthRange]

/-- The chosen code of an open unit is at most 75 bits long, whatever the tables and the threshold are (R80, R81). -/
theorem lengthOf_chosen_le {c : CU} (h : c.OpenInv) (v : U64) : c.lengthOf (c.chosen v) ≤ 75 := by
  have hplace := chosen_place c v
  obtain ⟨hwf, hfit⟩ := (codeCheck_eq_none_iff (by simp [hplace])).mp (chosen_legal c v).1
  obtain ⟨htrail, hwindow, -⟩ := h.session
  have hcentre : ∀ b t, c.session.lead = some b → c.session.trail = some t → bucketCount b + t.val ≤ 63 := by
    intro b t hb ht
    cases hvariant : c.cfg.variant with
    | chimp =>
      rw [htrail hvariant] at ht
      cases ht
    | elf => exact (hwindow hvariant).2 b t hb ht
  exact Nat.le_trans (everyCodeLengthIsInItsRange _ _ _ _ hwf hfit hcentre).2 (lengthRange_le _)

theorem append_of_room {c : CU} (h : c.OpenInv) (v : U64) (hroom : c.wpos + 75 ≤ 8 * c.bufBytes) :
    ∃ c1 n, c.append v = .ok (c1, n) ∧ c1.wpos ≤ c.wpos + 75 := by
  have hlength := lengthOf_chosen_le h v
  obtain ⟨c1, happend, -⟩ := append_of_fits (v := v) h.stream.buffer (by omega)
  have hwpos := append_wpos happend
  exact ⟨c1, _, happend, by omega⟩

/-- An open unit with room for 75 bits each takes any values. -/
theorem takes_of_room : ∀ {vs : List U64} {c : CU}, c.OpenInv → c.wpos + 75 * vs.length ≤ 8 * c.bufBytes →
    ∃ c1, c.Takes vs c1 ∧ c1.wpos ≤ c.wpos + 75 * vs.length
  | [], c, _, _ => ⟨c, .nil c, Nat.le_refl _⟩
  | v :: vs, c, hopen, hroom => by
      rw [List.length_cons] at hroom
      obtain ⟨c1, n, happend, hwpos⟩ := append_of_room hopen v (by omega)
      have hsize : c1.bufBytes = c.bufBytes := congrArg CUConfig.bufBytes (append_cfg happend)
      obtain ⟨c2, htakes, hwpos2⟩ := takes_of_room (vs := vs) (append_openInv hopen happend).1 (by omega)
      refine ⟨c2, .cons happend htakes, ?_⟩
      rw [List.length_cons]
      omega

theorem closeBlock_of_room {c : CU} (h : c.OpenInv) (hroom : c.wpos + 75 + c.cfg.guardBits ≤ 8 * c.bufBytes) :
    ∃ c1 n, c.closeBlock = .ok (c1, n) := by
  have hlength := lengthOf_chosen_le h c.cfg.endSign
  obtain ⟨c1, -, -, hclose⟩ := closeBlock_of_fits h.stream.buffer (by omega)
  exact ⟨_, _, hclose⟩

/-- The buffer of R40 has room for 75 bits for each of CAPACITY values and the sentinel, and a guard bit. -/
theorem bufBytes_room (capacity : Nat) : 75 * (capacity + 1) + 1 ≤ 8 * bufBytes capacity := by
  unfold bufBytes
  omega

theorem guardBits_le (vt : Variant) : guardBits vt ≤ 1 := by
  cases vt <;> decide

/-- Settles O56: no code is longer than the buffer's room for each value, so that the values are taken and the block closed. -/
theorem blocksWithinCapacityNeverOverflow : Obligations.BlocksWithinCapacityNeverOverflow := by
  refine ⟨fun vt n => ⟨rfl, rfl, rfl⟩, ?_⟩
  intro s j c vs hc hsize hguard hcapacity
  have hroom := bufBytes_room c.cfg.capacity
  have hguard1 : c.cfg.guardBits ≤ 1 := hguard ▸ guardBits_le _
  have hstart : (CU.reset c.cfg).wpos = 0 := rfl
  have hbuf : (CU.reset c.cfg).bufBytes = bufBytes c.cfg.capacity := hsize
  obtain ⟨c1, htakes, hwpos⟩ := takes_of_room (vs := vs) (cu_reset_openInv c.cfg) (by omega)
  obtain ⟨hcfg, hopen1, -⟩ := htakes.frame (cu_reset_openInv c.cfg)
  have hbuf1 : c1.bufBytes = (CU.reset c.cfg).bufBytes := congrArg CUConfig.bufBytes hcfg
  have hguardBits : c1.cfg.guardBits = c.cfg.guardBits := congrArg CUConfig.guardBits hcfg
  obtain ⟨c2, n, hclose⟩ := closeBlock_of_room hopen1 (by omega)
  obtain ⟨t, b, hrun, hout, -⟩ := compress_of_takes hc htakes hclose
  exact ⟨t, b, hrun, hout⟩

end Sys2Proof.Machine
end

section
/-! PROOFS. Numbers (spec/48_decimal_numerics.md R185, R186, R190): the exact value of a pattern, the grid that doubles of one
exponent stand on, and fl as rounding to that grid. -/

namespace Sys2Proof.Machine

/-! ### Exact rationals -/

section
variable {a b : Ratio}

theorem ratio_le_iff (ha : 0 < a.den) (hb : 0 < b.den) : a.le b = true ↔ a.toRat ≤ b.toRat := by
  have ha' : (0 : ℚ) < a.den := mod_cast ha
  have hb' : (0 : ℚ) < b.den := mod_cast hb
  rw [Ratio.le, decide_eq_true_iff, Ratio.toRat, Ratio.toRat, div_le_div_iff₀ ha' hb']
  norm_cast

theorem ratio_lt_iff (ha : 0 < a.den) (hb : 0 < b.den) : a.lt b = true ↔ a.toRat < b.toRat := by
  have ha' : (0 : ℚ) < a.den := mod_cast ha
  have hb' : (0 : ℚ) < b.den := mod_cast hb
  rw [Ratio.lt, decide_eq_true_iff, Ratio.toRat, Ratio.toRat, div_lt_div_iff₀ ha' hb']
  norm_cast

@[simp] theorem toRat_div (a b : Ratio) : (a.div b).toRat = a.toRat / b.toRat := by
  simp only [Ratio.toRat, Ratio.div, Nat.cast_mul, div_div_div_eq]

@[simp] theorem toRat_pow (base : Nat) (e : Int) : (Ratio.pow base e).toRat = (base : ℚ) ^ e := by
  cases e with
  | ofNat n => simp [Ratio.toRat, Ratio.pow]
  | negSucc n => simp [Ratio.toRat, Ratio.pow, zpow_negSucc]

@[simp] theorem toRat_nat (m : Nat) : (Ratio.mk m 1).toRat = m := by
  simp [Ratio.toRat]

theorem pow_num_pos {base : Nat} (h : 0 < base) (e : Int) : 0 < (Ratio.pow base e).num := by
  cases e with
  | ofNat n => exact Nat.pow_pos h
  | negSucc n => exact Nat.one_pos

theorem pow_den_pos {base : Nat} (h : 0 < base) (e : Int) : 0 < (Ratio.pow base e).den := by
  cases e with
  | ofNat n => exact Nat.one_pos
  | negSucc n => exact Nat.pow_pos h

/-- A rational that is an integer has that integer as its numerator over its denominator. -/
theorem num_eq_of_toRat_eq {m : Nat} (hden : 0 < a.den) (h : a.toRat = m) : a.num = m * a.den := by
  have hden' : (a.den : ℚ) ≠ 0 := mod_cast Nat.pos_iff_ne_zero.mp hden
  rw [Ratio.toRat, div_eq_iff hden'] at h
  exact mod_cast h

theorem ceil_of_toRat_eq {m : Nat} (hden : 0 < a.den) (h : a.toRat = m) : a.ceil = m := by
  rw [Ratio.ceil, num_eq_of_toRat_eq hden h, Nat.add_sub_assoc hden, Nat.mul_comm, Nat.mul_add_div hden,
    Nat.div_eq_of_lt (Nat.sub_lt hden Nat.one_pos), Nat.add_zero]

/-- The binary exponent of a positive rational. -/
theorem floorLog2_spec (hnum : 0 < a.num) (hden : 0 < a.den) :
    (2 : ℚ) ^ floorLog2 a ≤ a.toRat ∧ a.toRat < 2 ^ (floorLog2 a + 1) := by
  obtain ⟨k, hk⟩ : ∃ k : Int, k = (Nat.log2 a.num : Int) - Nat.log2 a.den := ⟨_, rfl⟩
  have hfloor : floorLog2 a = if a.lt (.pow 2 k) then k - 1 else k := by rw [hk]; rfl
  have hnumBelow : (2 : ℚ) ^ Nat.log2 a.num ≤ a.num := mod_cast Nat.log2_self_le hnum.ne'
  have hnumAbove : (a.num : ℚ) < 2 ^ (Nat.log2 a.num + 1) := mod_cast Nat.lt_log2_self
  have hdenBelow : (2 : ℚ) ^ Nat.log2 a.den ≤ a.den := mod_cast Nat.log2_self_le hden.ne'
  have hdenAbove : (a.den : ℚ) ≤ 2 ^ (Nat.log2 a.den + 1) := mod_cast Nat.lt_log2_self.le
  have hpos : (0 : ℚ) < a.den := mod_cast hden
  have hbelow : (2 : ℚ) ^ (k - 1) ≤ a.toRat := by
    rw [Ratio.toRat, le_div_iff₀ hpos]
    calc (2 : ℚ) ^ (k - 1) * a.den
      _ ≤ (2 : ℚ) ^ (k - 1) * 2 ^ (Nat.log2 a.den + 1) := by gcongr
      _ = 2 ^ Nat.log2 a.num := by
        rw [← zpow_natCast, ← zpow_natCast, ← zpow_add₀ two_ne_zero]
        congr 1
        omega
      _ ≤ a.num := hnumBelow
  have habove : a.toRat < (2 : ℚ) ^ (k + 1) := by
    rw [Ratio.toRat, div_lt_iff₀ hpos]
    calc (a.num : ℚ)
      _ < 2 ^ (Nat.log2 a.num + 1) := hnumAbove
      _ = (2 : ℚ) ^ (k + 1) * 2 ^ Nat.log2 a.den := by
        rw [← zpow_natCast, ← zpow_natCast, ← zpow_add₀ two_ne_zero]
        congr 1
        omega
      _ ≤ (2 : ℚ) ^ (k + 1) * a.den := by gcongr
  have hlt : a.lt (.pow 2 k) = true ↔ a.toRat < (2 : ℚ) ^ k := by
    rw [ratio_lt_iff hden (pow_den_pos two_pos k), toRat_pow, Nat.cast_ofNat]
  rw [hfloor]
  split_ifs with h
  · rw [sub_add_cancel]
    exact ⟨hbelow, hlt.mp h⟩
  · exact ⟨not_lt.mp (mt hlt.mpr h), habove⟩

/-- Rounding to an integer is off by at most one half, and by one half only to an even integer. -/
theorem roundEven_spec (hden : 0 < a.den) :
    |(a.roundEven : ℚ) - a.toRat| ≤ 1 / 2 ∧ (|(a.roundEven : ℚ) - a.toRat| = 1 / 2 → a.roundEven % 2 = 0) := by
  obtain ⟨q, hq⟩ : ∃ q, q = a.num / a.den := ⟨_, rfl⟩
  obtain ⟨r, hr⟩ : ∃ r, r = a.num % a.den := ⟨_, rfl⟩
  have hround : a.roundEven =
      if a.den < 2 * r then q + 1 else if 2 * r = a.den then (if q % 2 = 1 then q + 1 else q) else q := by
    rw [hq, hr]; rfl
  have hpos : (0 : ℚ) < a.den := mod_cast hden
  obtain ⟨x, hx⟩ : ∃ x : ℚ, x * a.den = r := ⟨r / a.den, div_mul_cancel₀ _ hpos.ne'⟩
  have hvalue : a.toRat = q + x := by
    have hsplit : (a.num : ℚ) = a.den * q + r := by rw [hq, hr]; exact mod_cast (Nat.div_add_mod _ _).symm
    rw [Ratio.toRat, div_eq_iff hpos.ne', add_mul, hx, hsplit, mul_comm]
  have hx0 : 0 ≤ x := nonneg_of_mul_nonneg_left (hx ▸ Nat.cast_nonneg r) hpos
  have hx1 : x < 1 := by
    have hlt : (r : ℚ) < a.den := by rw [hr]; exact mod_cast Nat.mod_lt _ hden
    exact lt_of_mul_lt_mul_right (by rw [hx, one_mul]; exact hlt) hpos.le
  rw [hround, hvalue]
  split_ifs with hmore htie hodd
  case pos =>
    have hhalf : 1 / 2 < x := by
      have hcast : (a.den : ℚ) < 2 * r := mod_cast hmore
      nlinarith
    rw [Nat.cast_succ, show (q + 1 - (q + x) : ℚ) = 1 - x by ring, abs_of_pos (by linarith)]
    exact ⟨by linarith, fun h => by linarith⟩
  case pos =>
    have hhalf : x = 1 / 2 := by
      have hcast : (2 * r : ℚ) = a.den := mod_cast htie
      nlinarith
    rw [Nat.cast_succ, hhalf, show (q + 1 - (q + 1 / 2) : ℚ) = 1 / 2 by ring, abs_of_pos (by norm_num)]
    exact ⟨le_rfl, fun _ => by omega⟩
  case neg =>
    have hhalf : x = 1 / 2 := by
      have hcast : (2 * r : ℚ) = a.den := mod_cast htie
      nlinarith
    rw [hhalf, show (q - (q + 1 / 2) : ℚ) = -(1 / 2) by ring, abs_neg, abs_of_pos (by norm_num)]
    exact ⟨le_rfl, fun _ => by omega⟩
  case neg =>
    have hhalf : x < 1 / 2 := by
      have hcast : (2 * r : ℚ) < a.den := mod_cast Nat.lt_of_le_of_ne (not_lt.mp hmore) htie
      nlinarith
    rw [show (q - (q + x) : ℚ) = -x by ring, abs_neg, abs_of_nonneg hx0]
    exact ⟨hhalf.le, fun h => by linarith⟩

end
end Sys2Proof.Machine
end

section
/-! PROOFS. binary64 (spec/00_scope.md R13, 48_decimal_numerics.md R190): the value of a pattern by its number, which orders
the patterns, and fl as rounding to the grid of one exponent. -/

namespace Sys2Proof.Machine

/-! ### The value of a pattern -/

/-- The spacing of the doubles whose patterns lie from `(j + 1) * 2^52` to `(j + 2) * 2^52`; of the subnormals too at j = 0. -/
def ulp (j : Nat) : ℚ :=
  2 ^ ((j : Int) - 1074)

theorem ulp_pos (j : Nat) : 0 < ulp j :=
  zpow_pos two_pos _

theorem ulp_succ (j : Nat) : ulp (j + 1) = 2 * ulp j := by
  rw [ulp, ulp, ← zpow_one_add₀ two_ne_zero]
  congr 1
  push_cast
  ring

theorem ulp_le {i j : Nat} (h : i ≤ j) : ulp i ≤ ulp j :=
  zpow_le_zpow_right₀ one_le_two (by omega)

/-- The value of the pattern with the number n, sign bit clear; that of infinity is where the doubles would go on. -/
def doubleValue (n : Nat) : ℚ :=
  if n / 2 ^ 52 = 0 then n * ulp 0 else (2 ^ 52 + n % 2 ^ 52 : Nat) * ulp (n / 2 ^ 52 - 1)

/-- A significand q on the grid of j is the pattern `j * 2^52 + q`: one that needs the next exponent is that exponent's first. -/
theorem doubleValue_grid {j q : Nat} (hlow : j = 0 ∨ 2 ^ 52 ≤ q) (hhigh : q ≤ 2 ^ 53) :
    doubleValue (j * 2 ^ 52 + q) = q * ulp j := by
  rcases Nat.lt_or_ge q (2 ^ 52) with hsub | hnormal
  · obtain rfl : j = 0 := by omega
    rw [Nat.zero_mul, Nat.zero_add, doubleValue, if_pos (by omega)]
  · rcases Nat.lt_or_eq_of_le hhigh with hfits | rfl
    · have hexp : (j * 2 ^ 52 + q) / 2 ^ 52 = j + 1 := by omega
      have hfrac : 2 ^ 52 + (j * 2 ^ 52 + q) % 2 ^ 52 = q := by omega
      rw [doubleValue, hexp, hfrac, if_neg (Nat.succ_ne_zero j), Nat.add_sub_cancel]
    · have hexp : (j * 2 ^ 52 + 2 ^ 53) / 2 ^ 52 = j + 2 := by omega
      have hfrac : 2 ^ 52 + (j * 2 ^ 52 + 2 ^ 53) % 2 ^ 52 = 2 ^ 52 := by omega
      rw [doubleValue, hexp, hfrac, if_neg (by omega), show j + 2 - 1 = j + 1 from rfl, ulp_succ]
      push_cast
      ring

/-- Every pattern is a significand on a grid. -/
theorem exists_grid (n : Nat) : ∃ j q, n = j * 2 ^ 52 + q ∧ (j = 0 ∨ 2 ^ 52 ≤ q) ∧ q < 2 ^ 53 := by
  rcases Nat.lt_or_ge n (2 ^ 53) with hlow | hhigh
  · exact ⟨0, n, by omega, .inl rfl, hlow⟩
  · exact ⟨n / 2 ^ 52 - 1, 2 ^ 52 + n % 2 ^ 52, by omega, by omega, by omega⟩

/-- Patterns are ordered like their values. -/
theorem doubleValue_strictMono : StrictMono doubleValue := by
  refine strictMono_nat_of_lt_succ fun n => ?_
  obtain ⟨j, q, rfl, hlow, hhigh⟩ := exists_grid n
  rw [Nat.add_assoc, doubleValue_grid hlow hhigh.le, doubleValue_grid (by omega) hhigh]
  exact mul_lt_mul_of_pos_right (mod_cast Nat.lt_succ_self q) (ulp_pos j)

@[simp] theorem doubleValue_zero : doubleValue 0 = 0 := by
  simp [doubleValue]

/-- The exact magnitude of a pattern is the value of its number, the sign left out (R13). -/
theorem magnitude_toRat (p : U64) : (magnitude p).toRat = doubleValue (p.toNat % 2 ^ 63) := by
  have hexp : p.toNat % 2 ^ 63 / 2 ^ 52 = expField p := by unfold expField; omega
  have hfrac : p.toNat % 2 ^ 63 % 2 ^ 52 = fracField p := by unfold fracField; omega
  have hvalue (s e : Nat) (he : 1 ≤ e) :
      (if 1075 ≤ e then Ratio.mk (s * 2 ^ (e - 1075)) 1 else ⟨s, 2 ^ (1075 - e)⟩).toRat = s * ulp (e - 1) := by
    rw [ulp]
    split_ifs with hlarge
    · rw [toRat_nat, show ((e - 1 : Nat) : Int) - 1074 = ((e - 1075 : Nat) : Int) by omega, zpow_natCast]
      push_cast
      rfl
    · rw [show ((e - 1 : Nat) : Int) - 1074 = -((1075 - e : Nat) : Int) by omega, zpow_neg, zpow_natCast]
      simp [Ratio.toRat, div_eq_mul_inv]
  refine (hvalue (significand p) (max 1 (expField p)) (le_max_left _ _)).trans ?_
  rw [doubleValue, hexp, hfrac, significand]
  split_ifs with hsub
  · have hsame : p.toNat % 2 ^ 63 = fracField p := by omega
    rw [hsub, hsame]
    rfl
  · rw [max_eq_right (Nat.one_le_iff_ne_zero.mpr hsub)]

theorem magnitude_den_pos (p : U64) : 0 < (magnitude p).den := by
  unfold magnitude
  dsimp only
  split
  · exact Nat.one_pos
  · exact Nat.two_pow_pos _

theorem infinity_toNat : infinity.toNat = 2047 * 2 ^ 52 := rfl

theorem magnitude_toRat_of_le {p : U64} (h : p.toNat ≤ infinity.toNat) : (magnitude p).toRat = doubleValue p.toNat := by
  rw [infinity_toNat] at h
  rw [magnitude_toRat, Nat.mod_eq_of_lt (by omega)]

/-! ### Rounding to a grid (R190) -/

/-- `q` is `a` rounded to the grid of j, ties to even, and j is the grid of the doubles around `a`. -/
structure RoundsTo (a : ℚ) (j q : Nat) : Prop where
  near  : |q * ulp j - a| ≤ ulp j / 2
  even  : |q * ulp j - a| = ulp j / 2 → q % 2 = 0
  lower : j = 0 ∨ 2 ^ 52 * ulp j ≤ a
  upper : a < 2 ^ 53 * ulp j

section
variable {a : ℚ} {j q : Nat} (h : RoundsTo a j q)
include h

theorem RoundsTo.lower_q : j = 0 ∨ 2 ^ 52 ≤ q := by
  refine h.lower.imp_right fun hlower => ?_
  by_contra hlt
  have hq : (q : ℚ) + 1 ≤ 2 ^ 52 := mod_cast Nat.lt_of_not_le hlt
  have hpos := ulp_pos j
  obtain ⟨hnear, -⟩ := abs_le.mp h.near
  nlinarith

theorem RoundsTo.upper_q : q ≤ 2 ^ 53 := by
  obtain ⟨-, hnear⟩ := abs_le.mp h.near
  have hupper := h.upper
  by_contra hlt
  have hq : (2 : ℚ) ^ 53 + 1 ≤ q := mod_cast Nat.lt_of_not_le hlt
  have hpos := ulp_pos j
  nlinarith

theorem RoundsTo.value : doubleValue (j * 2 ^ 52 + q) = q * ulp j :=
  doubleValue_grid h.lower_q h.upper_q

/-- A pattern above the rounded one stands a whole spacing higher. -/
theorem RoundsTo.value_above {n : Nat} (hn : j * 2 ^ 52 + q < n) : (q + 1) * ulp j ≤ doubleValue n := by
  have hnext : doubleValue (j * 2 ^ 52 + q + 1) ≤ doubleValue n := doubleValue_strictMono.monotone hn
  refine le_trans ?_ hnext
  rcases Nat.lt_or_eq_of_le h.upper_q with hfits | rfl
  · rw [Nat.add_assoc, doubleValue_grid (h.lower_q.imp_right fun hq => by omega) hfits, Nat.cast_succ]
  · have hup : j * 2 ^ 52 + 2 ^ 53 + 1 = (j + 1) * 2 ^ 52 + (2 ^ 52 + 1) := by omega
    rw [hup, doubleValue_grid (.inr (by omega)) (by omega), ulp_succ]
    have hpos := ulp_pos j
    push_cast
    linarith

/-- A pattern below the rounded one stands a whole spacing lower, if the rounded one is above what was rounded. -/
theorem RoundsTo.value_below {n : Nat} (hup : a < q * ulp j) (hn : n < j * 2 ^ 52 + q) :
    doubleValue n ≤ (q - 1) * ulp j := by
  have hpos := ulp_pos j
  have hq : j = 0 ∨ 2 ^ 52 < q := by
    refine h.lower.imp_right fun hlower => ?_
    have hlt : (2 : ℚ) ^ 52 < q := lt_of_mul_lt_mul_right (hlower.trans_lt hup) hpos.le
    exact mod_cast hlt
  have hq1 : 1 ≤ q := by omega
  have hlast : doubleValue n ≤ doubleValue (j * 2 ^ 52 + (q - 1)) := doubleValue_strictMono.monotone (by omega)
  have hhigh := h.upper_q
  rwa [doubleValue_grid (by omega) (by omega), Nat.cast_sub hq1, Nat.cast_one] at hlast

/-- The rounded pattern is the nearest of all, the even one of two nearest (R190). -/
theorem RoundsTo.nearest {n : Nat} (hn : n ≠ j * 2 ^ 52 + q) :
    |doubleValue (j * 2 ^ 52 + q) - a| < |doubleValue n - a| ∨
      (|doubleValue (j * 2 ^ 52 + q) - a| = |doubleValue n - a| ∧ (j * 2 ^ 52 + q) % 2 = 0) := by
  have hpos := ulp_pos j
  have hnear := h.near
  obtain ⟨hnear1, hnear2⟩ := abs_le.mp hnear
  have hfar : |q * ulp j - a| < |doubleValue n - a| ∨ ulp j / 2 ≤ |doubleValue n - a| := by
    rcases Nat.lt_or_gt_of_ne hn with hbelow | habove
    · rcases lt_or_ge a (q * ulp j) with hup | hdown
      · have hvalue := h.value_below hup hbelow
        refine .inr (le_trans ?_ (neg_le_abs _))
        linarith
      · have hvalue : doubleValue n < q * ulp j := h.value ▸ doubleValue_strictMono hbelow
        refine .inl ?_
        rw [abs_of_nonpos (by linarith), abs_of_nonpos (by linarith)]
        linarith
    · have hvalue := h.value_above habove
      refine .inr (le_trans ?_ (le_abs_self _))
      linarith
  rw [h.value]
  rcases hfar with hlt | hhalf
  · exact .inl hlt
  · rcases lt_or_eq_of_le (hnear.trans hhalf) with hlt | heq
    · exact .inl hlt
    · have htie : |q * ulp j - a| = ulp j / 2 := le_antisymm hnear (heq ▸ hhalf)
      have heven := h.even htie
      exact .inr ⟨heq, by omega⟩

/-- A significand is rounded up to the next exponent from the middle before it on, an even number being there (R190). -/
theorem RoundsTo.top_iff : 2 ^ 53 ≤ q ↔ (2 ^ 53 - 1 / 2) * ulp j ≤ a := by
  have hpos := ulp_pos j
  obtain ⟨hnear1, hnear2⟩ := abs_le.mp h.near
  constructor
  · intro hq
    have hcast : (2 : ℚ) ^ 53 ≤ q := mod_cast hq
    nlinarith
  · intro ha
    by_contra hlt
    have hlast : q = 2 ^ 53 - 1 := by
      by_contra hne
      have hcast : (q : ℚ) + 2 ≤ 2 ^ 53 := mod_cast (show q + 2 ≤ 2 ^ 53 by omega)
      nlinarith
    have hcast : (q : ℚ) = 2 ^ 53 - 1 := by
      rw [hlast]
      norm_num
    have htie : |q * ulp j - a| = ulp j / 2 := by
      rw [hcast] at hnear1 ⊢
      rw [abs_of_nonpos (by linarith)]
      linarith
    have heven := h.even htie
    omega

/-- The rounded pattern leaves the finite range from the middle between the largest double and 2^1024 on (R190). -/
theorem RoundsTo.overflows_iff : infinity.toNat ≤ j * 2 ^ 52 + q ↔ ((2 : ℚ) ^ 54 - 1) * 2 ^ 970 ≤ a := by
  have hscale : (2 : ℚ) ^ 970 = ulp 2044 := by
    rw [ulp, ← zpow_natCast]
    rfl
  have hpos := ulp_pos 2044
  have hupper := h.upper
  have hlowq := h.lower_q
  have hhighq := h.upper_q
  rw [infinity_toNat, hscale]
  clear hscale
  rcases Nat.lt_trichotomy j 2045 with hj | rfl | hj
  · have hulp : ulp j ≤ ulp 2044 := ulp_le (by omega)
    exact iff_of_false (by omega) (by linarith)
  · have hmiddle : (2 ^ 54 - 1) * ulp 2044 = (2 ^ 53 - 1 / 2) * ulp 2045 := by
      rw [ulp_succ 2044]
      ring
    rw [hmiddle, ← h.top_iff]
    omega
  · have hulp : ulp 2046 ≤ ulp j := ulp_le (by omega)
    have hstep : ulp 2046 = 4 * ulp 2044 := by
      rw [ulp_succ, ulp_succ]
      ring
    have hlower : 2 ^ 52 * ulp j ≤ a := h.lower.resolve_left (by omega)
    exact iff_of_true (by omega) (by linarith)

end

/-! ### fl (R190) -/

/-- Dividing by the spacing, rounding to an integer, is rounding to the grid. -/
theorem roundsTo_roundEven {a : Ratio} {j : Nat} {e : Int} (hden : 0 < a.den) (he : e = (j : Int) - 1074)
    (hlower : j = 0 ∨ 2 ^ 52 * ulp j ≤ a.toRat) (hupper : a.toRat < 2 ^ 53 * ulp j) :
    RoundsTo a.toRat j (a.div (.pow 2 e)).roundEven := by
  have hpos := ulp_pos j
  obtain ⟨hnear, heven⟩ := roundEven_spec (a := a.div (.pow 2 e)) (Nat.mul_pos hden (pow_num_pos two_pos e))
  have hscaled : (a.div (.pow 2 e)).toRat = a.toRat / ulp j := by
    rw [toRat_div, toRat_pow, he]
    rfl
  have hdist (q : ℚ) : |q * ulp j - a.toRat| = |q - a.toRat / ulp j| * ulp j := by
    have hfactor : q * ulp j - a.toRat = (q - a.toRat / ulp j) * ulp j := by
      rw [sub_mul, div_mul_cancel₀ _ hpos.ne']
    rw [hfactor, abs_mul, abs_of_pos hpos]
  rw [hscaled] at hnear heven
  refine ⟨?_, fun htie => heven ?_, hlower, hupper⟩
  · rw [hdist]
    linarith [mul_le_mul_of_nonneg_right hnear hpos.le]
  · rw [hdist] at htie
    exact mul_right_cancel₀ hpos.ne' (by linarith)

/-- fl of a positive rational is the pattern it rounds to on the grid of its exponent, or infinity (R190). -/
theorem nearestDouble_rounds {a : Ratio} (hnum : 0 < a.num) (hden : 0 < a.den) :
    ∃ j q, RoundsTo a.toRat j q ∧
      nearestDouble a = if infinity.toNat ≤ j * 2 ^ 52 + q then infinity else BitVec.ofNat 64 (j * 2 ^ 52 + q) := by
  obtain ⟨hbelow, habove⟩ := floorLog2_spec hnum hden
  obtain ⟨e, he⟩ : ∃ e, e = max (floorLog2 a - 52) (-1074) := ⟨_, rfl⟩
  obtain ⟨j, hj⟩ : ∃ j, j = (e + 1074).toNat := ⟨_, rfl⟩
  have hje : e = (j : Int) - 1074 := by omega
  have hlower : j = 0 ∨ 2 ^ 52 * ulp j ≤ a.toRat := by
    rcases max_choice (floorLog2 a - 52) (-1074) with hmax | hmax
    · refine .inr (le_trans (le_of_eq ?_) hbelow)
      rw [ulp, ← hje, he, hmax, ← zpow_natCast, ← zpow_add₀ two_ne_zero]
      congr 1
      push_cast
      ring
    · exact .inl (by omega)
  have hupper : a.toRat < 2 ^ 53 * ulp j := by
    refine lt_of_lt_of_le habove ?_
    rw [ulp, ← hje, ← zpow_natCast, ← zpow_add₀ two_ne_zero]
    exact zpow_le_zpow_right₀ one_le_two (by push_cast; omega)
  refine ⟨j, _, roundsTo_roundEven hden hje hlower hupper, ?_⟩
  rw [nearestDouble, if_neg hnum.ne', hj, he]

end Sys2Proof.Machine
end

section
/-! PROOFS. fl and P10 (spec/48_decimal_numerics.md R186, R190): the double nearest to a rational, the rationals that are
doubles themselves, and the powers of ten. -/

namespace Sys2Proof.Machine

/-! ### The nearest double (R190) -/

theorem nearestDouble_of_finite {a : Ratio} {j q : Nat}
    (h : nearestDouble a = if infinity.toNat ≤ j * 2 ^ 52 + q then infinity else BitVec.ofNat 64 (j * 2 ^ 52 + q))
    (hfinite : ¬ infinity.toNat ≤ j * 2 ^ 52 + q) : (nearestDouble a).toNat = j * 2 ^ 52 + q := by
  have hlt : j * 2 ^ 52 + q < 2 ^ 64 := (not_le.mp hfinite).trans infinity.isLt
  rw [h, if_neg hfinite, BitVec.toNat_ofNat, Nat.mod_eq_of_lt hlt]

/-- Settles O47: fl rounds to the grid around the rational, whose pattern is the nearest of all or past the overflow point. -/
theorem roundingGivesTheNearestDouble : Obligations.RoundingGivesTheNearestDouble := by
  intro a hnum hden
  obtain ⟨j, q, hrounds, hfl⟩ := nearestDouble_rounds hnum hden
  have hinfinity : nearestDouble a = infinity ↔ infinity.toNat ≤ j * 2 ^ 52 + q := by
    refine ⟨fun h => ?_, fun h => hfl.trans (if_pos h)⟩
    by_contra hfinite
    rw [h] at hfl
    exact hfinite (nearestDouble_of_finite (hfl ▸ h) hfinite ▸ h ▸ le_rfl)
  refine ⟨hinfinity.trans hrounds.overflows_iff, fun hne => ?_⟩
  have hpattern := nearestDouble_of_finite hfl (mt hinfinity.mpr hne)
  have hfinite : finitePositive (nearestDouble a) := by
    rw [finitePositive, hpattern]
    exact not_le.mp (mt hinfinity.mpr hne)
  refine ⟨hfinite, fun r hr hrp => ?_⟩
  have hother : r.toNat ≠ j * 2 ^ 52 + q := fun h => hrp (BitVec.eq_of_toNat_eq (h.trans hpattern.symm))
  rw [magnitude_toRat_of_le hfinite.le, magnitude_toRat_of_le hr.le, hpattern]
  exact hrounds.nearest hother

section
variable {p r : U64} {a : ℚ}

/-- A double at or above a rational is at or above its nearest double. -/
theorem NearestTo.le_of_le_value (h : NearestTo p a) (hr : finitePositive r) (ha : a ≤ doubleValue r.toNat) :
    p.toNat ≤ r.toNat := by
  obtain ⟨hp, hnearest⟩ := h
  by_contra hlt
  have hvalue : doubleValue r.toNat < doubleValue p.toNat := doubleValue_strictMono (not_le.mp hlt)
  have hcloser := hnearest r hr (by rintro rfl; exact hlt le_rfl)
  rw [magnitude_toRat_of_le hp.le, magnitude_toRat_of_le hr.le, abs_of_nonneg (by linarith),
    abs_of_nonneg (by linarith)] at hcloser
  rcases hcloser with hcloser | ⟨hcloser, -⟩ <;> linarith

/-- A double at or below a rational is at or below its nearest double. -/
theorem NearestTo.le_of_value_le (h : NearestTo p a) (hr : finitePositive r) (ha : doubleValue r.toNat ≤ a) :
    r.toNat ≤ p.toNat := by
  obtain ⟨hp, hnearest⟩ := h
  by_contra hlt
  have hvalue : doubleValue p.toNat < doubleValue r.toNat := doubleValue_strictMono (not_le.mp hlt)
  have hcloser := hnearest r hr (by rintro rfl; exact hlt le_rfl)
  rw [magnitude_toRat_of_le hp.le, magnitude_toRat_of_le hr.le, abs_of_nonpos (by linarith),
    abs_of_nonpos (by linarith)] at hcloser
  rcases hcloser with hcloser | ⟨hcloser, -⟩ <;> linarith

/-- A rational that is a double is its own nearest double. -/
theorem NearestTo.value_of_exact (h : NearestTo p a) {n : Nat} (hn : n < infinity.toNat) (ha : doubleValue n = a) :
    (magnitude p).toRat = a := by
  have hword : (BitVec.ofNat 64 n).toNat = n := Nat.mod_eq_of_lt (hn.trans infinity.isLt)
  have hr : finitePositive (BitVec.ofNat 64 n) := by rwa [finitePositive, hword]
  have hle := h.le_of_le_value hr (hword.symm ▸ ha.ge)
  have hge := h.le_of_value_le hr (hword.symm ▸ ha.le)
  rw [hword] at hle hge
  rw [magnitude_toRat_of_le h.1.le, le_antisymm hle hge, ha]

end

/-- A significand below 2^53 on any grid is a double: doubled on the grid below until it is normal, or on the last grid. -/
theorem exists_double : ∀ {j s : Nat}, s < 2 ^ 53 → j ≤ 2045 → ∃ n < infinity.toNat, doubleValue n = s * ulp j
  | 0, s, hs, _ => ⟨0 * 2 ^ 52 + s, by rw [infinity_toNat]; omega, doubleValue_grid (.inl rfl) hs.le⟩
  | j + 1, s, hs, hj => by
      rcases Nat.lt_or_ge s (2 ^ 52) with hsmall | hnormal
      · obtain ⟨n, hn, hvalue⟩ := exists_double (j := j) (s := 2 * s) (by omega) (by omega)
        refine ⟨n, hn, hvalue.trans ?_⟩
        rw [ulp_succ]
        push_cast
        ring
      · exact ⟨(j + 1) * 2 ^ 52 + s, by rw [infinity_toNat]; omega, doubleValue_grid (.inr hnormal) hs.le⟩

/-- fl of a positive rational below the overflow point is its nearest double. -/
theorem nearestTo_nearestDouble {a : Ratio} (hnum : 0 < a.num) (hden : 0 < a.den)
    (h : a.toRat < ((2 : ℚ) ^ 54 - 1) * 2 ^ 970) : NearestTo (nearestDouble a) a.toRat := by
  obtain ⟨hinfinity, hnearest⟩ := roundingGivesTheNearestDouble a hnum hden
  exact hnearest (mt hinfinity.mp (not_le.mpr h))

/-! ### The powers of ten (R186) -/

/-! The ends of the range of P10 against the overflow point, the least and the largest subnormal double. -/

theorem pow_ten_308_lt : 10 ^ 308 + 2 ^ 970 < 2 ^ 54 * 2 ^ 970 := by decide +kernel

theorem pow_ten_323_le : 10 ^ 323 ≤ 2 ^ 1074 := by decide +kernel

theorem le_pow_ten_308 : 2 ^ 1074 ≤ (2 ^ 52 - 1) * 10 ^ 308 := by decide +kernel

section
variable {n : Int}

theorem pow_ten_lt_overflow (h : n ≤ 308) : (10 : ℚ) ^ n < ((2 : ℚ) ^ 54 - 1) * 2 ^ 970 :=
  calc (10 : ℚ) ^ n
    _ ≤ 10 ^ (308 : Int) := zpow_le_zpow_right₀ (by norm_num) h
    _ < 2 ^ 54 * 2 ^ 970 - 2 ^ 970 := lt_sub_iff_add_lt.mpr (mod_cast pow_ten_308_lt)
    _ = ((2 : ℚ) ^ 54 - 1) * 2 ^ 970 := by rw [sub_mul, one_mul]

theorem nearestTo_p10 (c : P10Choice) (h1 : -323 ≤ n) (h2 : n ≤ 308) : NearestTo (p10 c n) ((10 : ℚ) ^ n) := by
  have hvalue : (Ratio.pow 10 n).toRat = (10 : ℚ) ^ n := toRat_pow 10 n
  rw [p10_eq h1 h2, ← hvalue]
  exact nearestTo_nearestDouble (pow_num_pos (by omega) n) (pow_den_pos (by omega) n)
    (hvalue ▸ pow_ten_lt_overflow h2)

/-- The least subnormal double is below every power of ten in the range. -/
theorem p10_ne_zero (c : P10Choice) (h1 : -323 ≤ n) (h2 : n ≤ 308) : p10 c n ≠ 0 := by
  have hleast : doubleValue (1#64).toNat ≤ (10 : ℚ) ^ n :=
    calc doubleValue (1#64).toNat
      _ = (2 : ℚ) ^ (-1074 : Int) := one_mul _
      _ ≤ 10 ^ (-323 : Int) := by
        rw [zpow_neg, zpow_neg]
        exact inv_anti₀ (by positivity) (mod_cast pow_ten_323_le)
      _ ≤ 10 ^ n := zpow_le_zpow_right₀ (by norm_num) h1
  have hpos : 1 ≤ (p10 c n).toNat :=
    (nearestTo_p10 c h1 h2).le_of_value_le (r := 1#64) (show 1 < infinity.toNat by decide) hleast
  intro hzero
  simp [hzero] at hpos

/-- `10^n = 5^n * 2^n`, and `5^n` is a significand up to n = 22. -/
theorem p10_exact (c : P10Choice) (h1 : 0 ≤ n) (h2 : n ≤ 22) : (magnitude (p10 c n)).toRat = (10 : ℚ) ^ n := by
  obtain ⟨k, rfl⟩ := Int.eq_ofNat_of_zero_le h1
  have hfive : 5 ^ k < 2 ^ 53 :=
    calc 5 ^ k
      _ ≤ 5 ^ 22 := Nat.pow_le_pow_right (by omega) (by omega)
      _ < 2 ^ 53 := by norm_num
  obtain ⟨m, hm, hvalue⟩ := exists_double (j := k + 1074) hfive (by omega)
  refine (nearestTo_p10 c (by omega) (by omega)).value_of_exact hm (hvalue.trans ?_)
  rw [ulp, show ((k + 1074 : Nat) : Int) - 1074 = k by omega, zpow_natCast, zpow_natCast, Nat.cast_pow, ← mul_pow]
  norm_num

/-- The largest subnormal double is above `10^-308`. -/
theorem p10_subnormal (c : P10Choice) (h1 : -323 ≤ n) (h2 : n ≤ -308) : expField (p10 c n) = 0 := by
  have hlargest : (10 : ℚ) ^ n ≤ doubleValue (BitVec.ofNat 64 (2 ^ 52 - 1)).toNat :=
    calc (10 : ℚ) ^ n
      _ ≤ 10 ^ (-308 : Int) := zpow_le_zpow_right₀ (by norm_num) h2
      _ ≤ ((2 ^ 52 - 1 : Nat) : ℚ) * 2 ^ (-1074 : Int) := by
        rw [zpow_neg, zpow_neg, ← div_eq_mul_inv, inv_eq_one_div, div_le_div_iff₀ (by positivity) (by positivity), one_mul]
        exact mod_cast le_pow_ten_308
      _ = doubleValue (BitVec.ofNat 64 (2 ^ 52 - 1)).toNat := rfl
  have hfinite : finitePositive (BitVec.ofNat 64 (2 ^ 52 - 1)) :=
    show (BitVec.ofNat 64 (2 ^ 52 - 1)).toNat < infinity.toNat by decide
  have hle := (nearestTo_p10 c h1 (by omega)).le_of_le_value hfinite hlargest
  have hlt : (p10 c n).toNat < 2 ^ 52 := lt_of_le_of_lt hle (by decide)
  rw [expField, Nat.div_eq_of_lt hlt, Nat.zero_mod]

end

/-- Settles O48: P10 is fl of a power of ten, which lies among the positive doubles. -/
theorem powersOfTenAreTheNearestDoubles : Obligations.PowersOfTenAreTheNearestDoubles :=
  ⟨fun c _ h1 h2 => ⟨nearestTo_p10 c h1 h2, p10_ne_zero c h1 h2⟩, fun c _ => p10_exact c, fun c _ => p10_subnormal c⟩

end Sys2Proof.Machine
end

section
/-! PROOFS. GetSP and RoundDec (spec/48_decimal_numerics.md R185, R187 to R189): the two searches for the decimal exponent, and
the rounding functions that are sign symmetric and keep grid values. -/

namespace Sys2Proof.Machine

/-! ### GetSP (R185) -/

section
variable {a : Ratio} (hden : 0 < a.den)
include hden

theorem pow_ten_le_iff (s : Int) : (Ratio.pow 10 s).le a = true ↔ (10 : ℚ) ^ s ≤ a.toRat := by
  rw [ratio_le_iff (pow_den_pos (by omega) s) hden, toRat_pow, Nat.cast_ofNat]

theorem lt_pow_ten_iff (s : Int) : a.lt (Ratio.pow 10 s) = true ↔ a.toRat < (10 : ℚ) ^ s := by
  rw [ratio_lt_iff hden (pow_den_pos (by omega) s), toRat_pow, Nat.cast_ofNat]

/-- With rounds enough the first search ends below the next power of ten, and at or above its own if it has moved. -/
theorem raiseExponent_spec : ∀ (k : Nat) (s : Int), a.toRat < 10 ^ (s + k + 1) →
    a.toRat < 10 ^ (raiseExponent a k s + 1) ∧ (raiseExponent a k s = s ∨ (10 : ℚ) ^ raiseExponent a k s ≤ a.toRat)
  | 0, s, h => ⟨by simpa [raiseExponent] using h, .inl rfl⟩
  | k + 1, s, h => by
      by_cases hmove : (Ratio.pow 10 (s + 1)).le a = true
      · rw [raiseExponent, if_pos hmove]
        obtain ⟨hupper, hlower⟩ := raiseExponent_spec k (s + 1) (by convert h using 2; push_cast; ring)
        refine ⟨hupper, .inr (hlower.elim (fun hstayed => ?_) id)⟩
        rw [hstayed]
        exact (pow_ten_le_iff hden _).mp hmove
      · rw [raiseExponent, if_neg hmove]
        exact ⟨not_le.mp (mt (pow_ten_le_iff hden _).mpr hmove), .inl rfl⟩

/-- With rounds enough the second search ends at the decimal exponent. -/
theorem lowerExponent_spec : ∀ (k : Nat) (s : Int), (10 : ℚ) ^ (s - k) ≤ a.toRat → a.toRat < 10 ^ (s + 1) →
    (10 : ℚ) ^ lowerExponent a k s ≤ a.toRat ∧ a.toRat < 10 ^ (lowerExponent a k s + 1)
  | 0, s, h, hupper => ⟨by simpa [lowerExponent] using h, hupper⟩
  | k + 1, s, h, hupper => by
      by_cases hmove : a.lt (Ratio.pow 10 s) = true
      · rw [lowerExponent, if_pos hmove]
        refine lowerExponent_spec k (s - 1) (by convert h using 2; push_cast; ring) ?_
        rw [sub_add_cancel]
        exact (lt_pow_ten_iff hden s).mp hmove
      · rw [lowerExponent, if_neg hmove]
        exact ⟨not_lt.mp (mt (lt_pow_ten_iff hden s).mpr hmove), hupper⟩

/-- 400 rounds of each search are enough between `10^-400` and `10^401`. -/
theorem decimalExponent_spec (hlower : (10 : ℚ) ^ (-400 : Int) ≤ a.toRat) (hupper : a.toRat < (10 : ℚ) ^ (401 : Int)) :
    (10 : ℚ) ^ decimalExponent a ≤ a.toRat ∧ a.toRat < 10 ^ (decimalExponent a + 1) := by
  obtain ⟨hraised, hmoved⟩ := raiseExponent_spec hden 400 0 hupper
  refine lowerExponent_spec hden 400 _ ?_ hraised
  rcases hmoved with hstayed | hmoved
  · rw [hstayed]
    exact hlower
  · exact le_trans (zpow_le_zpow_right₀ (by norm_num) (by omega)) hmoved

end

theorem absPattern_toNat (p : U64) : (absPattern p).toNat = p.toNat % 2 ^ 63 := by
  rw [absPattern, BitVec.toNat_and]
  exact Nat.and_two_pow_sub_one_eq_mod p.toNat 63

theorem pow_two_1024_lt : 2 ^ 1024 < 10 ^ 309 := by decide +kernel

theorem pow_two_1074_lt : 2 ^ 1074 < 10 ^ 324 := by decide +kernel

/-- A finite nonzero double lies between the least subnormal one and 2^1024. -/
theorem magnitude_bounds {p : U64} (h : regular p = true) :
    (10 : ℚ) ^ (-324 : Int) < (magnitude p).toRat ∧ (magnitude p).toRat < (10 : ℚ) ^ (309 : Int) := by
  obtain ⟨hfinite, hnonzero⟩ := regular_iff.mp h
  have hlt : p.toNat % 2 ^ 63 < 2047 * 2 ^ 52 := by
    unfold expField at hfinite
    omega
  rw [magnitude_toRat]
  constructor
  · calc (10 : ℚ) ^ (-324 : Int)
      _ < 2 ^ (-1074 : Int) := by
        rw [zpow_neg, zpow_neg]
        exact inv_strictAnti₀ (by positivity) (mod_cast pow_two_1074_lt)
      _ = doubleValue 1 := (one_mul _).symm
      _ ≤ doubleValue (p.toNat % 2 ^ 63) := doubleValue_strictMono.monotone (Nat.one_le_iff_ne_zero.mpr hnonzero)
  · calc doubleValue (p.toNat % 2 ^ 63)
      _ < doubleValue (2046 * 2 ^ 52 + 2 ^ 52) := doubleValue_strictMono hlt
      _ = (2 : ℚ) ^ (1024 : Int) := by
        rw [doubleValue_grid (.inr le_rfl) (by norm_num), ulp, Nat.cast_pow, ← zpow_natCast, Nat.cast_ofNat,
          ← zpow_add₀ two_ne_zero]
        rfl
      _ < (10 : ℚ) ^ (309 : Int) := mod_cast pow_two_1024_lt

/-- Settles O46: the searches end at the decimal exponent, which the bounds of the doubles keep in its range. -/
theorem getSPIsTheExactDecimalExponent : Obligations.GetSPIsTheExactDecimalExponent := by
  intro c p hp
  have hregular : regular (absPattern p) = true := (regular_absPattern p).trans hp
  obtain ⟨hlow, hhigh⟩ := magnitude_bounds hregular
  rw [getSP_eq hregular (signBit_absPattern p)]
  obtain ⟨hlower, hupper⟩ := decimalExponent_spec (magnitude_den_pos _)
    (le_trans (zpow_le_zpow_right₀ (by norm_num) (by norm_num)) hlow.le)
    (hhigh.trans_le (zpow_le_zpow_right₀ (by norm_num) (by norm_num)))
  have habove := (zpow_lt_zpow_iff_right₀ (by norm_num : (1 : ℚ) < 10)).mp (hlow.trans hupper)
  have hbelow := (zpow_lt_zpow_iff_right₀ (by norm_num : (1 : ℚ) < 10)).mp (hlower.trans_lt hhigh)
  exact ⟨hlower, hupper, by omega, by omega⟩

/-! ### Signs (R189, property 2) -/

theorem signBit_of_lt {p : U64} (h : p.toNat < 2 ^ 63) : signBit p = false :=
  Nat.testBit_lt_two_pow h

theorem nearestDouble_toNat_le (a : Ratio) : (nearestDouble a).toNat ≤ infinity.toNat := by
  unfold nearestDouble
  dsimp only
  split_ifs with hzero hover
  · exact Nat.zero_le _
  · exact le_rfl
  · rw [BitVec.toNat_ofNat]
    exact (Nat.mod_le _ _).trans (not_le.mp hover).le

/-- fl of a magnitude has no sign (R190). -/
theorem signBit_nearestDouble (a : Ratio) : signBit (nearestDouble a) = false := by
  have hle := nearestDouble_toNat_le a
  rw [infinity_toNat] at hle
  exact signBit_of_lt (by omega)

@[simp] theorem withSign_false (p : U64) : withSign false p = p := rfl

theorem absPattern_of_signBit {p : U64} (h : signBit p = false) : absPattern p = p := by
  have hsplit := negateIf_signBit_absPattern p
  rwa [h, negateIf_false] at hsplit

/-- The sign bit by itself. -/
theorem getLsbD_signMask {i : Nat} (hi : i < 64) : (0x8000000000000000#64).getLsbD i = decide (i = 63) := by
  have key : ∀ i : Fin 64, (0x8000000000000000#64).getLsbD i = decide (i.val = 63) := by decide +kernel
  exact key ⟨i, hi⟩

section
variable {p : U64} (h : signBit p = false)
include h

/-- Giving a sign to a pattern that has none is negating it or not. -/
theorem withSign_eq_negateIf (neg : Bool) : withSign neg p = negateIf neg p := by
  cases neg with
  | false => rfl
  | true =>
    refine BitVec.eq_of_getLsbD_eq fun i hi => ?_
    simp only [withSign, negateIf, if_true, BitVec.getLsbD_or, BitVec.getLsbD_xor, getLsbD_signMask hi]
    by_cases hsign : i = 63
    · subst hsign
      rw [show p.getLsbD 63 = false from h]
      rfl
    · simp [hsign]

end

/-- Flipping the sign bit flips the sign. -/
theorem signBit_negateIf (neg : Bool) (x : U64) : signBit (negateIf neg x) = (signBit x ^^ neg) := by
  cases neg with
  | false => exact (Bool.xor_false _).symm
  | true => exact BitVec.getLsbD_xor

/-- It leaves the magnitude. -/
theorem absPattern_negateIf (neg : Bool) (x : U64) : absPattern (negateIf neg x) = absPattern x := by
  cases neg with
  | false => rfl
  | true =>
    apply BitVec.eq_of_toNat_eq
    rw [absPattern_toNat, absPattern_toNat, negateIf_true, BitVec.toNat_xor, Nat.xor_mod_two_pow]
    exact Nat.xor_zero _

theorem magnitude_absPattern (x : U64) : magnitude (absPattern x) = magnitude x := by
  have hexp : expField (absPattern x) = expField x := by
    rw [expField, expField, absPattern_toNat]
    omega
  have hfrac : fracField (absPattern x) = fracField x := by
    rw [fracField, fracField, absPattern_toNat]
    omega
  simp only [magnitude, significand, hexp, hfrac]

/-- The reference rounds the magnitude and gives the result the operand's sign (R188). -/
theorem roundDecReference_eq_negateIf (c : P10Choice) (x : U64) (alpha : Int) :
    roundDecReference c x alpha = negateIf (signBit x) (roundDecReference c (absPattern x) alpha) := by
  have hsigned (r : Ratio) :
      withSign (signBit x) (nearestDouble r) = negateIf (signBit x) (withSign false (nearestDouble r)) := by
    rw [withSign_eq_negateIf (signBit_nearestDouble r), withSign_false]
  unfold roundDecReference
  rw [magnitude_absPattern, signBit_absPattern]
  generalize magnitude (p10 c alpha) = scale, magnitude (p10 c (-alpha)) = inverse
  by_cases halpha : 0 ≤ alpha
  · rw [if_pos halpha, if_pos halpha]
    dsimp only
    generalize nearestDouble ((magnitude x).mul scale) = t
    by_cases hover : t = infinity
    · rw [if_pos hover, if_pos hover]
      exact (negateIf_signBit_absPattern x).symm
    · rw [if_neg hover, if_neg hover]
      exact hsigned _
  · rw [if_neg halpha, if_neg halpha]
    exact hsigned _

/-- Every RoundDec does so (R189, property 2). -/
theorem roundDec_eq_negateIf (g : DUConfig) (x : U64) (alpha : Int) :
    roundDec g x alpha = negateIf (signBit x) (roundDec g (absPattern x) alpha) := by
  cases hchoice : g.roundDec with
  | reference =>
    rw [roundDec_reference hchoice, roundDec_reference hchoice]
    exact roundDecReference_eq_negateIf g.p10 x alpha
  | other k =>
    have habs : absPattern (absPattern x) = absPattern x := absPattern_of_signBit (signBit_absPattern x)
    rw [roundDec_other hchoice, roundDec_other hchoice, roundDecOther, roundDecOther, habs, signBit_absPattern]
    rfl

/-- Settles O49: flipping the sign bit flips the sign that the rounded magnitude is given. -/
theorem roundDecIsSignSymmetric : Obligations.RoundDecIsSignSymmetric := by
  intro g x alpha
  rw [← negateIf_true, ← negateIf_true, roundDec_eq_negateIf g (negateIf true x), roundDec_eq_negateIf g x,
    signBit_negateIf, absPattern_negateIf]
  cases signBit x
  · rfl
  · exact (negateIf_negateIf true _).symm

/-! ### Grid values (R189, properties 3 and 4) -/

/-- An integer below 2^53 is a double (R190). -/
theorem nearestDouble_nat {m : Nat} (h : m < 2 ^ 53) :
    nearestDouble ⟨m, 1⟩ ≠ infinity ∧ (magnitude (nearestDouble ⟨m, 1⟩)).toRat = m := by
  rcases Nat.eq_zero_or_pos m with rfl | hpos
  · refine ⟨by decide, ?_⟩
    rw [magnitude_toRat, Nat.cast_zero, ← doubleValue_zero]
    rfl
  · have hsmall : (Ratio.mk m 1).toRat < ((2 : ℚ) ^ 54 - 1) * 2 ^ 970 := by
      rw [toRat_nat]
      calc (m : ℚ)
        _ < 2 ^ 53 := mod_cast h
        _ ≤ ((2 : ℚ) ^ 54 - 1) * 1 := by norm_num
        _ ≤ ((2 : ℚ) ^ 54 - 1) * 2 ^ 970 := mul_le_mul_of_nonneg_left (one_le_pow₀ one_le_two) (by norm_num)
    have hnearest := nearestTo_nearestDouble hpos Nat.one_pos hsmall
    obtain ⟨n, hn, hvalue⟩ := exists_double (j := 1074) h (by omega)
    rw [toRat_nat] at hnearest
    refine ⟨fun hinfinity => ?_, hnearest.value_of_exact hn (hvalue.trans (mul_one _))⟩
    exact (hinfinity ▸ hnearest.1 : finitePositive infinity).ne rfl

section
variable {c : P10Choice} {y : U64} {m : Nat} {alpha : Int} (hm : m < 2 ^ 53)
  (hgrid : nearestDouble (Ratio.div ⟨m, 1⟩ (magnitude (p10 c alpha))) = y)
  (hscaled : nearestDouble ((magnitude y).mul (magnitude (p10 c alpha))) = nearestDouble ⟨m, 1⟩)
include hm hgrid hscaled

/-- Such a value is on the grid that other functions must keep (R189). -/
theorem onGrid_of_scaled : onGrid c y alpha = true := by
  refine (onGrid_iff c y alpha).mpr ⟨m, hm, hgrid, ?_⟩
  rw [hscaled]
  exact num_eq_of_toRat_eq (magnitude_den_pos _) (nearestDouble_nat hm).2

/-- The reference scales it to m, which it leaves, and scales it back (R188). -/
theorem roundDecReference_of_scaled (halpha : 0 ≤ alpha) : roundDecReference c y alpha = y := by
  obtain ⟨hfinite, hvalue⟩ := nearestDouble_nat hm
  have hsign : signBit y = false := hgrid ▸ signBit_nearestDouble _
  rw [roundDecReference, if_pos halpha]
  simp only [hscaled, if_neg hfinite, ceil_of_toRat_eq (magnitude_den_pos _) hvalue, hgrid, hsign]
  rfl

theorem roundDec_of_scaled {g : DUConfig} (hc : g.p10 = c) (halpha : g.roundDec = .reference → 0 ≤ alpha) :
    roundDec g y alpha = y := by
  have hsign : signBit y = false := hgrid ▸ signBit_nearestDouble _
  cases hchoice : g.roundDec with
  | reference =>
    rw [roundDec_reference hchoice, hc]
    exact roundDecReference_of_scaled hm hgrid hscaled (halpha hchoice)
  | other k =>
    rw [roundDec_other hchoice, hc, roundDecOther, absPattern_of_signBit hsign, hsign]
    simp only [onGrid_of_scaled hm hgrid hscaled, if_true, negateIf_false]

end

/-- In the range of R186 every P10 is the reference. -/
theorem p10_eq_reference (c : P10Choice) {n : Int} (h1 : -323 ≤ n) (h2 : n ≤ 308) : p10 c n = p10 .reference n := by
  rw [p10_eq h1 h2, p10_eq h1 h2]

/-- The source's example (R189, property 4): the reference computes it, and the others have it by their definition. -/
theorem roundDec_example (g : DUConfig) : roundDec g 0x4037733000000000#64 2 = 0x4037733333333333#64 := by
  have hp10 : p10 g.p10 2 = p10 .reference 2 := p10_eq_reference g.p10 (by decide) (by decide)
  cases hchoice : g.roundDec with
  | reference =>
    have hexample : roundDecReference .reference 0x4037733000000000#64 2 = 0x4037733333333333#64 := by decide +kernel
    have halpha : (0 : Int) ≤ 2 := by decide
    rw [roundDec_reference hchoice, ← hexample, roundDecReference, roundDecReference, if_pos halpha, if_pos halpha, hp10]
  | other k =>
    have hoff : onGrid .reference 0x4037733000000000#64 2 = false := by decide +kernel
    have hoff' : onGrid g.p10 0x4037733000000000#64 2 = false := by
      rw [← hoff, onGrid, onGrid, hp10]
    have hsign : signBit 0x4037733000000000#64 = false := by decide
    rw [roundDec_other hchoice, roundDecOther, absPattern_of_signBit hsign, hsign, negateIf_false]
    simp only [hoff', Bool.false_eq_true, if_false, and_self, if_true]

/-- Settles O50: without its sign the value is one that every RoundDec keeps, and the sign is carried over. -/
theorem roundDecKeepsGridValues : Obligations.RoundDecKeepsGridValues := by
  refine ⟨?_, roundDec_example⟩
  intro g neg x m alpha _ _ halpha hm hx hscaled
  obtain ⟨y, hy⟩ : ∃ y, y = nearestDouble (Ratio.div ⟨m, 1⟩ (magnitude (p10 g.p10 alpha))) := ⟨_, rfl⟩
  have hsign : signBit y = false := hy ▸ signBit_nearestDouble _
  have hxy : x = negateIf neg y := by rw [hx, ← hy, withSign_eq_negateIf hsign]
  have habs : absPattern x = y := by rw [hxy, absPattern_negateIf, absPattern_of_signBit hsign]
  have hneg : signBit x = neg := by rw [hxy, signBit_negateIf, hsign, Bool.false_xor]
  rw [← magnitude_absPattern, habs] at hscaled
  rw [roundDec_eq_negateIf, habs, hneg, roundDec_of_scaled hm hy.symm hscaled rfl halpha, hxy]

end Sys2Proof.Machine
end
